-- ==== Sys2Proof/Word.lean ====
section
/-! DEFINITION. The widths of the machine's values (spec 00_scope.md R11, R12): a byte, a 32-bit register word and a
128-bit block. Everything computed on them (byte order, fields, field arithmetic) stands under Machine/. -/

namespace Sys2Proof

/-- A stream byte, u8 (R12). -/
abbrev Byte := BitVec 8

/-- A register, stream or operand word, u32 (R9, R11). -/
abbrev Word := BitVec 32

/-- A 16-byte block B held as the u128 `int128(B)`: byte 0 of the block is the most significant byte (R12, R88). -/
abbrev Block := BitVec 128

end Sys2Proof
end

