-- ==== Sys2Proof/Config.lean ====
section
/-! DEFINITION. What the spec leaves to an implementation (00_scope.md R10). Only `KEY_ZEROED_AT_RESET` bears on what the
core does; `REG_MAP` and `IRQ_MAP` are OPEN and not modelled (20_memory.md R94, 60_exceptions.md R381, log 10). The spec
leaves no result of an operation undefined, so there is no free value. -/

namespace Sys2Proof

/-- The default of the Boolean model parameter `KEY_ZEROED_AT_RESET` (R10). A machine carries its own value in
`State.keyZeroedAtReset` (log 3); this is the value of the machine `State.reset` describes. -/
def Config.keyZeroedAtReset : Bool := false

end Sys2Proof
end

