-- ==== Sys2Proof/Machine/State.lean ====
section
/-! DEFINITION. The machine's state. `Engine` is the spec's whole record `st` (10_state.md R57), one field per row of that
table; `State` puts beside it the model's own fields: the parameter KEY_ZEROED_AT_RESET (log 3), the host's command stream
(log 1) and the response of the last operation (30_encoding.md R119, log 2). Plain data throughout. The core has no
addressable memory (20_memory.md R80, log 6). -/

namespace Sys2Proof.Machine

/-- KEY_LEN, the active key length in bits (R32). -/
inductive KeyLen where
  /-- 0: no length has been selected. -/
  | unset
  /-- 128 bits. -/
  | k128
  /-- 192 bits. -/
  | k192
  /-- 256 bits. -/
  | k256
deriving DecidableEq, Repr

/-- PHASE, the phase cursor: IDLE, IV0 to IV3, AAD, PAYLOAD, TAG0 to TAG3 (R45). -/
inductive Phase where
  /-- IDLE: no message. -/
  | idle
  /-- IVk: a quota phase of one word. -/
  | iv (k : Fin 4)
  /-- AAD: an open phase. -/
  | aad
  /-- PAYLOAD: an open phase. -/
  | payload
  /-- TAGk: a quota phase of one word. -/
  | tag (k : Fin 4)
deriving DecidableEq, Repr

/-- A status code of an operation (60_exceptions.md R370). Codes 5 to 7 are never returned, so no constructor stands for
them. -/
inductive Status where
  /-- 0, success. -/
  | ok
  /-- 1, fatal: LOAD_KEY with an unsupported length. -/
  | invalidKeyLength
  /-- 2, fatal: no loaded key. -/
  | keyNotLoaded
  /-- 3, non-fatal: decrypt tag mismatch. -/
  | authenticationFailed
  /-- 4, fatal: any misuse of the protocol. -/
  | protocolViolation
deriving DecidableEq, Repr

/-- The response record of an operation (30_encoding.md R119). -/
structure Response where
  /-- The status code. -/
  status : Status
  /-- The output bytes: of a successful PUSH_DATA in phase PAYLOAD, else empty. -/
  out : List Byte
  /-- The value of READ_STATUS, READ_KEY, READ_TAG and READ_IV, else 0. -/
  value : Word
  /-- The 169-byte record of SNAPSHOT, else empty. -/
  record : List Byte
deriving DecidableEq, Repr

/-- The spec's state record `st` (10_state.md R57). -/
structure Engine where
  /-- KEY[0..7] (R31). -/
  key : Vector Word 8
  /-- KEY_LEN (R32). -/
  keyLen : KeyLen
  /-- ACTIVE_KEY[0..7] (R33). -/
  activeKey : Vector Word 8
  /-- RK[0..59], the round-key schedule (R34). -/
  rk : Vector Word 60
  /-- KEY_LOADED (R35). -/
  keyLoaded : Bool
  /-- KEY_ZEROED (R36). -/
  keyZeroed : Bool
  /-- H, the hash subkey (R37). -/
  h : Block
  /-- J0, the initial counter block (R38). -/
  j0 : Block
  /-- EJ0, the tag mask (R38). -/
  ej0 : Block
  /-- Y, the running counter block (R39). -/
  y : Block
  /-- X, the GHASH accumulator (R40). -/
  x : Block
  /-- AAD_LEN, bytes absorbed as AAD (R41). -/
  aadLen : BitVec 64
  /-- CT_LEN, bytes absorbed as payload (R41). -/
  ctLen : BitVec 64
  /-- HBUF, 0 to 15 bytes not yet hashed (R42). -/
  hbuf : List Byte
  /-- KS, the current keystream block (R43). -/
  ks : Block
  /-- KPOS, the index of the next unused keystream byte; 16 means none is left (R43). -/
  kpos : Fin 17
  /-- MSG_KEY_VALID (R44). -/
  msgKeyValid : Bool
  /-- PHASE (R45). -/
  phase : Phase
  /-- ENCRYPT, the mode (R46). -/
  encrypt : Bool
  /-- IV[0..3] (R47). -/
  iv : Vector Word 4
  /-- TAG[0..3] (R48). -/
  tag : Vector Word 4
  /-- WBUF, 0 to 3 bytes of a word under assembly (R49). -/
  wbuf : List Byte
  /-- TAG_OK, the decrypt verdict (R50). -/
  tagOk : Bool
  /-- DONE (R51). -/
  done : Bool
  /-- LAST_STATUS (R54). -/
  lastStatus : Status
deriving DecidableEq, Repr

/-- The machine: the spec's record `st` and, beside it, the model's own fields. -/
structure State where
  /-- The spec's whole record `st`. -/
  st : Engine
  /-- The parameter KEY_ZEROED_AT_RESET (00_scope.md R10, 10_state.md R55): no operation writes it (log 3). -/
  keyZeroedAtReset : Bool
  /-- The bytes of the commands the host has issued and the core has not yet run, oldest first (log 1). -/
  input : List Byte
  /-- The response of the most recent operation (30_encoding.md R119, log 2). -/
  response : Response
deriving DecidableEq, Repr

/-- Why the machine stops with a fault: never. The core has no traps, and no operation leaves it stuck
(60_exceptions.md R380, 20_memory.md R99), so the type has no constructor (log 9). Safe: nothing the core does is left out. -/
inductive Fault where
deriving DecidableEq, Repr

/-- Why a step has no meaning. -/
inductive Refusal where
  /-- Raised by an arm of `exec` for an instruction that has no meaning yet: by none here. Safe. -/
  | notModelled (mnemonic : String)
  /-- Raised by the step when the command stream ends inside a command: such a command is refused by the transport and
  never reaches the core (30_encoding.md R117, log 5). Safe: the core defines no state change for it. -/
  | truncatedCommand
deriving DecidableEq, Repr

/-- `reset_state(z)` (46_control.md R340, 10_state.md R57). -/
def Engine.reset (z : Bool) : Engine where
  key := Vector.replicate 8 0
  keyLen := .unset
  activeKey := Vector.replicate 8 0
  rk := Vector.replicate 60 0
  keyLoaded := false
  keyZeroed := z
  h := 0
  j0 := 0
  ej0 := 0
  y := 0
  x := 0
  aadLen := 0
  ctLen := 0
  hbuf := []
  ks := 0
  kpos := 16
  msgKeyValid := false
  phase := .idle
  encrypt := false
  iv := Vector.replicate 4 0
  tag := Vector.replicate 4 0
  wbuf := []
  tagOk := false
  done := false
  lastStatus := .ok

/-- The machine right after reset (70_reset_and_hazards.md R410), the parameter at its default, no command issued and no
response given yet (logs 2, 3 and 7). -/
def State.reset : State where
  st := Engine.reset Config.keyZeroedAtReset
  keyZeroedAtReset := Config.keyZeroedAtReset
  input := []
  response := { status := .ok, out := [], value := 0, record := [] }

end Sys2Proof.Machine
end

