-- ==== Sys2Proof/Machine/Flags.lean ====
section
/-! DEFINITION. The codes of the enumerated fields and the status word (10_state.md R32, R45, R58; 60_exceptions.md R370),
and the values the spec derives from KEY_LEN (41_block_cipher.md R152). -/

namespace Sys2Proof.Machine

/-- The numeric code of a status (R370). -/
def Status.code : Status → BitVec 3
  | .ok => 0
  | .invalidKeyLength => 1
  | .keyNotLoaded => 2
  | .authenticationFailed => 3
  | .protocolViolation => 4

/-- A fatal status is InvalidKeyLength, KeyNotLoaded or ProtocolViolation (00_scope.md R18, R371). -/
def Status.fatal : Status → Bool
  | .ok => false
  | .invalidKeyLength => true
  | .keyNotLoaded => true
  | .authenticationFailed => false
  | .protocolViolation => true

/-- The 4-bit code of a phase (R45). -/
def Phase.code : Phase → BitVec 4
  | .idle => 0
  | .iv k => 1 + BitVec.ofNat 4 k.val
  | .aad => 5
  | .payload => 6
  | .tag k => 7 + BitVec.ofNat 4 k.val

/-- The phases in the order of their codes (R45). -/
def Phase.all : List Phase :=
  [.idle, .iv 0, .iv 1, .iv 2, .iv 3, .aad, .payload, .tag 0, .tag 1, .tag 2, .tag 3]

/-- The phase with a code; codes above 10 are not phases (R45). -/
def Phase.ofCode (c : Nat) : Option Phase := Phase.all[c]?

/-- Whether the phase is one of IV0 to IV3. -/
def Phase.isIv : Phase → Bool
  | .iv _ => true
  | .idle => false
  | .aad => false
  | .payload => false
  | .tag _ => false

/-- Whether the phase is one of TAG0 to TAG3. -/
def Phase.isTag : Phase → Bool
  | .tag _ => true
  | .idle => false
  | .iv _ => false
  | .aad => false
  | .payload => false

/-- Whether the phase is AAD, PAYLOAD or TAG0 to TAG3: those in which a stream operation uses the message key
(45_stream_processor.md R284, R293). -/
def Phase.usesKey : Phase → Bool
  | .aad => true
  | .payload => true
  | .tag _ => true
  | .idle => false
  | .iv _ => false

/-- The 2-bit code of KEY_LEN (R32). -/
def KeyLen.code : KeyLen → BitVec 2
  | .unset => 0
  | .k128 => 1
  | .k192 => 2
  | .k256 => 3

/-- The key length with a code; codes above 3 are none (R32, 46_control.md R350). -/
def KeyLen.ofCode (c : Nat) : Option KeyLen := [KeyLen.unset, .k128, .k192, .k256][c]?

/-- KEY_LEN in bits (R32). -/
def KeyLen.bits : KeyLen → Nat
  | .unset => 0
  | .k128 => 128
  | .k192 => 192
  | .k256 => 256

/-- Nk = KEY_LEN/32 words (R152, 20_memory.md R83). -/
def KeyLen.nk (len : KeyLen) : Nat := len.bits / 32

/-- Nr = 6 + KEY_LEN/32 rounds (R152, R158). -/
def KeyLen.nr (len : KeyLen) : Nat := 6 + len.nk

/-- INP_READY = (PHASE ≠ IDLE), not stored (10_state.md R53). -/
def inpReady (st : Engine) : Bool := st.phase != .idle

/-- The status word (10_state.md R58, 46_control.md R343), written from bit 31 down. BUSY, bit 0, reads 0 (R52). -/
def statusWord (st : Engine) : Word :=
  0#11 ++ BitVec.ofNat 2 st.wbuf.length ++ st.lastStatus.code
    ++ 0#1 ++ BitVec.ofBool st.msgKeyValid ++ st.keyLen.code ++ st.phase.code
    ++ 0#1 ++ BitVec.ofBool st.encrypt ++ BitVec.ofBool (inpReady st) ++ BitVec.ofBool st.keyZeroed
    ++ BitVec.ofBool st.keyLoaded ++ BitVec.ofBool st.tagOk ++ BitVec.ofBool st.done ++ 0#1

end Sys2Proof.Machine
end

