-- ==== Sys2Proof/Machine/Ops.lean ====
section
/-! DEFINITION. How an operation ends (44_key_store.md and 45_stream_processor.md, "every return also performs
LAST_STATUS <- S"; 60_exceptions.md R370, R376), and the key check. The core has no traps (R380): what another machine would
call taking an exception is here the one operation `fail`, and there is nothing to return from. -/

namespace Sys2Proof.Machine

/-- The response of an operation that has no output, value or record (30_encoding.md R119). -/
def statusResponse (status : Status) : Response :=
  { status := status, out := [], value := 0, record := [] }

/-- The response of a read of one word (R119). -/
def valueResponse (value : Word) : Response :=
  { status := .ok, out := [], value := value, record := [] }

/-- Ends an operation in the record `st` with a response, whose status goes to LAST_STATUS (10_state.md R54). -/
def finish (s : State) (st : Engine) (r : Response) : Host.Outcome State Fault Refusal :=
  .next { s with st := { st with lastStatus := r.status }, response := r }

/-- Ends an operation with a fatal status: nothing changes but LAST_STATUS, and the response carries an empty out and a value
of 0 (60_exceptions.md R376). -/
def fail (s : State) (status : Status) : Host.Outcome State Fault Refusal :=
  finish s s.st (statusResponse status)

/-- Ends an operation that writes no state, not even LAST_STATUS: READ_STATUS and SNAPSHOT (46_control.md R343, R346). -/
def observe (s : State) (r : Response) : Host.Outcome State Fault Refusal :=
  .next { s with response := r }

/-- A malformed or unassigned header ends with ProtocolViolation and no effect but LAST_STATUS <- 4 (30_encoding.md R115,
R116). -/
def rejectCommand (s : State) : Host.Outcome State Fault Refusal := fail s .protocolViolation

/-- A read of one of `n` registers: ProtocolViolation for an index out of range, else its word; only LAST_STATUS is written
(44_key_store.md R262; 45_stream_processor.md R315, R316). `index` is the operand as a register number. -/
def readRegister {n : Nat} (s : State) (regs : Vector Word n) (index : Option (Fin n)) :
    Host.Outcome State Fault Refusal :=
  match index with
  | none => fail s .protocolViolation
  | some k => finish s s.st (valueResponse regs[k])

/-- `key_check()` (45_stream_processor.md R284): whether the current message may still use the key. -/
def keyCheck (st : Engine) : Status :=
  if st.msgKeyValid then .ok
  else if st.keyZeroed then .protocolViolation
  else if st.keyLoaded then .protocolViolation
  else .keyNotLoaded

end Sys2Proof.Machine
end

