-- ==== Sys2Proof/Machine/Bytes.lean ====
section
/-! DEFINITION. Byte order (00_scope.md R12, 20_memory.md R82 to R88): every multi-byte quantity is big-endian, for every
width, through the one pair `beNat` and `beBytes`. -/

namespace Sys2Proof.Machine

/-- The number a byte string stands for, its first byte most significant (R12: `int128`, R84). -/
def beNat (bs : List Byte) : Nat := bs.foldl (fun acc b => acc * 256 + b.toNat) 0

/-- The `n`-byte big-endian string of `v` modulo 256^n (R12: `be32`, `be64`, `be128`). -/
def beBytes : Nat → Nat → List Byte
  | 0, _ => []
  | n + 1, v => BitVec.ofNat 8 (v / 256 ^ n) :: beBytes n v

/-- `word(b0,b1,b2,b3)` of a 4-byte string (R12, R84). -/
def wordOf (bs : List Byte) : Word := BitVec.ofNat 32 (beNat bs)

/-- `int128(B)` of a 16-byte string (R12). -/
def blockOf (bs : List Byte) : Block := BitVec.ofNat 128 (beNat bs)

/-- `be32(w)` (R12). -/
def be32 (w : Word) : List Byte := beBytes 4 w.toNat

/-- `be64(v)` (R12). -/
def be64 (v : BitVec 64) : List Byte := beBytes 8 v.toNat

/-- `be128(v)` (R12). -/
def be128 (b : Block) : List Byte := beBytes 16 b.toNat

/-- Byte `r` (0 to 3) of a word, byte 0 most significant: `w[31-8r : 24-8r]`. -/
def wordByte (w : Word) (r : Nat) : Byte := w.extractLsb' (24 - 8 * r) 8

/-- Byte `i` (0 to 15) of a block, byte 0 most significant: `B[i]` of `be128(B)`. -/
def blockByte (b : Block) (i : Nat) : Byte := b.extractLsb' (120 - 8 * i) 8

/-- `word(b0,b1,b2,b3) = b0<<24 | b1<<16 | b2<<8 | b3` (R12). -/
def word (b0 b1 b2 b3 : Byte) : Word := b0 ++ b1 ++ b2 ++ b3

/-- `S ‖ 0^(n-|S|)`: a byte string filled with zero bytes up to `n` bytes (`word(c ‖ 0^(4-|c|))` of 45 R300, the padded
hash block of 43 R218, the fill bytes of 46 R348). -/
def zeroFill (n : Nat) (bs : List Byte) : List Byte := bs ++ List.replicate (n - bs.length) 0

/-- A register array of `n` words from a list, missing words 0 and surplus words dropped (44 R253: the unused words of
ACTIVE_KEY and RK are 0). -/
def padWords (n : Nat) (ws : List Word) : Vector Word n :=
  ⟨⟨(ws ++ List.replicate n 0).take n⟩, by simp⟩

/-- The 128-bit value of four words, word 0 in bits 127:96 (43 R226; 20_memory.md R86). -/
def wordsBlock (v : Vector Word 4) : Block := v[0] ++ v[1] ++ v[2] ++ v[3]

/-- Word `i` of a block is bits `127-32i : 96-32i` (45 R312). -/
def blockWords (b : Block) : Vector Word 4 :=
  #v[b.extractLsb' 96 32, b.extractLsb' 64 32, b.extractLsb' 32 32, b.extractLsb' 0 32]

end Sys2Proof.Machine
end

