-- ==== Sys2Proof/Machine/BlockCipher.lean ====
section
/-! DEFINITION. The Block Cipher Core (41_block_cipher.md): AES key expansion and encryption of one block. The cipher state
is held as its four columns, column c a word whose most significant byte is row 0 (R146), so AddRoundKey is the exclusive-or
of a round-key word into each column (R150) and SubBytes is SubWord on each column. -/

namespace Sys2Proof.Machine

/-- `xtime(b)`: multiplication by x in GF(2^8) modulo 0x11B (R141). -/
def xtime (b : Byte) : Byte := (b <<< 1) ^^^ (if b.getLsbD 7 then 0x1B else 0)

/-- One iteration of `gmul8`: the running result and the shifted `a` (R142). -/
def gmul8Step (b : Byte) (ra : Byte × Byte) (k : Nat) : Byte × Byte :=
  (if b.getLsbD k then ra.1 ^^^ ra.2 else ra.1, xtime ra.2)

/-- `gmul8(a, b)`, the product in GF(2^8) (R142). -/
def gmul8 (a b : Byte) : Byte := ((List.range 8).foldl (gmul8Step b) (0, a)).1

/-- `ginv8(a)`, the b with `gmul8(a, b) = 1`, and 0 for 0 (R143), computed as the power a^254 of a field of 256 elements;
used only to derive the S-box (R145). -/
def ginv8 (a : Byte) : Byte :=
  let a2 := gmul8 a a
  let a3 := gmul8 a2 a
  let a12 := gmul8 (gmul8 a3 a3) (gmul8 a3 a3)
  let a14 := gmul8 a12 a2
  let a15 := gmul8 a12 a3
  let a60 := gmul8 (gmul8 a15 a15) (gmul8 a15 a15)
  let a240 := gmul8 (gmul8 a60 a60) (gmul8 a60 a60)
  gmul8 a240 a14

/-- The S-box table, row = high nibble of the input, 16 bytes a row in the order of the columns (R144). -/
def sboxRows : List Block :=
  [0x637c777bf26b6fc53001672bfed7ab76, 0xca82c97dfa5947f0add4a2af9ca472c0,
   0xb7fd9326363ff7cc34a5e5f171d83115, 0x04c723c31896059a071280e2eb27b275,
   0x09832c1a1b6e5aa0523bd6b329e32f84, 0x53d100ed20fcb15b6acbbe394a4c58cf,
   0xd0efaafb434d338545f9027f503c9fa8, 0x51a3408f929d38f5bcb6da2110fff3d2,
   0xcd0c13ec5f974417c4a77e3d645d1973, 0x60814fdc222a908846eeb814de5e0bdb,
   0xe0323a0a4906245cc2d3ac629195e479, 0xe7c8376d8dd54ea96c56f4ea657aae08,
   0xba78252e1ca6b4c6e8dd741f4bbd8b8a, 0x703eb5664803f60e613557b986c11d9e,
   0xe1f8981169d98e949b1e87e9ce5528df, 0x8ca1890dbfe6426841992d0fb054bb16]

/-- `SBOX[b]` (R144). -/
def sbox (b : Byte) : Byte :=
  blockByte (sboxRows.getD (b.extractLsb' 4 4).toNat 0) (b.extractLsb' 0 4).toNat

/-- The S-box by its formula (R145). -/
def sboxFormula (a : Byte) : Byte :=
  let b := ginv8 a
  b ^^^ b.rotateLeft 1 ^^^ b.rotateLeft 2 ^^^ b.rotateLeft 3 ^^^ b.rotateLeft 4 ^^^ 0x63

/-- `RotWord` (R153). -/
def rotWord (w : Word) : Word := w.rotateLeft 8

/-- `SubWord` (R153). -/
def subWord (w : Word) : Word :=
  word (sbox (wordByte w 0)) (sbox (wordByte w 1)) (sbox (wordByte w 2)) (sbox (wordByte w 3))

/-- `Rcon[j]` for j = 1 to 10 (R154). -/
def rcon (j : Nat) : Word :=
  word (([0x01, 0x02, 0x04, 0x08, 0x10, 0x20, 0x40, 0x80, 0x1B, 0x36] : List Byte).getD (j - 1) 0) 0 0 0

/-- One step of the key expansion (R155): puts `w[i]` before `w[i-1], …, w[0]`. -/
def expandStep (nk : Nat) (ws : List Word) (i : Nat) : List Word :=
  let t := ws.headD 0
  let t := if i % nk = 0 then subWord (rotWord t) ^^^ rcon (i / nk)
    else if nk = 8 ∧ i % nk = 4 then subWord t
    else t
  (ws.getD (nk - 1) 0 ^^^ t) :: ws

/-- The `4·(Nr+1)` words of the schedule of the first `nk` key words (R155, R152). -/
def scheduleWords (nk : Nat) (key : List Word) : List Word :=
  ((List.range' nk (4 * (nk + 7) - nk)).foldl (expandStep nk) (key.take nk).reverse).reverse

/-- `expand_key(key, bits)`: 60 words, those past the schedule 0 (R155). It is never called with no length selected (R156),
where it answers zeros (log 12). -/
def expandKey (key : Vector Word 8) (len : KeyLen) : Vector Word 60 :=
  match len with
  | .unset => padWords 60 []
  | .k128 => padWords 60 (scheduleWords 4 key.toList)
  | .k192 => padWords 60 (scheduleWords 6 key.toList)
  | .k256 => padWords 60 (scheduleWords 8 key.toList)

/-- The 4 × 4 cipher state by columns (R146). -/
structure CipherState where
  /-- Column 0. -/
  c0 : Word
  /-- Column 1. -/
  c1 : Word
  /-- Column 2. -/
  c2 : Word
  /-- Column 3. -/
  c3 : Word
deriving DecidableEq, Repr

/-- Loading a block: column c holds bytes 4c to 4c+3, row 0 first (R146). -/
def loadState (b : Block) : CipherState :=
  ⟨b.extractLsb' 96 32, b.extractLsb' 64 32, b.extractLsb' 32 32, b.extractLsb' 0 32⟩

/-- Unloading the state to a block (R146). -/
def unloadState (s : CipherState) : Block := s.c0 ++ s.c1 ++ s.c2 ++ s.c3

/-- `SubBytes` (R147). -/
def subBytes (s : CipherState) : CipherState :=
  ⟨subWord s.c0, subWord s.c1, subWord s.c2, subWord s.c3⟩

/-- A column of ShiftRows: row r from the r-th of four columns. -/
def gatherRows (a b c d : Word) : Word :=
  word (wordByte a 0) (wordByte b 1) (wordByte c 2) (wordByte d 3)

/-- `ShiftRows`: `s'[r][c] = s[r][(c + r) mod 4]` (R148). -/
def shiftRows (s : CipherState) : CipherState :=
  ⟨gatherRows s.c0 s.c1 s.c2 s.c3, gatherRows s.c1 s.c2 s.c3 s.c0,
   gatherRows s.c2 s.c3 s.c0 s.c1, gatherRows s.c3 s.c0 s.c1 s.c2⟩

/-- `MixColumns` on one column, with `02•a = xtime(a)` and `03•a = xtime(a) ⊕ a` (R149). -/
def mixColumn (w : Word) : Word :=
  let a0 := wordByte w 0
  let a1 := wordByte w 1
  let a2 := wordByte w 2
  let a3 := wordByte w 3
  word (xtime a0 ^^^ (xtime a1 ^^^ a1) ^^^ a2 ^^^ a3)
    (a0 ^^^ xtime a1 ^^^ (xtime a2 ^^^ a2) ^^^ a3)
    (a0 ^^^ a1 ^^^ xtime a2 ^^^ (xtime a3 ^^^ a3))
    ((xtime a0 ^^^ a0) ^^^ a1 ^^^ a2 ^^^ xtime a3)

/-- `MixColumns` (R149). -/
def mixColumns (s : CipherState) : CipherState :=
  ⟨mixColumn s.c0, mixColumn s.c1, mixColumn s.c2, mixColumn s.c3⟩

/-- `AddRoundKey(s, rnd)`: `RK[4·rnd + c]` into column c (R150). -/
def addRoundKey (rk : Vector Word 60) (s : CipherState) (rnd : Nat) : CipherState :=
  ⟨s.c0 ^^^ rk.toList.getD (4 * rnd) 0, s.c1 ^^^ rk.toList.getD (4 * rnd + 1) 0,
   s.c2 ^^^ rk.toList.getD (4 * rnd + 2) 0, s.c3 ^^^ rk.toList.getD (4 * rnd + 3) 0⟩

/-- A middle round, with MixColumns (R160). -/
def cipherRound (rk : Vector Word 60) (s : CipherState) (rnd : Nat) : CipherState :=
  addRoundKey rk (mixColumns (shiftRows (subBytes s))) rnd

/-- `encrypt_block(rk, Nr, B)` (R160): no MixColumns in the final round. -/
def encryptBlock (rk : Vector Word 60) (nr : Nat) (b : Block) : Block :=
  let s := (List.range' 1 (nr - 1)).foldl (cipherRound rk) (addRoundKey rk (loadState b) 0)
  unloadState (addRoundKey rk (shiftRows (subBytes s)) nr)

end Sys2Proof.Machine
end

