-- ==== Sys2Proof/Machine/Ghash.lean ====
section
/-! DEFINITION. The GHASH multiplier-accumulator (42_ghash.md). A block is a field element of GF(2^128) whose coefficient of
x^i is bit 127 - i of its value (R190). -/

namespace Sys2Proof.Machine

/-- The reduction constant `R = 0xE1 << 120` (R191). -/
def ghashR : Block := 0xE1#128 <<< 120

/-- Multiplication of a field element by x: the update of `V` in R191. -/
def mulX (v : Block) : Block := if v.getLsbD 0 then (v >>> 1) ^^^ ghashR else v >>> 1

/-- One iteration of `gf128_mul`: the running `Z` and `V` (R191). -/
def gf128Step (x : Block) (zv : Block × Block) (i : Nat) : Block × Block :=
  (if x.getLsbD (127 - i) then zv.1 ^^^ zv.2 else zv.1, mulX zv.2)

/-- `gf128_mul(X, Y)` (R191). -/
def gf128Mul (x y : Block) : Block := ((List.range 128).foldl (gf128Step x) (0, y)).1

/-- `ghash_step(B)`: `X <- gf128_mul(X ⊕ int128(B), H)` (R194). -/
def ghashStep (b : Block) (st : Engine) : Engine := { st with x := gf128Mul (st.x ^^^ b) st.h }

end Sys2Proof.Machine
end

