-- ==== Sys2Proof/Machine/GcmContext.lean ====
section
/-! DEFINITION. The GCM Context (43_gcm_context.md): counter mode, AAD and payload absorption, the length block and the tag.
Its functions have no encoding; the stream processor calls them. -/

namespace Sys2Proof.Machine

/-- `inc32(Y)`: the low 32 bits plus 1 modulo 2^32, the upper 96 unchanged (R210). -/
def inc32 (y : Block) : Block := y.extractLsb' 32 96 ++ (y.extractLsb' 0 32 + 1)

/-- `E(B)` under the schedule and key length in use (R211). -/
def encryptE (st : Engine) (b : Block) : Block := encryptBlock st.rk st.keyLen.nr b

/-- `J0 = IV[0] ‖ IV[1] ‖ IV[2] ‖ 0x00000001`; IV[3] takes no part (R212, R213). -/
def counterBlock0 (iv : Vector Word 4) : Block := iv[0] ++ iv[1] ++ iv[2] ++ 1#32

/-- `gcm_begin()` (R212). -/
def gcmBegin (st : Engine) : Engine :=
  { st with
    h := encryptE st 0
    j0 := counterBlock0 st.iv
    ej0 := encryptE st (counterBlock0 st.iv)
    y := counterBlock0 st.iv
    x := 0
    aadLen := 0
    ctLen := 0
    hbuf := []
    ks := 0
    kpos := 16
    msgKeyValid := true }

/-- One byte into HBUF; a full block is hashed and HBUF emptied (R216, R219). -/
def absorbByte (st : Engine) (b : Byte) : Engine :=
  if st.hbuf.length + 1 = 16 then { ghashStep (blockOf (st.hbuf ++ [b])) st with hbuf := [] }
  else { st with hbuf := st.hbuf ++ [b] }

/-- `gcm_aad(ch)` (R216): the counter is not touched. -/
def gcmAad (ch : List Byte) (st : Engine) : Engine :=
  let st' := ch.foldl absorbByte st
  { st' with aadLen := st'.aadLen + BitVec.ofNat 64 ch.length }

/-- `gcm_close_hash()`: pads and hashes a partial block; nothing to do when HBUF is empty (R218). -/
def gcmCloseHash (st : Engine) : Engine :=
  if st.hbuf = [] then st
  else { ghashStep (blockOf (zeroFill 16 st.hbuf)) st with hbuf := [] }

/-- The next keystream block when none is left: increment, then encrypt (R219, R220). -/
def refillKeystream (st : Engine) : Engine :=
  if st.kpos = 16 then
    { st with y := inc32 st.y, ks := encryptE st (inc32 st.y), kpos := 0 }
  else st

/-- One payload byte (R219): the output byte is the input XOR the keystream in both directions, and the hashed byte is the
ciphertext byte (R221). -/
def payloadByte (p : Engine × List Byte) (b : Byte) : Engine × List Byte :=
  let st := refillKeystream p.1
  let ob := b ^^^ blockByte st.ks st.kpos.val
  let cb := if st.encrypt then ob else b
  (absorbByte { st with kpos := st.kpos + 1 } cb, p.2 ++ [ob])

/-- `gcm_payload(ch)`: the state and the output bytes (R219). -/
def gcmPayload (ch : List Byte) (st : Engine) : Engine × List Byte :=
  let p := ch.foldl payloadByte (st, [])
  ({ p.1 with ctLen := p.1.ctLen + BitVec.ofNat 64 ch.length }, p.2)

/-- The length block: the two bit lengths modulo 2^64, big-endian, AAD first (R224, R225). -/
def lengthBlock (aadLen ctLen : BitVec 64) : Block := (8 * aadLen) ++ (8 * ctLen)

/-- `gcm_finish()`: the state and the tag (R224). -/
def gcmFinish (st : Engine) : Engine × Block :=
  let st' := ghashStep (lengthBlock st.aadLen st.ctLen) (gcmCloseHash st)
  (st', st'.x ^^^ st'.ej0)

end Sys2Proof.Machine
end

