-- ==== Sys2Proof/Syntax.lean ====
section
/-! DEFINITION. The host operations: one constructor per row of spec/opcode_table.json (30_encoding.md R113), with the
operands of R114. A malformed or unassigned header (R115, R116) is no row of the table and no instruction: the decoder
reports it by name and the step ends it with ProtocolViolation. -/

namespace Sys2Proof

/-- A decoded host operation. -/
inductive Instr where
  /-- RESET, format F0 (46_control.md R340). -/
  | reset
  /-- WRITE_KEY index, value, format FW (44_key_store.md R250). -/
  | writeKey (index : BitVec 8) (value : Word)
  /-- LOAD_KEY bits, format FL: the key length in bits, not a code (44_key_store.md R252, R114). -/
  | loadKey (bits : BitVec 16)
  /-- ZERO_KEY, format F0 (44_key_store.md R258). -/
  | zeroKey
  /-- START_MESSAGE enc, format FE: true is encrypt (45_stream_processor.md R282). -/
  | startMessage (enc : Bool)
  /-- PUSH_DATA data, lw, format FD: `lw = 0` is "no last-word marker", 1 to 3 the marker (45_stream_processor.md R290).
  LEN is the length of `data`. -/
  | pushData (lw : BitVec 2) (data : List Byte)
  /-- END_AAD, format F0 (45_stream_processor.md R307). -/
  | endAad
  /-- END_PAYLOAD, format F0 (45_stream_processor.md R310). -/
  | endPayload
  /-- READ_STATUS, format F0 (46_control.md R343). -/
  | readStatus
  /-- READ_KEY index, format FI (44_key_store.md R262). -/
  | readKey (index : BitVec 8)
  /-- READ_TAG index, format FI (45_stream_processor.md R315). -/
  | readTag (index : BitVec 8)
  /-- READ_IV index, format FI (45_stream_processor.md R316). -/
  | readIv (index : BitVec 8)
  /-- SNAPSHOT, format F0 (46_control.md R346). -/
  | snapshot
  /-- RESTORE record, format FR: the 169 record bytes (46_control.md R349). -/
  | restore (record : List Byte)
deriving DecidableEq, Repr

end Sys2Proof
end

