-- ==== Sys2Proof/WellFormed.lean ====
section
/-! DEFINITION. What the encoding of 30_encoding.md can express: the two operations with a byte string have a length the
format fixes. Every other operand is a bit vector of its field's own width, so it cannot be out of range. -/

namespace Sys2Proof

/-- The number of bytes of a snapshot record (46_control.md R348). -/
abbrev recordLength : Nat := 169

/-- LEN is a u32, so a push carries at most 2^32 - 1 bytes (30_encoding.md R114, 00_scope.md R10); a RESTORE carries the
169 bytes of its record (R112). -/
def Instr.wellFormed : Instr → Bool
  | .reset => true
  | .writeKey _ _ => true
  | .loadKey _ => true
  | .zeroKey => true
  | .startMessage _ => true
  | .pushData _ data => decide (data.length < 2 ^ 32)
  | .endAad => true
  | .endPayload => true
  | .readStatus => true
  | .readKey _ => true
  | .readTag _ => true
  | .readIv _ => true
  | .snapshot => true
  | .restore record => decide (record.length = recordLength)

end Sys2Proof
end

