-- ==== Sys2Proof/Machine/Record.lean ====
section
/-! DEFINITION. The 169-byte snapshot record: its layout, its validity and the re-derivation of what it leaves out
(46_control.md R347 to R351). -/

namespace Sys2Proof.Machine

/-- The flags byte: bit 0 KEY_LOADED, 1 KEY_ZEROED, 2 ENCRYPT, 3 TAG_OK, 4 DONE, 5 MSG_KEY_VALID (R348). -/
def recordFlags (st : Engine) : Byte :=
  0#2 ++ BitVec.ofBool st.msgKeyValid ++ BitVec.ofBool st.done ++ BitVec.ofBool st.tagOk
    ++ BitVec.ofBool st.encrypt ++ BitVec.ofBool st.keyZeroed ++ BitVec.ofBool st.keyLoaded

/-- The record of a state, field after field in the order of R348. -/
def snapshotRecord (st : Engine) : List Byte :=
  st.key.toList.flatMap be32 ++
  [st.keyLen.code.setWidth 8, recordFlags st, st.phase.code.setWidth 8, st.lastStatus.code.setWidth 8] ++
  st.activeKey.toList.flatMap be32 ++
  st.iv.toList.flatMap be32 ++
  st.tag.toList.flatMap be32 ++
  [BitVec.ofNat 8 st.wbuf.length] ++ zeroFill 3 st.wbuf ++
  be128 st.y ++ be128 st.x ++ be64 st.aadLen ++ be64 st.ctLen ++
  [BitVec.ofNat 8 st.hbuf.length] ++ zeroFill 15 st.hbuf ++
  [BitVec.ofNat 8 st.kpos.val]

/-- The record byte at an offset. -/
def recordByte (r : List Byte) (offset : Nat) : Byte := r.getD offset 0

/-- The `n` record bytes at an offset. -/
def recordField (r : List Byte) (offset n : Nat) : List Byte := (r.drop offset).take n

/-- The `n` words at an offset, 4 bytes each. -/
def recordWords (r : List Byte) (n offset : Nat) : Vector Word n :=
  padWords n ((List.range n).map (fun j => wordOf (recordField r (offset + 4 * j) 4)))

/-- A bit of the record's flags byte. -/
def recordFlag (r : List Byte) (k : Nat) : Bool := (recordByte r 33).getLsbD k

/-- The fields of a record (R348), those it leaves out 0 until `rederive` (R351). Codes that are no phase or key length do
not occur in a valid record. -/
def recordEngine (r : List Byte) : Engine where
  key := recordWords r 8 0
  keyLen := (KeyLen.ofCode (recordByte r 32).toNat).getD .unset
  activeKey := recordWords r 8 36
  rk := padWords 60 []
  keyLoaded := recordFlag r 0
  keyZeroed := recordFlag r 1
  h := 0
  j0 := 0
  ej0 := 0
  y := blockOf (recordField r 104 16)
  x := blockOf (recordField r 120 16)
  aadLen := BitVec.ofNat 64 (beNat (recordField r 136 8))
  ctLen := BitVec.ofNat 64 (beNat (recordField r 144 8))
  hbuf := recordField r 153 (recordByte r 152).toNat
  ks := 0
  kpos := Fin.ofNat 17 (recordByte r 168).toNat
  msgKeyValid := recordFlag r 5
  phase := (Phase.ofCode (recordByte r 34).toNat).getD .idle
  encrypt := recordFlag r 2
  iv := recordWords r 4 68
  tag := recordWords r 4 84
  wbuf := recordField r 101 (recordByte r 100).toNat
  tagOk := recordFlag r 3
  done := recordFlag r 4
  lastStatus := .ok

/-- Conditions 1 to 6 of `valid(r)` (R350): codes, lengths and fill bytes. A RESTORE record has its 169 bytes (R112, log 13). -/
def recordFormValid (r : List Byte) : Bool :=
  let wlen := (recordByte r 100).toNat
  let hlen := (recordByte r 152).toNat
  r.length == recordLength
    && decide ((recordByte r 32).toNat ≤ 3)
    && !recordFlag r 6 && !recordFlag r 7
    && decide ((recordByte r 34).toNat ≤ 10)
    && decide ((recordByte r 35).toNat ≤ 4)
    && decide (wlen ≤ 3) && decide (hlen ≤ 15) && decide ((recordByte r 168).toNat ≤ 16)
    && (recordField r (101 + wlen) (3 - wlen)).all (· == 0)
    && (recordField r (153 + hlen) (15 - hlen)).all (· == 0)

/-- Conditions 7 to 12 of `valid(r)` (R350), on the fields the record holds. -/
def recordFieldsValid (st : Engine) : Bool :=
  (!st.keyZeroed || !st.keyLoaded)
    && (!st.keyLoaded || st.keyLen != .unset)
    && (!st.keyLoaded || (st.activeKey.toList.drop st.keyLen.nk).all (· == 0))
    && (!st.msgKeyValid || st.keyLoaded)
    && (!st.encrypt || !st.phase.isTag)
    && (st.phase != .idle || st.wbuf.isEmpty)

/-- `valid(r)` (R350). -/
def recordValid (r : List Byte) : Bool := recordFormValid r && recordFieldsValid (recordEngine r)

/-- The schedule part of `rederive()` (R351). -/
def rederiveSchedule (st : Engine) : Engine :=
  { st with rk := if st.keyLoaded then expandKey st.activeKey st.keyLen else padWords 60 [] }

/-- The message part of `rederive()` (R351). -/
def rederiveMessage (st : Engine) : Engine :=
  if st.msgKeyValid then
    { st with
      h := encryptE st 0
      j0 := counterBlock0 st.iv
      ej0 := encryptE st (counterBlock0 st.iv)
      ks := if st.kpos.val < 16 then encryptE st st.y else 0 }
  else { st with h := 0, j0 := 0, ej0 := 0, ks := 0 }

/-- `rederive()` (R351). -/
def rederive (st : Engine) : Engine := rederiveMessage (rederiveSchedule st)

end Sys2Proof.Machine
end

