-- ==== Sys2Proof/Machine/Control.lean ====
section
/-! DEFINITION. The control operations RESET, READ_STATUS, SNAPSHOT and RESTORE (46_control.md). -/

namespace Sys2Proof.Machine

/-- RESET (R340, R341): every field of `st` at its reset value, KEY_ZEROED at the parameter's. The parameter and the
commands the host has already issued are not state of the core (10_state.md R55) and stay. -/
def execReset (s : State) : Host.Outcome State Fault Refusal :=
  finish s (Engine.reset s.keyZeroedAtReset) (statusResponse .ok)

/-- READ_STATUS (R343): no state is written, not even LAST_STATUS. -/
def execReadStatus (s : State) : Host.Outcome State Fault Refusal :=
  observe s (valueResponse (statusWord s.st))

/-- SNAPSHOT (R346): no state is written, not even LAST_STATUS. -/
def execSnapshot (s : State) : Host.Outcome State Fault Refusal :=
  observe s { status := .ok, out := [], value := 0, record := snapshotRecord s.st }

/-- RESTORE record (R349): the record is checked, then replaces the whole of `st`. -/
def execRestore (record : List Byte) (s : State) : Host.Outcome State Fault Refusal :=
  if recordValid record then finish s (rederive (recordEngine record)) (statusResponse .ok)
  else fail s .protocolViolation

end Sys2Proof.Machine
end

