-- ==== Sys2Proof/Machine/Operands.lean ====
section
/-! DEFINITION. The operand forms of the host operations: register indices, key lengths, and the byte stream of PUSH_DATA
with its last-word marker (30_encoding.md R114; 45_stream_processor.md R283, R292). -/

namespace Sys2Proof.Machine

/-- An INDEX operand as the number of one of `n` registers; none when it is out of range (44_key_store.md R250, R262;
45_stream_processor.md R315, R316). -/
def registerIndex (n : Nat) (index : BitVec 8) : Option (Fin n) :=
  if h : index.toNat < n then some ⟨index.toNat, h⟩ else none

/-- A BITS operand as a key length; none unless it is 128, 192 or 256 (44_key_store.md R252, R255). -/
def KeyLen.ofOperand (bits : BitVec 16) : Option KeyLen :=
  if bits = 128 then some .k128
  else if bits = 192 then some .k192
  else if bits = 256 then some .k256
  else none

/-- The marker check of 45_stream_processor.md R292: a marker must equal `|S| mod 4`; no marker is never refused. -/
def markerAgrees (lw : BitVec 2) (total : Nat) : Bool := lw == 0 || total % 4 == lw.toNat

/-- The full words of S, in order, and its last `|S| mod 4` bytes (R283). -/
def splitWords : List Byte → List (List Byte) × List Byte
  | b0 :: b1 :: b2 :: b3 :: rest =>
    let cut := splitWords rest
    ([b0, b1, b2, b3] :: cut.1, cut.2)
  | [] => ([], [])
  | [b0] => ([], [b0])
  | [b0, b1] => ([], [b0, b1])
  | [b0, b1, b2] => ([], [b0, b1, b2])

/-- The chunks of S that a call commits: its full words, and the tail too when the call carries a marker (R283). -/
def committedChunks (lw : BitVec 2) (s : List Byte) : List (List Byte) :=
  if lw = 0 then (splitWords s).1 else (splitWords s).1 ++ [(splitWords s).2]

/-- The bytes of S that a call leaves in WBUF: its tail, or nothing when the call carries a marker (R283, R294). -/
def uncommittedBytes (lw : BitVec 2) (s : List Byte) : List Byte :=
  if lw = 0 then (splitWords s).2 else []

end Sys2Proof.Machine
end

