-- ==== Sys2Proof/Machine/KeyStore.lean ====
section
/-! DEFINITION. The Key Store operations WRITE_KEY, LOAD_KEY, ZERO_KEY and READ_KEY (44_key_store.md). -/

namespace Sys2Proof.Machine

/-- The active key of a load: the leading Nk key words, the rest 0 (R252, R253). -/
def activeWords (key : Vector Word 8) (len : KeyLen) : Vector Word 8 :=
  padWords 8 (key.toList.take len.nk)

/-- What a successful LOAD_KEY leaves (R252, R253). -/
def loadedKey (len : KeyLen) (st : Engine) : Engine :=
  { st with
    activeKey := activeWords st.key len
    keyLen := len
    rk := expandKey (activeWords st.key len) len
    keyLoaded := true
    msgKeyValid := false }

/-- What an invalid length leaves: the key unloaded and nothing else changed (R255). -/
def unloadedKey (st : Engine) : Engine := { st with keyLoaded := false, msgKeyValid := false }

/-- What ZERO_KEY leaves (R258). -/
def zeroedKey (st : Engine) : Engine :=
  { st with
    key := Vector.replicate 8 0
    activeKey := Vector.replicate 8 0
    rk := Vector.replicate 60 0
    keyLen := .unset
    keyZeroed := true
    keyLoaded := false
    msgKeyValid := false }

/-- WRITE_KEY index, value (R250). -/
def execWriteKey (index : BitVec 8) (value : Word) (s : State) : Host.Outcome State Fault Refusal :=
  match registerIndex 8 index with
  | none => fail s .protocolViolation
  | some k =>
    finish s { s.st with key := s.st.key.set k.val value k.isLt, keyZeroed := false } (statusResponse .ok)

/-- LOAD_KEY bits (R252): the length check comes before the KEY_ZEROED check (R255). -/
def execLoadKey (bits : BitVec 16) (s : State) : Host.Outcome State Fault Refusal :=
  match KeyLen.ofOperand bits with
  | none => finish s (unloadedKey s.st) (statusResponse .invalidKeyLength)
  | some len =>
    if s.st.keyZeroed then fail s .keyNotLoaded
    else finish s (loadedKey len s.st) (statusResponse .ok)

/-- ZERO_KEY (R258): accepted in every phase, it cannot fail (R259). -/
def execZeroKey (s : State) : Host.Outcome State Fault Refusal :=
  finish s (zeroedKey s.st) (statusResponse .ok)

/-- READ_KEY index (R262): the key register, not ACTIVE_KEY. -/
def execReadKey (index : BitVec 8) (s : State) : Host.Outcome State Fault Refusal :=
  readRegister s s.st.key (registerIndex 8 index)

end Sys2Proof.Machine
end

