-- ==== Sys2Proof/Machine/Stream.lean ====
section
/-! DEFINITION. The Stream Processor operations START_MESSAGE, PUSH_DATA, END_AAD, END_PAYLOAD, READ_TAG and READ_IV, and
the phase machine (45_stream_processor.md). -/

namespace Sys2Proof.Machine

/-- What START_MESSAGE leaves: every message field reset, the key store unchanged (R282). -/
def startedMessage (enc : Bool) (st : Engine) : Engine :=
  { st with
    phase := .iv 0
    encrypt := enc
    iv := Vector.replicate 4 0
    tag := Vector.replicate 4 0
    wbuf := []
    h := 0
    j0 := 0
    ej0 := 0
    y := 0
    x := 0
    aadLen := 0
    ctLen := 0
    hbuf := []
    ks := 0
    kpos := 16
    msgKeyValid := false
    done := false
    tagOk := false }

/-! ## PUSH_DATA -/

/-- The working copy of a PUSH_DATA call: the copy `s` of the state, and `out`, `status` and `done` (R295). -/
structure Push where
  /-- The copy of the record. -/
  st : Engine
  /-- The output so far. -/
  out : List Byte
  /-- The status so far. -/
  status : Status
  /-- Whether the call has completed the message. -/
  done : Bool
deriving DecidableEq, Repr

/-- A committed chunk as a quota word: a short one is left-justified and zero-filled (R285, R289, R300). -/
def chunkWord (c : List Byte) : Word := wordOf (zeroFill 4 c)

/-- `commit_iv(k, c)` (R285). -/
def commitIv (k : Fin 4) (c : List Byte) (p : Push) : Except Status Push :=
  let st := { p.st with iv := p.st.iv.set k.val (chunkWord c) k.isLt }
  if k.val < 3 then .ok { p with st := { st with phase := .iv (k + 1) } }
  else if st.keyLoaded then .ok { p with st := { gcmBegin st with phase := .aad } }
  else .error .keyNotLoaded

/-- `finish_decrypt()` (R304, R305): the full 128-bit comparison, a mismatch being non-fatal. -/
def finishDecrypt (p : Push) : Push :=
  let f := gcmFinish p.st
  let matched := f.2 == wordsBlock p.st.tag
  { st := { f.1 with tagOk := matched, phase := .idle }
    out := p.out
    status := if matched then .ok else .authenticationFailed
    done := true }

/-- `commit_tag(k, c)` (R289). -/
def commitTag (k : Fin 4) (c : List Byte) (p : Push) : Push :=
  let st := { p.st with tag := p.st.tag.set k.val (chunkWord c) k.isLt }
  if k.val < 3 then { p with st := { st with phase := .tag (k + 1) } }
  else finishDecrypt { p with st := st }

/-- Committing one chunk to the phase current at its turn (R283, R285 to R289). -/
def commitChunk (p : Push) (c : List Byte) : Except Status Push :=
  match p.st.phase with
  | .idle => .error .protocolViolation
  | .iv k => commitIv k c p
  | .aad => .ok { p with st := gcmAad c p.st }
  | .payload => .ok { p with st := (gcmPayload c p.st).1, out := p.out ++ (gcmPayload c p.st).2 }
  | .tag k => .ok (commitTag k c p)

/-- Committing the chunks of a call in order; the first failure fails the call (R295). -/
def commitChunks (chunks : List (List Byte)) (p : Push) : Except Status Push :=
  chunks.foldlM commitChunk p

/-- The end of a call (R295): bytes left after the message has completed fail it (R296), else the tail goes to WBUF and DONE
says whether the call completed the message (R294, R297). -/
def closePush (rest : List Byte) (p : Push) : Except Status Push :=
  if rest ≠ [] ∧ p.st.phase = .idle then .error .protocolViolation
  else .ok { p with st := { p.st with wbuf := rest, done := p.done } }

/-- The checks of PUSH_DATA on entry, in order: the phase (R291), the marker (R292) and the key (R293). -/
def pushEntryCheck (lw : BitVec 2) (data : List Byte) (st : Engine) : Status :=
  if st.phase = .idle then .protocolViolation
  else if !markerAgrees lw (st.wbuf ++ data).length then .protocolViolation
  else if st.phase.usesKey then keyCheck st
  else .ok

/-- PUSH_DATA on the record, all or nothing (R295, R298). -/
def pushData (lw : BitVec 2) (data : List Byte) (st : Engine) : Except Status Push :=
  if pushEntryCheck lw data st ≠ .ok then .error (pushEntryCheck lw data st)
  else
    (commitChunks (committedChunks lw (st.wbuf ++ data)) { st := st, out := [], status := .ok, done := false }).bind
      (closePush (uncommittedBytes lw (st.wbuf ++ data)))

/-! ## END_AAD and END_PAYLOAD -/

/-- The checks of END_AAD and END_PAYLOAD, in order: the phase, WBUF and the key (R307, R308, R310, R311). -/
def endCheck (phase : Phase) (st : Engine) : Status :=
  if st.phase ≠ phase then .protocolViolation
  else if st.wbuf ≠ [] then .protocolViolation
  else keyCheck st

/-- What END_AAD leaves (R307). -/
def aadClosed (st : Engine) : Engine :=
  { gcmCloseHash st with phase := .payload, done := false }

/-- `finish_encrypt()` (R312). -/
def finishEncrypt (st : Engine) : Engine :=
  { (gcmFinish st).1 with tag := blockWords (gcmFinish st).2, phase := .idle, done := true }

/-- What END_PAYLOAD leaves, by mode (R310, R312, R313). -/
def payloadClosed (st : Engine) : Engine :=
  if st.encrypt then finishEncrypt st else { st with phase := .tag 0, done := false }

/-! ## The operations -/

/-- START_MESSAGE enc (R282): always OK, it needs no key and abandons an open message (R317). -/
def execStartMessage (enc : Bool) (s : State) : Host.Outcome State Fault Refusal :=
  finish s (startedMessage enc s.st) (statusResponse .ok)

/-- PUSH_DATA data, lw (R290, R295, R297). -/
def execPushData (lw : BitVec 2) (data : List Byte) (s : State) : Host.Outcome State Fault Refusal :=
  match pushData lw data s.st with
  | .error status => fail s status
  | .ok p => finish s p.st { status := p.status, out := p.out, value := 0, record := [] }

/-- END_AAD (R307). -/
def execEndAad (s : State) : Host.Outcome State Fault Refusal :=
  if endCheck .aad s.st ≠ .ok then fail s (endCheck .aad s.st)
  else finish s (aadClosed s.st) (statusResponse .ok)

/-- END_PAYLOAD (R310). -/
def execEndPayload (s : State) : Host.Outcome State Fault Refusal :=
  if endCheck .payload s.st ≠ .ok then fail s (endCheck .payload s.st)
  else finish s (payloadClosed s.st) (statusResponse .ok)

/-- READ_TAG index (R315). -/
def execReadTag (index : BitVec 8) (s : State) : Host.Outcome State Fault Refusal :=
  readRegister s s.st.tag (registerIndex 4 index)

/-- READ_IV index (R316). -/
def execReadIv (index : BitVec 8) (s : State) : Host.Outcome State Fault Refusal :=
  readRegister s s.st.iv (registerIndex 4 index)

end Sys2Proof.Machine
end

