-- ==== Sys2Proof/Machine/Dispatch.lean ====
section
/-! DEFINITION. One arm per host operation, each a direct call of its meaning. -/

namespace Sys2Proof.Machine

open Sys2Proof

def exec (i : Instr) (s : State) : Host.Outcome State Fault Refusal :=
  match i with
  -- 46_control.md
  | .reset => Sys2Proof.Machine.execReset s
  -- 44_key_store.md
  | .writeKey index value => Sys2Proof.Machine.execWriteKey index value s
  | .loadKey bits => Sys2Proof.Machine.execLoadKey bits s
  | .zeroKey => Sys2Proof.Machine.execZeroKey s
  -- 45_stream_processor.md
  | .startMessage enc => Sys2Proof.Machine.execStartMessage enc s
  | .pushData lw data => Sys2Proof.Machine.execPushData lw data s
  | .endAad => Sys2Proof.Machine.execEndAad s
  | .endPayload => Sys2Proof.Machine.execEndPayload s
  -- 46_control.md, 44_key_store.md, 45_stream_processor.md: the reads
  | .readStatus => Sys2Proof.Machine.execReadStatus s
  | .readKey index => Sys2Proof.Machine.execReadKey index s
  | .readTag index => Sys2Proof.Machine.execReadTag index s
  | .readIv index => Sys2Proof.Machine.execReadIv index s
  -- 46_control.md
  | .snapshot => Sys2Proof.Machine.execSnapshot s
  | .restore record => Sys2Proof.Machine.execRestore record s

end Sys2Proof.Machine
end

