-- ==== Sys2Proof/Decode.lean ====
section
/-! DEFINITION. The command encoding of 30_encoding.md, both ways. A command is a 32-bit header, then operand words and data
bytes as its format says (R111, R112); on the command stream every word stands big-endian (20_memory.md R82, log 1).
`decode` is total on any bytes and names what it rejects; `encode` is written from the same tables. -/

namespace Sys2Proof

open Sys2Proof.Machine

/-- The command formats (30_encoding.md R112). -/
inductive Format where
  /-- Header only. -/
  | f0
  /-- INDEX in A. -/
  | fi
  /-- INDEX in A, one word VALUE. -/
  | fw
  /-- BITS in B. -/
  | fl
  /-- ENC in A[0]. -/
  | fe
  /-- LW in A[1:0], one word LEN, LEN data bytes. -/
  | fd
  /-- The 169-byte record. -/
  | fr
deriving DecidableEq, Repr

/-- The rows of the opcode map (30_encoding.md R113). -/
inductive Op where
  | reset | writeKey | loadKey | zeroKey | startMessage | pushData | endAad | endPayload
  | readStatus | readKey | readTag | readIv | snapshot | restore
deriving DecidableEq, Repr

/-- Every row of the opcode map, in its order. -/
def Op.all : List Op :=
  [.reset, .writeKey, .loadKey, .zeroKey, .startMessage, .pushData, .endAad, .endPayload,
   .readStatus, .readKey, .readTag, .readIv, .snapshot, .restore]

/-- The OP byte of a row (R113). -/
def Op.code : Op → BitVec 8
  | .reset => 0x00
  | .writeKey => 0x01
  | .loadKey => 0x02
  | .zeroKey => 0x03
  | .startMessage => 0x04
  | .pushData => 0x05
  | .endAad => 0x06
  | .endPayload => 0x07
  | .readStatus => 0x08
  | .readKey => 0x09
  | .readTag => 0x0A
  | .readIv => 0x0B
  | .snapshot => 0x0C
  | .restore => 0x0D

/-- The format of a row (R113). -/
def Op.format : Op → Format
  | .reset => .f0
  | .writeKey => .fw
  | .loadKey => .fl
  | .zeroKey => .f0
  | .startMessage => .fe
  | .pushData => .fd
  | .endAad => .f0
  | .endPayload => .f0
  | .readStatus => .f0
  | .readKey => .fi
  | .readTag => .fi
  | .readIv => .fi
  | .snapshot => .f0
  | .restore => .fr

/-- The row an OP byte names; none for the unassigned 0x0E to 0xFF (R113, R116). -/
def Op.ofCode (c : BitVec 8) : Option Op := Op.all.find? (fun op => op.code == c)

/-- The mask of a format: OP and every reserved header bit (R113). -/
def Format.mask : Format → Word
  | .f0 => 0xFFFFFFFF
  | .fi => 0xFFFF00FF
  | .fw => 0xFFFF00FF
  | .fl => 0x0000FFFF
  | .fe => 0xFFFFFEFF
  | .fd => 0xFFFFFCFF
  | .fr => 0xFFFFFFFF

/-- The header field OP, bits 7:0 (R111). -/
def headerOp (h : Word) : BitVec 8 := h.extractLsb' 0 8

/-- The header field A, bits 15:8 (R111). -/
def headerA (h : Word) : BitVec 8 := h.extractLsb' 8 8

/-- The header field B, bits 31:16 (R111). -/
def headerB (h : Word) : BitVec 16 := h.extractLsb' 16 16

/-- Whether every bit the format marks reserved is 0 (R112, R115): in every row, match is OP (R113). -/
def reservedZero (op : Op) (h : Word) : Bool := h &&& op.format.mask == op.code.setWidth 32

/-- The next big-endian word of the stream. -/
def takeWord : List Byte → Option (Word × List Byte)
  | b0 :: b1 :: b2 :: b3 :: rest => some (word b0 b1 b2 b3, rest)
  | _ => none

/-- The next `n` bytes of the stream. -/
def takeBytes (n : Nat) (bs : List Byte) : Option (List Byte × List Byte) :=
  if n ≤ bs.length then some (bs.take n, bs.drop n) else none

/-- The operand word, the data bytes and what follows them, by format (R112); none where the stream ends first (R117). -/
def takeOperands : Format → List Byte → Option (Word × List Byte × List Byte)
  | .f0, bs => some (0, [], bs)
  | .fi, bs => some (0, [], bs)
  | .fw, bs => (takeWord bs).map (fun (value, rest) => (value, [], rest))
  | .fl, bs => some (0, [], bs)
  | .fe, bs => some (0, [], bs)
  | .fd, bs => (takeWord bs).bind (fun (len, rest) =>
      (takeBytes len.toNat rest).map (fun (data, rest) => (len, data, rest)))
  | .fr, bs => (takeBytes recordLength bs).map (fun (record, rest) => (0, record, rest))

/-- Operand assembly (R114): nothing is scaled, shifted or sign-extended. -/
def Op.instr (op : Op) (h value : Word) (data : List Byte) : Instr :=
  match op with
  | .reset => .reset
  | .writeKey => .writeKey (headerA h) value
  | .loadKey => .loadKey (headerB h)
  | .zeroKey => .zeroKey
  | .startMessage => .startMessage (h.getLsbD 8)
  | .pushData => .pushData (h.extractLsb' 8 2) data
  | .endAad => .endAad
  | .endPayload => .endPayload
  | .readStatus => .readStatus
  | .readKey => .readKey (headerA h)
  | .readTag => .readTag (headerA h)
  | .readIv => .readIv (headerA h)
  | .snapshot => .snapshot
  | .restore => .restore data

/-- What the front of the command stream holds. `rest` is the stream after that command. -/
inductive Decoded where
  /-- A host operation. -/
  | command (i : Instr) (rest : List Byte)
  /-- A header with a 1 in a reserved bit (R115); its length is its format's (92_eei_decisions.md D40). -/
  | reservedBits (rest : List Byte)
  /-- An opcode 0x0E to 0xFF (R116), one word long. -/
  | unassignedOpcode (rest : List Byte)
  /-- The stream ends inside a command (R117). -/
  | truncated
  /-- The stream is empty: the host has issued nothing. -/
  | noCommand
deriving DecidableEq, Repr

/-- Reads the first command of the stream. -/
def decode (bs : List Byte) : Decoded :=
  match bs with
  | [] => .noCommand
  | b :: bs' =>
    match takeWord (b :: bs') with
    | none => .truncated
    | some (h, rest) =>
      match Op.ofCode (headerOp h) with
      | none => .unassignedOpcode rest
      | some op =>
        match takeOperands op.format rest with
        | none => .truncated
        | some (value, data, rest) =>
          if reservedZero op h then .command (op.instr h value data) rest else .reservedBits rest

/-! ## Encoding -/

/-- The row of an instruction. -/
def Instr.op : Instr → Op
  | .reset => .reset
  | .writeKey _ _ => .writeKey
  | .loadKey _ => .loadKey
  | .zeroKey => .zeroKey
  | .startMessage _ => .startMessage
  | .pushData _ _ => .pushData
  | .endAad => .endAad
  | .endPayload => .endPayload
  | .readStatus => .readStatus
  | .readKey _ => .readKey
  | .readTag _ => .readTag
  | .readIv _ => .readIv
  | .snapshot => .snapshot
  | .restore _ => .restore

/-- A header from its fields (R111). -/
def header (op : Op) (a : BitVec 8) (b : BitVec 16) : Word := b ++ a ++ op.code

/-- The header word of an instruction (R112 to R114), reserved fields 0. -/
def Instr.header : Instr → Word
  | .reset => Sys2Proof.header .reset 0 0
  | .writeKey index _ => Sys2Proof.header .writeKey index 0
  | .loadKey bits => Sys2Proof.header .loadKey 0 bits
  | .zeroKey => Sys2Proof.header .zeroKey 0 0
  | .startMessage enc => Sys2Proof.header .startMessage ((BitVec.ofBool enc).setWidth 8) 0
  | .pushData lw _ => Sys2Proof.header .pushData (lw.setWidth 8) 0
  | .endAad => Sys2Proof.header .endAad 0 0
  | .endPayload => Sys2Proof.header .endPayload 0 0
  | .readStatus => Sys2Proof.header .readStatus 0 0
  | .readKey index => Sys2Proof.header .readKey index 0
  | .readTag index => Sys2Proof.header .readTag index 0
  | .readIv index => Sys2Proof.header .readIv index 0
  | .snapshot => Sys2Proof.header .snapshot 0 0
  | .restore _ => Sys2Proof.header .restore 0 0

/-- What follows the header (R112): the operand word VALUE or LEN, then the data bytes. -/
def Instr.operandBytes : Instr → List Byte
  | .reset => []
  | .writeKey _ value => be32 value
  | .loadKey _ => []
  | .zeroKey => []
  | .startMessage _ => []
  | .pushData _ data => be32 (BitVec.ofNat 32 data.length) ++ data
  | .endAad => []
  | .endPayload => []
  | .readStatus => []
  | .readKey _ => []
  | .readTag _ => []
  | .readIv _ => []
  | .snapshot => []
  | .restore record => record

/-- The bytes of an instruction on the command stream. -/
def encode (i : Instr) : List Byte := be32 i.header ++ i.operandBytes

/-! ## The opcode table's numbering -/

/-- `n` bytes, byte `k` from bits `8k+7 : 8k` of `v`. -/
def tableData : Nat → Nat → List Byte
  | 0, _ => []
  | n + 1, v => BitVec.ofNat 8 v :: tableData n (v / 256)

/-- The command whose bits, numbered as spec/opcode_table.json numbers them, are the low `nbits` bits of `w`: the header is
bits 31:0, an operand word bits 63:32, and the data bytes count on from there, one byte after the other (log 14). -/
def tableBytes (nbits w : Nat) : List Byte :=
  let v := w % 2 ^ nbits
  let h : Word := BitVec.ofNat 32 v
  let second : Word := BitVec.ofNat 32 (v / 2 ^ 32)
  be32 h ++
    match Op.ofCode (headerOp h) with
    | none => []
    | some op =>
      match op.format with
      | .f0 => []
      | .fi => []
      | .fw => be32 second
      | .fl => []
      | .fe => []
      | .fd => be32 second ++ tableData second.toNat (v / 2 ^ 64)
      | .fr => tableData recordLength (v / 2 ^ 32)

/-- The instruction the decoder reads from a row's bits. -/
def decodeTableWord (nbits w : Nat) : Option Instr :=
  match decode (tableBytes nbits w) with
  | .command i _ => some i
  | .reservedBits _ => none
  | .unassignedOpcode _ => none
  | .truncated => none
  | .noCommand => none

end Sys2Proof
end

