-- ==== Sys2Proof/Machine/Fetch.lean ====
section
/-! DEFINITION. Taking the next command from the host's command stream (30_encoding.md R111, R112, log 1). -/

namespace Sys2Proof.Machine

/-- What the next step runs. -/
inductive Fetched where
  /-- The instruction `i`, on the state whose stream has moved past it. -/
  | command (i : Instr) (s : State)
  /-- A malformed or unassigned header, on the state whose stream has moved past it (R115, R116). -/
  | rejected (s : State)
  /-- A command cut short (R117). -/
  | truncated
  /-- No command has been issued. -/
  | nothing
deriving DecidableEq, Repr

/-- Reads the first command of the stream and moves past it. -/
def fetch (s : State) : Fetched :=
  match decode s.input with
  | .command i rest => .command i { s with input := rest }
  | .reservedBits rest => .rejected { s with input := rest }
  | .unassignedOpcode rest => .rejected { s with input := rest }
  | .truncated => .truncated
  | .noCommand => .nothing

/-- A state with a command at the front of its stream. -/
def issue (bytes : List Byte) (s : State) : State := { s with input := bytes ++ s.input }

end Sys2Proof.Machine
end

