-- ==== Sys2Proof/Machine/Step.lean ====
section
/-! DEFINITION. One step of the machine: the core runs the next command the host has issued, whole (20_memory.md R90, R95). -/

namespace Sys2Proof.Machine

/-- One step. An issued command runs as its operation; a malformed or unassigned header ends with ProtocolViolation
(30_encoding.md R115, R116); with no command issued nothing happens (60_exceptions.md R382, log 4); a command cut short
never reaches the core (30_encoding.md R117, log 5). -/
def step (s : State) : Host.Outcome State Fault Refusal :=
  match fetch s with
  | .command i s' => exec i s'
  | .rejected s' => rejectCommand s'
  | .truncated => .refused .truncatedCommand
  | .nothing => .next s

/-- `s` with the opcode-table word `w` at the front of the command stream, so that the next step runs it (logs 7, 14). -/
def State.withFetchWord (s : State) (nbits w : Nat) : State := issue (tableBytes nbits w) s

end Sys2Proof.Machine
end

