-- ==== Sys2Proof/Safety.lean ====
section
/-! DEFINITION. The terms the claims use: the invariant of the reachable states, what two states must share to behave alike
(46_control.md R352), and the standard GCM computation a message is compared with (42_ghash.md R195, 43_gcm_context.md
R220, R227). -/

namespace Sys2Proof.Machine

/-! ## The invariant -/

/-- The record holds the derived values of the message key: H, J0, EJ0 and, while keystream bytes remain, KS
(46_control.md R351, "the values are exact"). -/
structure Engine.DerivedExact (st : Engine) : Prop where
  /-- H = E(0^128). -/
  h_eq : st.h = encryptE st 0
  /-- J0 is the counter block of the IV words. -/
  j0_eq : st.j0 = counterBlock0 st.iv
  /-- EJ0 = E(J0). -/
  ej0_eq : st.ej0 = encryptE st (counterBlock0 st.iv)
  /-- KS = E(Y) while KPOS < 16. -/
  ks_eq : st.kpos ≠ 16 → st.ks = encryptE st st.y

/-- The invariants the spec states for the reachable states (10_state.md R36, R42, R44, R46, R49) and what keeps them:
the unused active key words are 0 (44_key_store.md R253), and in a phase past the IV words the derived values of a valid
message key are exact. -/
structure Engine.Inv (st : Engine) : Prop where
  /-- KEY_ZEROED → ¬KEY_LOADED (R36). -/
  zeroed_unloaded : st.keyZeroed = true → st.keyLoaded = false
  /-- KEY_LOADED → KEY_LEN ∈ {128, 192, 256} (R36). -/
  loaded_len : st.keyLoaded = true → st.keyLen ≠ .unset
  /-- KEY_LOADED → RK = expand_key(ACTIVE_KEY, KEY_LEN) (R36). -/
  loaded_schedule : st.keyLoaded = true → st.rk = expandKey st.activeKey st.keyLen
  /-- KEY_LOADED → ACTIVE_KEY[j] = 0 for j ≥ KEY_LEN/32 (44_key_store.md R253). -/
  loaded_rest : st.keyLoaded = true → ∀ w ∈ st.activeKey.toList.drop st.keyLen.nk, w = 0
  /-- MSG_KEY_VALID → KEY_LOADED (R44). -/
  valid_loaded : st.msgKeyValid = true → st.keyLoaded = true
  /-- ENCRYPT → PHASE ∉ TAG0 to TAG3 (R46). -/
  encrypt_not_tag : st.encrypt = true → st.phase.isTag = false
  /-- PHASE = IDLE → WBUF = [] (R49). -/
  idle_wbuf : st.phase = .idle → st.wbuf = []
  /-- WBUF holds 0 to 3 bytes (R49). -/
  wbuf_length : st.wbuf.length ≤ 3
  /-- HBUF holds 0 to 15 bytes (R42). -/
  hbuf_length : st.hbuf.length ≤ 15
  /-- MSG_KEY_VALID past the IV phases → the derived values are exact (46_control.md R351). -/
  derived_exact : st.msgKeyValid = true → st.phase.isIv = false → st.DerivedExact

/-- The invariant of the machine. -/
def State.Inv (s : State) : Prop := s.st.Inv

/-! ## Resuming -/

/-- What a restored state shares with the state its record was taken from (46_control.md R352): every persisted field but
LAST_STATUS, and every derived field a later operation can read. -/
structure Engine.Resumes (a b : Engine) : Prop where
  /-- Every persisted field but LAST_STATUS. -/
  persisted : { a with rk := b.rk, h := b.h, j0 := b.j0, ej0 := b.ej0, ks := b.ks, lastStatus := b.lastStatus } = b
  /-- The schedule, while a key is loaded. -/
  rk_eq : a.keyLoaded = true → a.rk = b.rk
  /-- H, while the message key is valid past the IV phases. -/
  h_eq : a.msgKeyValid = true → a.phase.isIv = false → a.h = b.h
  /-- J0, likewise. -/
  j0_eq : a.msgKeyValid = true → a.phase.isIv = false → a.j0 = b.j0
  /-- EJ0, likewise. -/
  ej0_eq : a.msgKeyValid = true → a.phase.isIv = false → a.ej0 = b.ej0
  /-- KS, likewise, while keystream bytes remain. -/
  ks_eq : a.msgKeyValid = true → a.phase.isIv = false → a.kpos ≠ 16 → a.ks = b.ks

/-- An operation that writes LAST_STATUS: every one but READ_STATUS and SNAPSHOT (10_state.md R54). -/
def writesStatus (i : Instr) : Bool := i != .readStatus && i != .snapshot

/-! ## The cut of a push -/

/-- How a PUSH_DATA call cuts the assembled stream `s` into the bytes `c` it commits and the bytes `rest` it leaves in WBUF
(45_stream_processor.md R283): without a marker whole words are committed and 0 to 3 bytes stay; with a marker, which must
equal `|s| mod 4` (R292), everything is committed. -/
def Cuts (lw : BitVec 2) (s c rest : List Byte) : Prop :=
  s = c ++ rest ∧
    ((lw = 0 ∧ c.length % 4 = 0 ∧ rest.length < 4) ∨ (lw ≠ 0 ∧ s.length % 4 = lw.toNat ∧ rest = []))

/-- A machine with other key material: the key registers, the active key, its length and the schedule. -/
def State.withKeyMaterial (s : State) (key activeKey : Vector Word 8) (keyLen : KeyLen) (rk : Vector Word 60) : State :=
  { s with st := { s.st with key := key, activeKey := activeKey, keyLen := keyLen, rk := rk } }

/-! ## The bytes of the cipher state -/

/-- Column `c` of the cipher state (41_block_cipher.md R146). -/
def stateColumn (s : CipherState) (c : Fin 4) : Word := #v[s.c0, s.c1, s.c2, s.c3][c]

/-- `s[r][c]`, the byte in row `r` and column `c` of the cipher state (41_block_cipher.md R146). -/
def stateByte (s : CipherState) (r c : Fin 4) : Byte := wordByte (stateColumn s c) r.val

/-! ## Standard GCM -/

/-- A byte string with zero bytes up to a multiple of 16 (42_ghash.md R195). -/
def padBlocks (bs : List Byte) : List Byte := bs ++ List.replicate ((16 - bs.length % 16) % 16) 0

/-- The GHASH fold over the first `n` blocks of a byte string, from the accumulator `x` (R194, R195). -/
def ghashBlocks (h : Block) : Nat → List Byte → Block → Block
  | 0, _, x => x
  | n + 1, bs, x => ghashBlocks h n (bs.drop 16) (gf128Mul (x ^^^ blockOf (bs.take 16)) h)

/-- `GHASH_H(S)` of a string of whole blocks (R195). -/
def ghash (h : Block) (bs : List Byte) : Block := ghashBlocks h (bs.length / 16) bs 0

/-- The string whose GHASH authenticates a message: padded AAD, padded ciphertext, the two bit lengths (R195). -/
def ghashInput (aad ct : List Byte) : List Byte :=
  padBlocks aad ++ padBlocks ct ++ be64 (BitVec.ofNat 64 (8 * aad.length)) ++ be64 (BitVec.ofNat 64 (8 * ct.length))

/-- Byte `i` of the keystream: payload block k is XORed with `E(inc32^(k+1)(J0))` (43_gcm_context.md R220). -/
def keystreamByte (cipher : Block → Block) (j0 : Block) (i : Nat) : Byte :=
  blockByte (cipher (inc32^[i / 16 + 1] j0)) (i % 16)

/-- `I ⊕ KS_stream` (R227). -/
def counterMode (cipher : Block → Block) (j0 : Block) (bs : List Byte) : List Byte :=
  bs.mapIdx (fun i b => b ^^^ keystreamByte cipher j0 i)

/-- The GCM tag `EJ0 ⊕ GHASH_H(…)` of AAD and ciphertext (R227). -/
def gcmTag (cipher : Block → Block) (j0 : Block) (aad ct : List Byte) : Block :=
  cipher j0 ^^^ ghash (cipher 0) (ghashInput aad ct)

/-- Runs host operations in order, keeping the outputs in order; none where one of them does not answer a next state. -/
def runOps : List Instr → State → Option (State × List Byte)
  | [], s => some (s, [])
  | i :: is, s =>
    match exec i s with
    | .next t => (runOps is t).map (fun (u, out) => (u, t.response.out ++ out))
    | .fault _ => none
    | .refused _ => none

end Sys2Proof.Machine
end

