-- ==== Sys2Proof/Certificates/Slice0/Obligations.lean ====
section
/-! DEFINITION. The statements for the provers, from the numbered rules of spec/. Each docstring names the rule or the
sentence it formalises. -/

open Sys2Proof Sys2Proof.Machine

/-! ## Encoding and the step (30_encoding.md) -/

/-- R111 to R114: what the encoder writes, the decoder reads, with every operand at every value the encoding admits. The
order of a word's bytes on the stream is the model's reading of 20_memory.md R82 (log 1), here and in every statement of
this section. -/
def Obligations.DecodeInvertsEncode : Prop :=
  ∀ (i : Instr) (rest : List Byte), i.wellFormed = true → decode (encode i ++ rest) = .command i rest

/-- R111 to R115: a command the decoder accepts is the encoding of the instruction it answers, and no other. -/
def Obligations.EncodeInvertsDecode : Prop :=
  ∀ (bs rest : List Byte) (i : Instr),
    decode bs = .command i rest → i.wellFormed = true ∧ bs = encode i ++ rest

/-- The encoding examples of R122, byte by byte. -/
def Obligations.HeaderExamplesDecode : Prop :=
  decode [0x00, 0x00, 0x03, 0x01, 0xFE, 0xFF, 0xE9, 0x92] = .command (.writeKey 3 0xFEFFE992) [] ∧
  decode [0x01, 0x00, 0x00, 0x02] = .command (.loadKey 256) [] ∧
  decode [0x00, 0x64, 0x00, 0x02] = .command (.loadKey 100) [] ∧
  decode [0x00, 0x00, 0x01, 0x04] = .command (.startMessage true) [] ∧
  decode [0x00, 0x00, 0x00, 0x04] = .command (.startMessage false) [] ∧
  decode [0x00, 0x00, 0x01, 0x05, 0x00, 0x00, 0x00, 0x05, 0x01, 0x02, 0x03, 0x04, 0x05] =
    .command (.pushData 1 [0x01, 0x02, 0x03, 0x04, 0x05]) [] ∧
  decode [0x00, 0x00, 0x02, 0x0A] = .command (.readTag 2) [] ∧
  decode [0x00, 0x00, 0x04, 0x06] = .reservedBits []

/-- R116: an opcode 0x0E to 0xFF ends with ProtocolViolation, is one word long and writes only LAST_STATUS. -/
def Obligations.UnassignedOpcodesRejected : Prop :=
  ∀ (s : State) (h : Word) (rest : List Byte),
    0x0E ≤ (headerOp h).toNat → s.input = be32 h ++ rest →
      step s = .next { s with
        st := { s.st with lastStatus := .protocolViolation }
        input := rest
        response := ⟨.protocolViolation, [], 0, []⟩ }

/-- R115: a 1 in a bit the format marks reserved (R112) ends with ProtocolViolation and writes only LAST_STATUS. The command
is as long as its format says, operands included (92_eei_decisions.md D40). -/
def Obligations.ReservedBitsRejected : Prop :=
  ∀ (s : State) (op : Op) (h value : Word) (data operands rest : List Byte),
    headerOp h = op.code →
    h &&& (match op.format with
      | .f0 => 0xFFFFFF00
      | .fi => 0xFFFF0000
      | .fw => 0xFFFF0000
      | .fl => 0x0000FF00
      | .fe => 0xFFFFFE00
      | .fd => 0xFFFFFC00
      | .fr => 0xFFFFFF00) ≠ 0 →
    takeOperands op.format operands = some (value, data, rest) →
    s.input = be32 h ++ operands →
      step s = .next { s with
        st := { s.st with lastStatus := .protocolViolation }
        input := rest
        response := ⟨.protocolViolation, [], 0, []⟩ }

/-- R117: a command cut short anywhere after its first byte is refused by name and the core does nothing. -/
def Obligations.TruncatedCommandRefused : Prop :=
  ∀ (s : State) (i : Instr) (n : Nat),
    i.wellFormed = true → 0 < n → n < (encode i).length → s.input = (encode i).take n →
      step s = .refused .truncatedCommand

/-- A step runs the decoded command: when the stream holds the encoding of a well-formed instruction, or decodes to one,
the step is `exec` of it on the state whose stream has moved past it. Nothing else is added around `exec`. -/
def Obligations.StepRunsDecodedCommand : Prop :=
  ∀ (s : State) (i : Instr) (rest : List Byte),
    decode s.input = .command i rest → step s = exec i { s with input := rest }

/-- 60_exceptions.md R382, "Nothing happens between operations": with no command issued the state stays as it is. That this
is a step at all is the model's choice (log 4). -/
def Obligations.NothingHappensBetweenOperations : Prop :=
  ∀ s : State, s.input = [] → step s = .next s

/-! ## All operations (20_memory.md, 60_exceptions.md) -/

/-- 20_memory.md R99, "Every operation has a result in every state, so a model of the core never gets stuck". -/
def Obligations.EveryOperationHasAResult : Prop :=
  ∀ (i : Instr) (s : State), ∃ t, exec i s = .next t

/-- R376: a fatal status leaves everything unchanged but LAST_STATUS, which receives the code, and the response carries an
empty out and a value of 0; InvalidKeyLength also clears KEY_LOADED and MSG_KEY_VALID; and any operation may follow. -/
def Obligations.FatalStatusWritesOnlyLastStatus : Prop :=
  ∀ (i : Instr) (s t : State), exec i s = .next t → t.response.status.fatal = true →
    (t.response.status ≠ .invalidKeyLength →
      t = { s with
        st := { s.st with lastStatus := t.response.status }
        response := ⟨t.response.status, [], 0, []⟩ }) ∧
    (t.response.status = .invalidKeyLength →
      t = { s with
        st := { s.st with keyLoaded := false, msgKeyValid := false, lastStatus := .invalidKeyLength }
        response := ⟨.invalidKeyLength, [], 0, []⟩ }) ∧
    ∀ j : Instr, ∃ u, exec j t = .next u

/-- 10_state.md R54: LAST_STATUS is written, with the operation's own status, by every operation but READ_STATUS and
SNAPSHOT, and these two write no state at all. -/
def Obligations.LastStatusRecordsTheStatus : Prop :=
  ∀ (i : Instr) (s t : State), exec i s = .next t →
    (writesStatus i = true → t.st.lastStatus = t.response.status) ∧
    (writesStatus i = false → t.st = s.st)

/-- 10_state.md R55, "No operation writes any of them": the parameter KEY_ZEROED_AT_RESET and the host's operation sequence.
That they stand in State is the model's choice (logs 1 and 3). -/
def Obligations.ParametersAreNeverWritten : Prop :=
  ∀ (i : Instr) (s t : State), exec i s = .next t →
    t.keyZeroedAtReset = s.keyZeroedAtReset ∧ t.input = s.input

/-- 10_state.md R31 to R51, the lines that say which operations write a field: for every field of `st` but LAST_STATUS
(which `LastStatusRecordsTheStatus` is about), the field keeps its value unless the operation is one of those listed. -/
def Obligations.FieldsKeepTheirWriters : Prop :=
  ∀ (i : Instr) (s t : State), exec i s = .next t →
    i ≠ .reset → (∀ r, i ≠ .restore r) →
      ((∀ k v, i ≠ .writeKey k v) → i ≠ .zeroKey → t.st.key = s.st.key ∧ t.st.keyZeroed = s.st.keyZeroed) ∧
      ((∀ b, i ≠ .loadKey b) → i ≠ .zeroKey →
        t.st.keyLen = s.st.keyLen ∧ t.st.activeKey = s.st.activeKey ∧ t.st.rk = s.st.rk ∧
        t.st.keyLoaded = s.st.keyLoaded) ∧
      ((∀ b, i ≠ .loadKey b) → i ≠ .zeroKey → (∀ e, i ≠ .startMessage e) → (∀ l d, i ≠ .pushData l d) →
        t.st.msgKeyValid = s.st.msgKeyValid) ∧
      ((∀ e, i ≠ .startMessage e) → t.st.encrypt = s.st.encrypt) ∧
      ((∀ e, i ≠ .startMessage e) → (∀ l d, i ≠ .pushData l d) →
        t.st.iv = s.st.iv ∧ t.st.wbuf = s.st.wbuf ∧ t.st.tagOk = s.st.tagOk ∧
        t.st.h = s.st.h ∧ t.st.j0 = s.st.j0 ∧ t.st.ej0 = s.st.ej0 ∧ t.st.y = s.st.y ∧
        t.st.aadLen = s.st.aadLen ∧ t.st.ctLen = s.st.ctLen ∧ t.st.ks = s.st.ks ∧ t.st.kpos = s.st.kpos) ∧
      ((∀ e, i ≠ .startMessage e) → (∀ l d, i ≠ .pushData l d) → i ≠ .endPayload → t.st.tag = s.st.tag) ∧
      ((∀ e, i ≠ .startMessage e) → (∀ l d, i ≠ .pushData l d) → i ≠ .endAad → i ≠ .endPayload →
        t.st.phase = s.st.phase ∧ t.st.done = s.st.done ∧ t.st.x = s.st.x ∧ t.st.hbuf = s.st.hbuf)

/-! ## Key store (44_key_store.md) -/

/-- R250: WRITE_KEY. -/
def Obligations.WriteKeyResult : Prop :=
  (Op.code .writeKey = 0x01 ∧ Op.format .writeKey = .fw ∧
    ∀ (h value : Word) (data : List Byte), Op.instr .writeKey h value data = .writeKey (h.extractLsb' 8 8) value) ∧
  ∀ (index : BitVec 8) (value : Word) (s : State),
    (∀ h : index.toNat < 8, exec (.writeKey index value) s = .next { s with
      st := { s.st with key := s.st.key.set index.toNat value h, keyZeroed := false, lastStatus := .ok }
      response := ⟨.ok, [], 0, []⟩ }) ∧
    (8 ≤ index.toNat → exec (.writeKey index value) s = .next { s with
      st := { s.st with lastStatus := .protocolViolation }
      response := ⟨.protocolViolation, [], 0, []⟩ })

/-- R252, R255: LOAD_KEY, with a valid length, after a wipe (R254) and with any other length. -/
def Obligations.LoadKeyResult : Prop :=
  (Op.code .loadKey = 0x02 ∧ Op.format .loadKey = .fl ∧
    ∀ (h value : Word) (data : List Byte), Op.instr .loadKey h value data = .loadKey (h.extractLsb' 16 16)) ∧
  ∀ (bits : BitVec 16) (s : State),
    (bits ≠ 128 → bits ≠ 192 → bits ≠ 256 → exec (.loadKey bits) s = .next { s with
      st := { s.st with keyLoaded := false, msgKeyValid := false, lastStatus := .invalidKeyLength }
      response := ⟨.invalidKeyLength, [], 0, []⟩ }) ∧
    (∀ len : KeyLen, len ≠ .unset → bits.toNat = len.bits →
      (s.st.keyZeroed = true → exec (.loadKey bits) s = .next { s with
        st := { s.st with lastStatus := .keyNotLoaded }
        response := ⟨.keyNotLoaded, [], 0, []⟩ }) ∧
      (s.st.keyZeroed = false →
        let active : Vector Word 8 := Vector.ofFn (fun j => if j.val < bits.toNat / 32 then s.st.key[j] else 0)
        exec (.loadKey bits) s = .next { s with
          st := { s.st with
            activeKey := active
            keyLen := len
            rk := expandKey active len
            keyLoaded := true
            msgKeyValid := false
            lastStatus := .ok }
          response := ⟨.ok, [], 0, []⟩ }))

/-- 41_block_cipher.md R155: the words of `expand_key`. -/
def Obligations.ExpandKeyRecurrence : Prop :=
  ∀ (key : Vector Word 8) (len : KeyLen), len ≠ .unset →
    let w : Nat → Word := fun i => (expandKey key len).toList.getD i 0
    (∀ i, i < len.nk → w i = key.toList.getD i 0) ∧
    (∀ i, len.nk ≤ i → i < 4 * (len.nr + 1) →
      w i = w (i - len.nk) ^^^
        (if i % len.nk = 0 then subWord (rotWord (w (i - 1))) ^^^ rcon (i / len.nk)
         else if len.nk = 8 ∧ i % len.nk = 4 then subWord (w (i - 1))
         else w (i - 1))) ∧
    (∀ i, 4 * (len.nr + 1) ≤ i → i < 60 → w i = 0)

/-- R258: ZERO_KEY. -/
def Obligations.ZeroKeyResult : Prop :=
  (Op.code .zeroKey = 0x03 ∧ Op.format .zeroKey = .f0 ∧
    ∀ (h value : Word) (data : List Byte), Op.instr .zeroKey h value data = .zeroKey) ∧
  ∀ s : State, exec .zeroKey s = .next { s with
    st := { s.st with
      key := Vector.replicate 8 0
      activeKey := Vector.replicate 8 0
      rk := Vector.replicate 60 0
      keyLen := .unset
      keyZeroed := true
      keyLoaded := false
      msgKeyValid := false
      lastStatus := .ok }
    response := ⟨.ok, [], 0, []⟩ }

/-- R262: READ_KEY reads the key register in every state. -/
def Obligations.ReadKeyResult : Prop :=
  (Op.code .readKey = 0x09 ∧ Op.format .readKey = .fi ∧
    ∀ (h value : Word) (data : List Byte), Op.instr .readKey h value data = .readKey (h.extractLsb' 8 8)) ∧
  ∀ (index : BitVec 8) (s : State),
    (∀ h : index.toNat < 8, exec (.readKey index) s = .next { s with
      st := { s.st with lastStatus := .ok }
      response := ⟨.ok, [], s.st.key[index.toNat], []⟩ }) ∧
    (8 ≤ index.toNat → exec (.readKey index) s = .next { s with
      st := { s.st with lastStatus := .protocolViolation }
      response := ⟨.protocolViolation, [], 0, []⟩ })

/-- R260 and R254: after ZERO_KEY every key register reads 0 and a LOAD_KEY with a valid length ends with KeyNotLoaded. -/
def Obligations.WipedKeyReadsZero : Prop :=
  ∀ s : State, ∃ t, exec .zeroKey s = .next t ∧
    (∀ index : BitVec 8, index.toNat < 8 → ∃ u, exec (.readKey index) t = .next u ∧
      u.response = ⟨.ok, [], 0, []⟩) ∧
    (∀ len : KeyLen, len ≠ .unset → ∃ u, exec (.loadKey (BitVec.ofNat 16 len.bits)) t = .next u ∧
      u.response = ⟨.keyNotLoaded, [], 0, []⟩ ∧ u.st.keyLoaded = false)

/-- R261, the key use guarantee: while no key is loaded, no stream operation depends on key material. It answers the same,
and leaves the same, whatever the key registers, the active key, its length and the schedule hold. -/
def Obligations.UnloadedKeyIsNeverUsed : Prop :=
  ∀ (i : Instr) (s t : State) (key activeKey : Vector Word 8) (keyLen : KeyLen) (rk : Vector Word 60),
    s.Inv → s.st.keyLoaded = false →
    ((∃ e, i = .startMessage e) ∨ (∃ l d, i = .pushData l d) ∨ i = .endAad ∨ i = .endPayload) →
    exec i s = .next t →
      exec i (s.withKeyMaterial key activeKey keyLen rk) = .next (t.withKeyMaterial key activeKey keyLen rk)

/-! ## Stream processor (45_stream_processor.md) -/

/-- R282: START_MESSAGE, and that ENCRYPT is then fixed until the next START_MESSAGE, RESET or RESTORE. -/
def Obligations.StartMessageResult : Prop :=
  (Op.code .startMessage = 0x04 ∧ Op.format .startMessage = .fe ∧
    ∀ (h value : Word) (data : List Byte), Op.instr .startMessage h value data = .startMessage (h.getLsbD 8)) ∧
  (∀ (enc : Bool) (s : State), exec (.startMessage enc) s = .next { s with
    st := { s.st with
      phase := .iv 0
      encrypt := enc
      iv := Vector.replicate 4 0
      tag := Vector.replicate 4 0
      wbuf := []
      h := 0
      j0 := 0
      ej0 := 0
      y := 0
      x := 0
      aadLen := 0
      ctLen := 0
      hbuf := []
      ks := 0
      kpos := 16
      msgKeyValid := false
      done := false
      tagOk := false
      lastStatus := .ok }
    response := ⟨.ok, [], 0, []⟩ }) ∧
  ∀ (i : Instr) (s t : State), exec i s = .next t →
    (∀ enc, i ≠ .startMessage enc) → i ≠ .reset → (∀ r, i ≠ .restore r) → t.st.encrypt = s.st.encrypt

/-- R284: the outcomes of `key_check`, by its definition and by the cause that made MSG_KEY_VALID false. -/
def Obligations.KeyCheckOutcomes : Prop :=
  (∀ st : Engine,
    keyCheck st = if st.msgKeyValid then .ok else if st.keyZeroed then .protocolViolation
      else if !st.keyLoaded then .keyNotLoaded else .protocolViolation) ∧
  ∀ s : State,
    (∃ t, exec .zeroKey s = .next t ∧ keyCheck t.st = .protocolViolation ∧
      ∀ index value, index.toNat < 8 →
        ∃ u, exec (.writeKey index value) t = .next u ∧ keyCheck u.st = .keyNotLoaded) ∧
    (s.st.keyZeroed = false →
      (∀ bits : BitVec 16, bits ≠ 128 → bits ≠ 192 → bits ≠ 256 →
        ∃ t, exec (.loadKey bits) s = .next t ∧ keyCheck t.st = .keyNotLoaded) ∧
      (∀ len : KeyLen, len ≠ .unset →
        ∃ t, exec (.loadKey (BitVec.ofNat 16 len.bits)) s = .next t ∧ keyCheck t.st = .protocolViolation))

/-- R291: a push with no message is refused, whatever LEN and the marker are. -/
def Obligations.PushInIdleRefused : Prop :=
  ∀ (lw : BitVec 2) (data : List Byte) (s : State), s.st.phase = .idle →
    exec (.pushData lw data) s = .next { s with
      st := { s.st with lastStatus := .protocolViolation }
      response := ⟨.protocolViolation, [], 0, []⟩ }

/-- R292: a marker that is not `(|WBUF| + LEN) mod 4` is refused; a call with no marker is not, by this check. The marker LW
is the header field A[1:0], the opcode is 0x05 and the format FD (R113, R114). -/
def Obligations.PushMarkerChecked : Prop :=
  (Op.code .pushData = 0x05 ∧ Op.format .pushData = .fd ∧
    ∀ (h value : Word) (data : List Byte),
      Op.instr .pushData h value data = .pushData (h.extractLsb' 8 2) data) ∧
  (∀ (lw : BitVec 2) (data : List Byte) (s : State),
    lw ≠ 0 → (s.st.wbuf.length + data.length) % 4 ≠ lw.toNat →
      exec (.pushData lw data) s = .next { s with
        st := { s.st with lastStatus := .protocolViolation }
        response := ⟨.protocolViolation, [], 0, []⟩ }) ∧
  (∀ (data : List Byte) (st : Engine), st.phase ≠ .idle → (st.phase.usesKey = true → keyCheck st = .ok) →
    pushEntryCheck 0 data st = .ok)

/-- R293: a push that starts in AAD, PAYLOAD or a TAG phase fails with the status of `key_check`, LEN = 0 included; one that
starts in an IV phase is not checked on entry. R294, R299: in every phase but IDLE a call that passes this check, has no
marker and does not complete a word, LEN = 0 included, answers OK, keeps its bytes in WBUF and clears DONE. -/
def Obligations.PushChecksTheKeyOnEntry : Prop :=
  (∀ (lw : BitVec 2) (data : List Byte) (s : State),
    s.st.phase.usesKey = true → keyCheck s.st ≠ .ok →
    (lw ≠ 0 → (s.st.wbuf.length + data.length) % 4 = lw.toNat) →
      exec (.pushData lw data) s = .next { s with
        st := { s.st with lastStatus := keyCheck s.st }
        response := ⟨keyCheck s.st, [], 0, []⟩ }) ∧
  (∀ (data : List Byte) (s : State), s.st.phase ≠ .idle → (s.st.phase.usesKey = true → keyCheck s.st = .ok) →
    (s.st.wbuf ++ data).length < 4 →
    exec (.pushData 0 data) s = .next { s with
      st := { s.st with wbuf := s.st.wbuf ++ data, done := false, lastStatus := .ok }
      response := ⟨.ok, [], 0, []⟩ })

/-- R285, R300, R212, R213: a call that commits one word in phase IVk. At IV3 it begins the GCM context under the loaded key,
or fails with KeyNotLoaded and keeps nothing. -/
def Obligations.PushIvWord : Prop :=
  ∀ (lw : BitVec 2) (data c rest : List Byte) (k : Fin 4) (s : State),
    s.st.phase = .iv k → Cuts lw (s.st.wbuf ++ data) c rest → 0 < c.length → c.length ≤ 4 →
    let iv : Vector Word 4 := s.st.iv.set k.val (wordOf (c ++ List.replicate (4 - c.length) 0)) k.isLt
    let j0 : Block := iv[0] ++ iv[1] ++ iv[2] ++ 1#32
    (k.val < 3 → exec (.pushData lw data) s = .next { s with
      st := { s.st with iv := iv, phase := .iv (k + 1), wbuf := rest, done := false, lastStatus := .ok }
      response := ⟨.ok, [], 0, []⟩ }) ∧
    (k = 3 → s.st.keyLoaded = true → exec (.pushData lw data) s = .next { s with
      st := { s.st with
        iv := iv
        h := encryptBlock s.st.rk s.st.keyLen.nr 0
        j0 := j0
        ej0 := encryptBlock s.st.rk s.st.keyLen.nr j0
        y := j0
        x := 0
        aadLen := 0
        ctLen := 0
        hbuf := []
        ks := 0
        kpos := 16
        msgKeyValid := true
        phase := .aad
        wbuf := rest
        done := false
        lastStatus := .ok }
      response := ⟨.ok, [], 0, []⟩ }) ∧
    (k = 3 → s.st.keyLoaded = false → exec (.pushData lw data) s = .next { s with
      st := { s.st with lastStatus := .keyNotLoaded }
      response := ⟨.keyNotLoaded, [], 0, []⟩ })

/-- R285, R298, R373: a call that starts in phase IVk with no key loaded and reaches the IV3 commit, so that it commits at
least 4 - k words, fails with KeyNotLoaded and keeps nothing, however many words it carries. -/
def Obligations.PushReachingIv3NeedsAKey : Prop :=
  ∀ (lw : BitVec 2) (data : List Byte) (k : Fin 4) (s : State),
    s.st.phase = .iv k → s.st.keyLoaded = false →
    (lw ≠ 0 → (s.st.wbuf.length + data.length) % 4 = lw.toNat) →
    4 - k.val ≤ (s.st.wbuf.length + data.length) / 4 + (if lw = 0 then 0 else 1) →
      exec (.pushData lw data) s = .next { s with
        st := { s.st with lastStatus := .keyNotLoaded }
        response := ⟨.keyNotLoaded, [], 0, []⟩ }

/-- R286: in phase AAD the committed bytes go to `gcm_aad` in arrival order; the phase stays and there is no output. -/
def Obligations.PushAad : Prop :=
  ∀ (lw : BitVec 2) (data c rest : List Byte) (s : State),
    s.st.phase = .aad → s.st.msgKeyValid = true → Cuts lw (s.st.wbuf ++ data) c rest →
      exec (.pushData lw data) s = .next { s with
        st := { gcmAad c s.st with phase := .aad, wbuf := rest, done := false, lastStatus := .ok }
        response := ⟨.ok, [], 0, []⟩ }

/-- R287: in phase PAYLOAD the committed bytes go to `gcm_payload` in arrival order and its bytes, as many, are the output;
the phase stays. -/
def Obligations.PushPayload : Prop :=
  ∀ (lw : BitVec 2) (data c rest : List Byte) (s : State),
    s.st.phase = .payload → s.st.msgKeyValid = true → Cuts lw (s.st.wbuf ++ data) c rest →
      (gcmPayload c s.st).2.length = c.length ∧
      exec (.pushData lw data) s = .next { s with
        st := { (gcmPayload c s.st).1 with phase := .payload, wbuf := rest, done := false, lastStatus := .ok }
        response := ⟨.ok, (gcmPayload c s.st).2, 0, []⟩ }

/-- R289, R304, R305: a call that commits one word of the expected tag. At TAG3 the computed tag is compared over all 128
bits; a mismatch is reported, and the message completes all the same. -/
def Obligations.PushTagWord : Prop :=
  ∀ (lw : BitVec 2) (data c rest : List Byte) (k : Fin 4) (s : State),
    s.st.phase = .tag k → s.st.msgKeyValid = true →
    Cuts lw (s.st.wbuf ++ data) c rest → 0 < c.length → c.length ≤ 4 →
    let tag : Vector Word 4 := s.st.tag.set k.val (wordOf (c ++ List.replicate (4 - c.length) 0)) k.isLt
    let expected : Block := tag[0] ++ tag[1] ++ tag[2] ++ tag[3]
    (k.val < 3 → exec (.pushData lw data) s = .next { s with
      st := { s.st with tag := tag, phase := .tag (k + 1), wbuf := rest, done := false, lastStatus := .ok }
      response := ⟨.ok, [], 0, []⟩ }) ∧
    (k = 3 → rest = [] →
      let status : Status := if (gcmFinish s.st).2 = expected then .ok else .authenticationFailed
      exec (.pushData lw data) s = .next { s with
        st := { (gcmFinish s.st).1 with
          tag := tag
          tagOk := decide ((gcmFinish s.st).2 = expected)
          phase := .idle
          wbuf := []
          done := true
          lastStatus := status }
        response := ⟨status, [], 0, []⟩ })

/-- R288, R296: in a TAG phase, bytes beyond the message's last tag word fail the whole call, which has no effect. -/
def Obligations.PushPastTheTagRefused : Prop :=
  ∀ (lw : BitVec 2) (data : List Byte) (k : Fin 4) (s : State),
    s.st.phase = .tag k → s.st.msgKeyValid = true →
    (lw ≠ 0 → (s.st.wbuf.length + data.length) % 4 = lw.toNat) →
    4 * (4 - k.val) < s.st.wbuf.length + data.length →
      exec (.pushData lw data) s = .next { s with
        st := { s.st with lastStatus := .protocolViolation }
        response := ⟨.protocolViolation, [], 0, []⟩ }

/-- R301, fragmentation invariance: two pushes in a row, the first without a marker, give what one push of their bytes
gives: the same record, the same output, the same status. -/
def Obligations.TwoPushesAreOne : Prop :=
  ∀ (lw : BitVec 2) (d1 d2 : List Byte) (s t u : State),
    exec (.pushData 0 d1) s = .next t → t.response.status.fatal = false →
    exec (.pushData lw d2) t = .next u → u.response.status.fatal = false →
      exec (.pushData lw (d1 ++ d2)) s =
        .next { u with response := { u.response with out := t.response.out ++ u.response.out } }

/-- R280, R299, R302: the moves a PUSH_DATA makes in the phase machine. In AAD and PAYLOAD it never changes the phase. -/
def Obligations.PushMovesThroughThePhases : Prop :=
  ∀ (lw : BitVec 2) (data : List Byte) (s t : State), exec (.pushData lw data) s = .next t →
    t.st.phase = s.st.phase ∨
    (∃ k, s.st.phase = .iv k ∧ (t.st.phase = .aad ∨ ∃ k', k < k' ∧ t.st.phase = .iv k')) ∨
    (∃ k, s.st.phase = .tag k ∧ (t.st.phase = .idle ∨ ∃ k', k < k' ∧ t.st.phase = .tag k'))

/-- 10_state.md R51, 60_exceptions.md R381: DONE is true after exactly the operations that complete a message and false after
every other successful stream operation; a failed operation, and every operation of another kind but RESET and RESTORE,
leaves it. -/
def Obligations.DoneMarksCompletion : Prop :=
  ∀ (i : Instr) (s t : State), exec i s = .next t →
    (t.response.status.fatal = true → t.st.done = s.st.done) ∧
    (t.response.status.fatal = false →
      (∀ lw data, i = .pushData lw data → (t.st.done = true ↔ t.st.phase = .idle)) ∧
      (i = .endAad → t.st.done = false) ∧
      (i = .endPayload → t.st.done = s.st.encrypt ∧ (t.st.done = true ↔ t.st.phase = .idle)) ∧
      ((∃ e, i = .startMessage e) ∨ i = .reset → t.st.done = false)) ∧
    ((∀ lw data, i ≠ .pushData lw data) → i ≠ .endAad → i ≠ .endPayload → (∀ e, i ≠ .startMessage e) → i ≠ .reset →
      (∀ r, i ≠ .restore r) → t.st.done = s.st.done)

/-- R307, R308: END_AAD, with its checks in order. -/
def Obligations.EndAadResult : Prop :=
  (Op.code .endAad = 0x06 ∧ Op.format .endAad = .f0 ∧
    ∀ (h value : Word) (data : List Byte), Op.instr .endAad h value data = .endAad) ∧
  ∀ s : State,
    (s.st.phase = .aad → s.st.wbuf = [] → s.st.msgKeyValid = true → exec .endAad s = .next { s with
      st := { (if s.st.hbuf = [] then s.st else { s.st with
          x := gf128Mul (s.st.x ^^^ blockOf (s.st.hbuf ++ List.replicate (16 - s.st.hbuf.length) 0)) s.st.h
          hbuf := [] }) with
        phase := .payload
        done := false
        lastStatus := .ok }
      response := ⟨.ok, [], 0, []⟩ }) ∧
    (s.st.phase ≠ .aad ∨ s.st.wbuf ≠ [] → exec .endAad s = .next { s with
      st := { s.st with lastStatus := .protocolViolation }
      response := ⟨.protocolViolation, [], 0, []⟩ }) ∧
    (s.st.phase = .aad → s.st.wbuf = [] → s.st.msgKeyValid = false → exec .endAad s = .next { s with
      st := { s.st with lastStatus := keyCheck s.st }
      response := ⟨keyCheck s.st, [], 0, []⟩ })

/-- R310, R311, R312, R313: END_PAYLOAD, in both modes, with its checks in order. -/
def Obligations.EndPayloadResult : Prop :=
  (Op.code .endPayload = 0x07 ∧ Op.format .endPayload = .f0 ∧
    ∀ (h value : Word) (data : List Byte), Op.instr .endPayload h value data = .endPayload) ∧
  ∀ s : State,
    (s.st.phase = .payload → s.st.wbuf = [] → s.st.msgKeyValid = true → s.st.encrypt = true →
      let tag : Block := (gcmFinish s.st).2
      exec .endPayload s = .next { s with
        st := { (gcmFinish s.st).1 with
          tag := #v[tag.extractLsb' 96 32, tag.extractLsb' 64 32, tag.extractLsb' 32 32, tag.extractLsb' 0 32]
          phase := .idle
          done := true
          lastStatus := .ok }
        response := ⟨.ok, [], 0, []⟩ }) ∧
    (s.st.phase = .payload → s.st.wbuf = [] → s.st.msgKeyValid = true → s.st.encrypt = false →
      exec .endPayload s = .next { s with
        st := { s.st with phase := .tag 0, done := false, lastStatus := .ok }
        response := ⟨.ok, [], 0, []⟩ }) ∧
    (s.st.phase ≠ .payload ∨ s.st.wbuf ≠ [] → exec .endPayload s = .next { s with
      st := { s.st with lastStatus := .protocolViolation }
      response := ⟨.protocolViolation, [], 0, []⟩ }) ∧
    (s.st.phase = .payload → s.st.wbuf = [] → s.st.msgKeyValid = false → exec .endPayload s = .next { s with
      st := { s.st with lastStatus := keyCheck s.st }
      response := ⟨keyCheck s.st, [], 0, []⟩ })

/-- R315, R316: READ_TAG and READ_IV. -/
def Obligations.ReadTagAndIvResult : Prop :=
  (Op.code .readTag = 0x0A ∧ Op.format .readTag = .fi ∧
    ∀ (h value : Word) (data : List Byte), Op.instr .readTag h value data = .readTag (h.extractLsb' 8 8)) ∧
  (Op.code .readIv = 0x0B ∧ Op.format .readIv = .fi ∧
    ∀ (h value : Word) (data : List Byte), Op.instr .readIv h value data = .readIv (h.extractLsb' 8 8)) ∧
  ∀ (index : BitVec 8) (s : State),
    (∀ h : index.toNat < 4,
      exec (.readTag index) s = .next { s with
        st := { s.st with lastStatus := .ok }
        response := ⟨.ok, [], s.st.tag[index.toNat], []⟩ } ∧
      exec (.readIv index) s = .next { s with
        st := { s.st with lastStatus := .ok }
        response := ⟨.ok, [], s.st.iv[index.toNat], []⟩ }) ∧
    (4 ≤ index.toNat → ∀ i, i = .readTag index ∨ i = .readIv index → exec i s = .next { s with
      st := { s.st with lastStatus := .protocolViolation }
      response := ⟨.protocolViolation, [], 0, []⟩ })

/-! ## Control (46_control.md) -/

/-- R340, R341: RESET, field by field, with KEY_ZEROED at the parameter. -/
def Obligations.ResetResult : Prop :=
  (Op.code .reset = 0x00 ∧ Op.format .reset = .f0 ∧
    ∀ (h value : Word) (data : List Byte), Op.instr .reset h value data = .reset) ∧
  ∀ s : State, exec .reset s = .next { s with
    st :=
      { key := Vector.replicate 8 0, keyLen := .unset, activeKey := Vector.replicate 8 0, rk := Vector.replicate 60 0
        keyLoaded := false, keyZeroed := s.keyZeroedAtReset, h := 0, j0 := 0, ej0 := 0, y := 0, x := 0
        aadLen := 0, ctLen := 0, hbuf := [], ks := 0, kpos := 16, msgKeyValid := false, phase := .idle
        encrypt := false, iv := Vector.replicate 4 0, tag := Vector.replicate 4 0, wbuf := [], tagOk := false
        done := false, lastStatus := .ok }
    response := ⟨.ok, [], 0, []⟩ }

/-- 70_reset_and_hazards.md R410: the initial state is `reset_state(KEY_ZEROED_AT_RESET)`, the parameter's default being
false, and it is the state the RESET operation produces, whatever the parameter. -/
def Obligations.InitialStateIsTheResetState : Prop :=
  State.reset.st = Engine.reset State.reset.keyZeroedAtReset ∧ State.reset.keyZeroedAtReset = false ∧
  ∀ s : State, ∃ t, exec .reset s = .next t ∧ t.st = Engine.reset s.keyZeroedAtReset

/-- R343 and 10_state.md R58: READ_STATUS answers the status word, bit by bit, and writes no state. -/
def Obligations.ReadStatusResult : Prop :=
  (Op.code .readStatus = 0x08 ∧ Op.format .readStatus = .f0 ∧
    ∀ (h value : Word) (data : List Byte), Op.instr .readStatus h value data = .readStatus) ∧
  ∀ s : State, s.st.wbuf.length ≤ 3 → ∃ v : Word,
    exec .readStatus s = .next { s with response := ⟨.ok, [], v, []⟩ } ∧
    v.getLsbD 0 = false ∧
    v.getLsbD 1 = s.st.done ∧
    v.getLsbD 2 = s.st.tagOk ∧
    v.getLsbD 3 = s.st.keyLoaded ∧
    v.getLsbD 4 = s.st.keyZeroed ∧
    v.getLsbD 5 = decide (s.st.phase ≠ .idle) ∧
    v.getLsbD 6 = s.st.encrypt ∧
    v.getLsbD 7 = false ∧
    v.extractLsb' 8 4 = (match s.st.phase with
      | .idle => 0
      | .iv k => BitVec.ofNat 4 (1 + k.val)
      | .aad => 5
      | .payload => 6
      | .tag k => BitVec.ofNat 4 (7 + k.val)) ∧
    v.extractLsb' 12 2 = (match s.st.keyLen with
      | .unset => 0
      | .k128 => 1
      | .k192 => 2
      | .k256 => 3) ∧
    v.getLsbD 14 = s.st.msgKeyValid ∧
    v.getLsbD 15 = false ∧
    v.extractLsb' 16 3 = (match s.st.lastStatus with
      | .ok => 0
      | .invalidKeyLength => 1
      | .keyNotLoaded => 2
      | .authenticationFailed => 3
      | .protocolViolation => 4) ∧
    (v.extractLsb' 19 2).toNat = s.st.wbuf.length ∧
    v.extractLsb' 21 11 = 0

/-- R346, R348: SNAPSHOT answers the 169-byte record, field by field at its offset, and writes no state. -/
def Obligations.SnapshotResult : Prop :=
  (Op.code .snapshot = 0x0C ∧ Op.format .snapshot = .f0 ∧
    ∀ (h value : Word) (data : List Byte), Op.instr .snapshot h value data = .snapshot) ∧
  ∀ s : State, s.st.wbuf.length ≤ 3 → s.st.hbuf.length ≤ 15 → ∃ r : List Byte,
    exec .snapshot s = .next { s with response := ⟨.ok, [], 0, r⟩ } ∧
    r.length = 169 ∧
    (∀ j (hj : j < 8), (r.drop (4 * j)).take 4 = be32 s.st.key[j]) ∧
    r.getD 32 0 = s.st.keyLen.code.setWidth 8 ∧
    (r.getD 33 0).getLsbD 0 = s.st.keyLoaded ∧
    (r.getD 33 0).getLsbD 1 = s.st.keyZeroed ∧
    (r.getD 33 0).getLsbD 2 = s.st.encrypt ∧
    (r.getD 33 0).getLsbD 3 = s.st.tagOk ∧
    (r.getD 33 0).getLsbD 4 = s.st.done ∧
    (r.getD 33 0).getLsbD 5 = s.st.msgKeyValid ∧
    (r.getD 33 0).getLsbD 6 = false ∧
    (r.getD 33 0).getLsbD 7 = false ∧
    r.getD 34 0 = s.st.phase.code.setWidth 8 ∧
    r.getD 35 0 = s.st.lastStatus.code.setWidth 8 ∧
    (∀ j (hj : j < 8), (r.drop (36 + 4 * j)).take 4 = be32 s.st.activeKey[j]) ∧
    (∀ j (hj : j < 4), (r.drop (68 + 4 * j)).take 4 = be32 s.st.iv[j]) ∧
    (∀ j (hj : j < 4), (r.drop (84 + 4 * j)).take 4 = be32 s.st.tag[j]) ∧
    (r.getD 100 0).toNat = s.st.wbuf.length ∧
    (r.drop 101).take 3 = s.st.wbuf ++ List.replicate (3 - s.st.wbuf.length) 0 ∧
    (r.drop 104).take 16 = be128 s.st.y ∧
    (r.drop 120).take 16 = be128 s.st.x ∧
    (r.drop 136).take 8 = be64 s.st.aadLen ∧
    (r.drop 144).take 8 = be64 s.st.ctLen ∧
    (r.getD 152 0).toNat = s.st.hbuf.length ∧
    (r.drop 153).take 15 = s.st.hbuf ++ List.replicate (15 - s.st.hbuf.length) 0 ∧
    (r.getD 168 0).toNat = s.st.kpos.val

/-- R350: the twelve conditions of `valid(r)` on a 169-byte record. -/
def Obligations.RecordValidity : Prop :=
  ∀ r : List Byte, r.length = 169 →
    let byte : Nat → Nat := fun k => (r.getD k 0).toNat
    let flag : Nat → Bool := fun k => (r.getD 33 0).getLsbD k
    (recordValid r = true ↔
      byte 32 ≤ 3 ∧
      (flag 6 = false ∧ flag 7 = false) ∧
      byte 34 ≤ 10 ∧
      byte 35 ≤ 4 ∧
      (byte 100 ≤ 3 ∧ byte 152 ≤ 15 ∧ byte 168 ≤ 16) ∧
      ((∀ k, 101 + byte 100 ≤ k → k < 104 → byte k = 0) ∧ (∀ k, 153 + byte 152 ≤ k → k < 168 → byte k = 0)) ∧
      (flag 1 = true → flag 0 = false) ∧
      (flag 0 = true → byte 32 ≠ 0) ∧
      (flag 0 = true → ∀ k, 36 + 4 * (2 * (byte 32 + 1)) ≤ k → k < 68 → byte k = 0) ∧
      (flag 5 = true → flag 0 = true) ∧
      (flag 2 = true → byte 34 < 7) ∧
      (byte 34 = 0 → byte 100 = 0))

/-- R349, R350, R351: RESTORE. An invalid record is refused; a valid one replaces the whole of `st`, the fields it leaves out
are derived again, and LAST_STATUS is RESTORE's own. -/
def Obligations.RestoreResult : Prop :=
  (Op.code .restore = 0x0D ∧ Op.format .restore = .fr ∧
    ∀ (h value : Word) (data : List Byte), Op.instr .restore h value data = .restore data) ∧
  ∀ (r : List Byte) (s : State),
    (recordValid r = false → exec (.restore r) s = .next { s with
      st := { s.st with lastStatus := .protocolViolation }
      response := ⟨.protocolViolation, [], 0, []⟩ }) ∧
    (recordValid r = true → ∃ st : Engine,
      exec (.restore r) s = .next { s with st := st, response := ⟨.ok, [], 0, []⟩ } ∧
      st.lastStatus = .ok ∧
      snapshotRecord st = r.set 35 0 ∧
      st.rk = (if st.keyLoaded then expandKey st.activeKey st.keyLen else Vector.replicate 60 0) ∧
      (st.msgKeyValid = true →
        let j0 : Block := st.iv[0] ++ st.iv[1] ++ st.iv[2] ++ 1#32
        st.h = encryptBlock st.rk st.keyLen.nr 0 ∧ st.j0 = j0 ∧ st.ej0 = encryptBlock st.rk st.keyLen.nr j0 ∧
        st.ks = (if st.kpos.val < 16 then encryptBlock st.rk st.keyLen.nr st.y else 0)) ∧
      (st.msgKeyValid = false → st.h = 0 ∧ st.j0 = 0 ∧ st.ej0 = 0 ∧ st.ks = 0))

/-- R352: the record of a state that meets the invariant is valid, and restoring it, into any instance, gives that state in
every persisted field and every derived field a later operation can read, but for LAST_STATUS, which becomes OK. -/
def Obligations.RestoreUndoesSnapshot : Prop :=
  ∀ s s' : State, s.Inv → recordValid (snapshotRecord s.st) = true ∧
    ∃ t, exec (.restore (snapshotRecord s.st)) s' = .next t ∧
      t.response = ⟨.ok, [], 0, []⟩ ∧ t.st.lastStatus = .ok ∧ s.st.Resumes t.st

/-- R352, "every later operation sequence gives the same responses from both states": every operation keeps the relation a
restored state has to the state it was taken from, and answers the same. READ_STATUS and SNAPSHOT, which show LAST_STATUS,
answer the same once an operation that writes it has run. -/
def Obligations.ResumedStateAnswersAlike : Prop :=
  ∀ (i : Instr) (a b a' b' : State),
    a.Inv → b.Inv → a.st.Resumes b.st → a.keyZeroedAtReset = b.keyZeroedAtReset →
    exec i a = .next a' → exec i b = .next b' →
      a'.st.Resumes b'.st ∧
      (writesStatus i = true ∨ a.st.lastStatus = b.st.lastStatus →
        a'.response = b'.response ∧ a'.st.lastStatus = b'.st.lastStatus)

/-! ## The invariant (10_state.md R36, R44, R46, R49; 46_control.md R351) -/

/-- The invariants the spec states for every reachable state hold after every step from every state that meets them. -/
def Obligations.StepKeepsTheInvariant : Prop :=
  ∀ s t : State, s.Inv → step s = .next t → t.Inv

/-- The invariants hold right after reset, for either value of the parameter. -/
def Obligations.ResetMeetsTheInvariant : Prop :=
  State.reset.Inv ∧ ∀ z : Bool, (Engine.reset z).Inv

/-! ## Component functions (41_block_cipher.md, 42_ghash.md, 43_gcm_context.md) -/

/-- R145: every entry of the S-box table satisfies the formula; R143: `ginv8` is the inverse. -/
def Obligations.SboxIsItsFormula : Prop :=
  (∀ a : Byte, sbox a = ginv8 a ^^^ (ginv8 a).rotateLeft 1 ^^^ (ginv8 a).rotateLeft 2 ^^^ (ginv8 a).rotateLeft 3 ^^^
    (ginv8 a).rotateLeft 4 ^^^ 0x63) ∧
  ginv8 0 = 0 ∧ ∀ a : Byte, a ≠ 0 → gmul8 a (ginv8 a) = 1

/-- R161: for a fixed schedule the output of `encrypt_block` is a bijection of its input. -/
def Obligations.EncryptBlockBijective : Prop :=
  ∀ (rk : Vector Word 60) (nr : Nat), Function.Bijective (encryptBlock rk nr)

/-- R146 to R150: loading, unloading and the four round transformations, on the bytes `s[r][c]` of the cipher state. -/
def Obligations.RoundTransformations : Prop :=
  (∀ (b : Block) (r c : Fin 4), stateByte (loadState b) r c = blockByte b (r.val + 4 * c.val)) ∧
  ∀ (s : CipherState) (rk : Vector Word 60) (r c : Fin 4),
    let a : Fin 4 → Byte := fun i => stateByte s i c
    blockByte (unloadState s) (r.val + 4 * c.val) = stateByte s r c ∧
    stateByte (subBytes s) r c = sbox (stateByte s r c) ∧
    stateByte (shiftRows s) r c = stateByte s r (c + r) ∧
    (stateByte (mixColumns s) 0 c = gmul8 2 (a 0) ^^^ gmul8 3 (a 1) ^^^ a 2 ^^^ a 3 ∧
      stateByte (mixColumns s) 1 c = a 0 ^^^ gmul8 2 (a 1) ^^^ gmul8 3 (a 2) ^^^ a 3 ∧
      stateByte (mixColumns s) 2 c = a 0 ^^^ a 1 ^^^ gmul8 2 (a 2) ^^^ gmul8 3 (a 3) ∧
      stateByte (mixColumns s) 3 c = gmul8 3 (a 0) ^^^ a 1 ^^^ a 2 ^^^ gmul8 2 (a 3) ∧
      gmul8 2 (a r) = xtime (a r) ∧ gmul8 3 (a r) = xtime (a r) ^^^ a r) ∧
    ∀ rnd (h : 4 * rnd + c.val < 60),
      stateByte (addRoundKey rk s rnd) r c = stateByte s r c ^^^ wordByte rk[4 * rnd + c.val] r.val

/-- R160, on the bytes of the block: with `s n` the cipher state after round `n` (R146), `encrypt_block` adds the first round
key to the block, each middle round substitutes, shifts, mixes and adds (R147 to R150), and the last one does not mix. -/
def Obligations.EncryptBlockRounds : Prop :=
  ∀ (rk : Vector Word 60) (nr : Nat) (b : Block), nr = 10 ∨ nr = 12 ∨ nr = 14 →
    let key : Nat → Fin 4 → Fin 4 → Byte := fun n r c => wordByte (rk.toList.getD (4 * n + c.val) 0) r.val
    ∃ s : Nat → Fin 4 → Fin 4 → Byte,
      (∀ r c, s 0 r c = blockByte b (r.val + 4 * c.val) ^^^ key 0 r c) ∧
      (∀ n, n + 1 < nr → ∀ c,
        let a : Fin 4 → Byte := fun r => sbox (s n r (c + r))
        s (n + 1) 0 c = gmul8 2 (a 0) ^^^ gmul8 3 (a 1) ^^^ a 2 ^^^ a 3 ^^^ key (n + 1) 0 c ∧
        s (n + 1) 1 c = a 0 ^^^ gmul8 2 (a 1) ^^^ gmul8 3 (a 2) ^^^ a 3 ^^^ key (n + 1) 1 c ∧
        s (n + 1) 2 c = a 0 ^^^ a 1 ^^^ gmul8 2 (a 2) ^^^ gmul8 3 (a 3) ^^^ key (n + 1) 2 c ∧
        s (n + 1) 3 c = gmul8 3 (a 0) ^^^ a 1 ^^^ a 2 ^^^ gmul8 2 (a 3) ^^^ key (n + 1) 3 c) ∧
      ∀ r c, blockByte (encryptBlock rk nr b) (r.val + 4 * c.val) = sbox (s (nr - 1) r (c + r)) ^^^ key nr r c

/-- R192: `gf128_mul` distributes over exclusive-or on both sides, has 2^127 as its one and 0 as its zero, and multiplies
powers of x as the reduction polynomial says. -/
def Obligations.Gf128MulIsBilinear : Prop :=
  (∀ x y z : Block, gf128Mul (x ^^^ y) z = gf128Mul x z ^^^ gf128Mul y z) ∧
  (∀ x y z : Block, gf128Mul x (y ^^^ z) = gf128Mul x y ^^^ gf128Mul x z) ∧
  (∀ x : Block, gf128Mul x (1#128 <<< 127) = x ∧ gf128Mul (1#128 <<< 127) x = x ∧ gf128Mul x 0 = 0 ∧ gf128Mul 0 x = 0) ∧
  gf128Mul (1#128 <<< 126) (1#128 <<< 126) = 1#128 <<< 125 ∧
  gf128Mul 1 (1#128 <<< 126) = 0xE1000000000000000000000000000000

/-- R192: `gf128_mul` is commutative and associative. -/
def Obligations.Gf128MulCommutesAndAssociates : Prop :=
  (∀ x y : Block, gf128Mul x y = gf128Mul y x) ∧
  (∀ x y z : Block, gf128Mul (gf128Mul x y) z = gf128Mul x (gf128Mul y z))

/-- R210: `inc32` adds 1 to the low 32 bits modulo 2^32 and keeps the upper 96. -/
def Obligations.Inc32Rule : Prop :=
  ∀ y : Block, (inc32 y).toNat = y.toNat / 2 ^ 32 * 2 ^ 32 + (y.toNat % 2 ^ 32 + 1) % 2 ^ 32

/-- R223: where AAD or payload is cut into chunks changes neither the record nor the output. -/
def Obligations.ChunkingDoesNotMatter : Prop :=
  ∀ (a b : List Byte) (st : Engine),
    gcmAad (a ++ b) st = gcmAad b (gcmAad a st) ∧
    (gcmPayload (a ++ b) st).1 = (gcmPayload b (gcmPayload a st).1).1 ∧
    (gcmPayload (a ++ b) st).2 = (gcmPayload a st).2 ++ (gcmPayload b (gcmPayload a st).1).2

/-- R227, with R216, R218, R219, R220, R221 and R224: from `gcm_begin`, absorbing AAD, closing it, transforming a payload and
finishing computes standard GCM, in both modes. -/
def Obligations.ContextComputesGcm : Prop :=
  ∀ (st : Engine) (aad p : List Byte),
    let begun := gcmBegin st
    let paid := gcmPayload p (gcmCloseHash (gcmAad aad begun))
    let cipher := encryptE st
    let j0 := counterBlock0 st.iv
    paid.2 = counterMode cipher j0 p ∧
    (gcmFinish paid.1).2 = gcmTag cipher j0 aad (if st.encrypt then counterMode cipher j0 p else p)

/-- R227, R318: an encrypt message, from any state with a loaded key, outputs the counter-mode ciphertext and leaves the GCM
tag in TAG, in IDLE with DONE. -/
def Obligations.EncryptMessageComputesGcm : Prop :=
  ∀ (s : State) (nonce last aad p : List Byte),
    s.st.keyLoaded = true → nonce.length = 12 → last.length = 4 →
    let cipher := encryptE s.st
    let j0 := blockOf (nonce ++ [0, 0, 0, 1])
    let c := counterMode cipher j0 p
    ∃ t, runOps [.startMessage true, .pushData 0 (nonce ++ last), .pushData (BitVec.ofNat 2 aad.length) aad, .endAad,
        .pushData (BitVec.ofNat 2 p.length) p, .endPayload] s = some (t, c) ∧
      t.response.status = .ok ∧ t.st.phase = .idle ∧ t.st.done = true ∧
      t.st.tag[0] ++ t.st.tag[1] ++ t.st.tag[2] ++ t.st.tag[3] = gcmTag cipher j0 aad c

/-- R227, R305, R318: a decrypt message, from any state with a loaded key, outputs the counter-mode plaintext whatever the tag
is, and reports whether the pushed tag is the GCM tag of the ciphertext. -/
def Obligations.DecryptMessageChecksGcm : Prop :=
  ∀ (s : State) (nonce last aad c tag : List Byte),
    s.st.keyLoaded = true → nonce.length = 12 → last.length = 4 → tag.length = 16 →
    let cipher := encryptE s.st
    let j0 := blockOf (nonce ++ [0, 0, 0, 1])
    ∃ t, runOps [.startMessage false, .pushData 0 (nonce ++ last), .pushData (BitVec.ofNat 2 aad.length) aad, .endAad,
        .pushData (BitVec.ofNat 2 c.length) c, .endPayload, .pushData 0 tag] s = some (t, counterMode cipher j0 c) ∧
      t.st.phase = .idle ∧ t.st.done = true ∧
      t.st.tagOk = decide (blockOf tag = gcmTag cipher j0 aad c) ∧
      t.response.status = (if blockOf tag = gcmTag cipher j0 aad c then .ok else .authenticationFailed)

/-- R228: decrypting an encrypted message, with the tag it left, outputs the plaintext with TAG_OK true. -/
def Obligations.DecryptUndoesEncrypt : Prop :=
  ∀ (s : State) (nonce last aad p : List Byte),
    s.st.keyLoaded = true → nonce.length = 12 → last.length = 4 →
    ∃ (t u : State) (c : List Byte),
      runOps [.startMessage true, .pushData 0 (nonce ++ last), .pushData (BitVec.ofNat 2 aad.length) aad, .endAad,
        .pushData (BitVec.ofNat 2 p.length) p, .endPayload] s = some (t, c) ∧
      c.length = p.length ∧
      runOps [.startMessage false, .pushData 0 (nonce ++ last), .pushData (BitVec.ofNat 2 aad.length) aad, .endAad,
        .pushData (BitVec.ofNat 2 c.length) c, .endPayload, .pushData 0 (t.st.tag.toList.flatMap be32)] t = some (u, p) ∧
      u.response.status = .ok ∧ u.st.tagOk = true
end

