-- ==== Sys2Proof/Laws/Bytes.lean ====
section
/-! SUPPORT. The byte-order functions undo one another. -/

namespace Sys2Proof.Machine

@[simp] theorem beBytes_length (n v : Nat) : (beBytes n v).length = n := by
  induction n with
  | zero => rfl
  | succ n ih => simp [beBytes, ih]

@[simp] theorem be32_length (w : Word) : (be32 w).length = 4 := beBytes_length _ _
@[simp] theorem be64_length (v : BitVec 64) : (be64 v).length = 8 := beBytes_length _ _
@[simp] theorem be128_length (b : Block) : (be128 b).length = 16 := beBytes_length _ _

@[simp] theorem beNat_nil : beNat [] = 0 := rfl

theorem beNat_foldl (bs : List Byte) (acc : Nat) :
    bs.foldl (fun acc b => acc * 256 + b.toNat) acc = acc * 256 ^ bs.length + beNat bs := by
  induction bs generalizing acc with
  | nil => simp
  | cons b bs ih =>
    have h0 : beNat (b :: bs) = (0 * 256 + b.toNat) * 256 ^ bs.length + beNat bs := by
      rw [beNat, List.foldl_cons, ih]
    rw [List.foldl_cons, ih, h0, List.length_cons, pow_succ]
    ring

theorem beNat_cons (b : Byte) (bs : List Byte) : beNat (b :: bs) = b.toNat * 256 ^ bs.length + beNat bs := by
  rw [beNat, List.foldl_cons, beNat_foldl]
  simp

theorem beNat_append (as bs : List Byte) : beNat (as ++ bs) = beNat as * 256 ^ bs.length + beNat bs := by
  rw [beNat, List.foldl_append, beNat_foldl]
  rfl

theorem beNat_lt (bs : List Byte) : beNat bs < 256 ^ bs.length := by
  induction bs with
  | nil => simp
  | cons b bs ih =>
    rw [beNat_cons, List.length_cons, pow_succ]
    have := b.isLt
    have hpos : 0 < 256 ^ bs.length := by positivity
    nlinarith

theorem beNat_beBytes (n v : Nat) : beNat (beBytes n v) = v % 256 ^ n := by
  induction n with
  | zero => simp [beBytes, Nat.mod_one]
  | succ n ih =>
    have hmod : v % 256 ^ (n + 1) = v % 256 ^ n + 256 ^ n * (v / 256 ^ n % 256) := Nat.mod_mul
    rw [beBytes, beNat_cons, beBytes_length, ih, BitVec.toNat_ofNat, hmod, Nat.mul_comm, Nat.add_comm]

theorem beBytes_beNat (bs : List Byte) : beBytes bs.length (beNat bs) = bs := by
  have key : ∀ (bs : List Byte) (m : Nat), beBytes bs.length (m * 256 ^ bs.length + beNat bs) = bs := by
    intro bs
    induction bs with
    | nil => intro m; rfl
    | cons b bs ih =>
      intro m
      have hlt := beNat_lt bs
      have hpos : 0 < 256 ^ bs.length := by positivity
      have hsum : m * 256 ^ (bs.length + 1) + (b.toNat * 256 ^ bs.length + beNat bs) =
          (m * 256 + b.toNat) * 256 ^ bs.length + beNat bs := by ring
      rw [List.length_cons, beNat_cons, beBytes, hsum, ih]
      congr 1
      rw [Nat.add_comm, Nat.add_mul_div_right _ _ hpos, Nat.div_eq_of_lt hlt]
      apply BitVec.eq_of_toNat_eq
      rw [BitVec.toNat_ofNat]
      have := b.isLt
      omega
  simpa using key bs 0

@[simp] theorem wordOf_be32 (w : Word) : wordOf (be32 w) = w := by
  apply BitVec.eq_of_toNat_eq
  rw [wordOf, be32, beNat_beBytes, BitVec.toNat_ofNat]
  have := w.isLt
  omega

@[simp] theorem blockOf_be128 (b : Block) : blockOf (be128 b) = b := by
  apply BitVec.eq_of_toNat_eq
  rw [blockOf, be128, beNat_beBytes, BitVec.toNat_ofNat]
  have := b.isLt
  omega

theorem be64_value (v : BitVec 64) : BitVec.ofNat 64 (beNat (be64 v)) = v := by
  apply BitVec.eq_of_toNat_eq
  rw [be64, beNat_beBytes, BitVec.toNat_ofNat]
  have := v.isLt
  omega

theorem word_toNat (b0 b1 b2 b3 : Byte) :
    (word b0 b1 b2 b3).toNat = ((b0.toNat * 256 + b1.toNat) * 256 + b2.toNat) * 256 + b3.toNat := by
  have h0 := b0.isLt
  have h1 := b1.isLt
  have h2 := b2.isLt
  have h3 := b3.isLt
  simp only [word, BitVec.toNat_append]
  rw [← Nat.shiftLeft_add_eq_or_of_lt h3, ← Nat.shiftLeft_add_eq_or_of_lt h2, ← Nat.shiftLeft_add_eq_or_of_lt h1]
  simp only [Nat.shiftLeft_eq]

/-- `word` is `wordOf` on four bytes: the two readings of R12 agree. -/
theorem word_eq_wordOf (b0 b1 b2 b3 : Byte) : word b0 b1 b2 b3 = wordOf [b0, b1, b2, b3] := by
  apply BitVec.eq_of_toNat_eq
  have h0 := b0.isLt
  have h1 := b1.isLt
  have h2 := b2.isLt
  have h3 := b3.isLt
  rw [word_toNat, wordOf, BitVec.toNat_ofNat]
  simp only [beNat, List.foldl]
  omega

/-- Writing four bytes of a word gives them back. -/
theorem be32_word (b0 b1 b2 b3 : Byte) : be32 (word b0 b1 b2 b3) = [b0, b1, b2, b3] := by
  have h := beBytes_beNat [b0, b1, b2, b3]
  have hlt := beNat_lt [b0, b1, b2, b3]
  rw [word_eq_wordOf, be32, wordOf, BitVec.toNat_ofNat, Nat.mod_eq_of_lt (by simpa using hlt)]
  exact h

theorem be32_eq (w : Word) : ∃ b0 b1 b2 b3, be32 w = [b0, b1, b2, b3] ∧ word b0 b1 b2 b3 = w := by
  refine ⟨_, _, _, _, rfl, ?_⟩
  rw [word_eq_wordOf]
  exact wordOf_be32 w

@[simp] theorem zeroFill_length (n : Nat) (bs : List Byte) (h : bs.length ≤ n) : (zeroFill n bs).length = n := by
  simp [zeroFill]; omega

/-! ## The bytes of a word -/

/-- The bytes of a word made of four bytes. -/
theorem wordByte_word (b0 b1 b2 b3 : Byte) :
    wordByte (word b0 b1 b2 b3) 0 = b0 ∧ wordByte (word b0 b1 b2 b3) 1 = b1 ∧
    wordByte (word b0 b1 b2 b3) 2 = b2 ∧ wordByte (word b0 b1 b2 b3) 3 = b3 := by
  have h : ∀ n, 24 - 8 * n + 8 ≤ 32 → ∀ i, i < 8 →
      (wordByte (word b0 b1 b2 b3) n).getLsbD i = (b0 ++ b1 ++ b2 ++ b3).getLsbD (24 - 8 * n + i) := by
    intro n _ i hi
    simp [wordByte, word, hi]
  refine ⟨?_, ?_, ?_, ?_⟩ <;>
    (apply BitVec.eq_of_getLsbD_eq; intro i hi; rw [h _ (by omega) _ hi]; repeat rw [BitVec.getLsbD_append]) <;>
    (repeat' split) <;> first | omega | (congr 1; omega)

/-- The bytes of an exclusive-or. -/
@[simp] theorem wordByte_xor (v w : Word) (r : Nat) : wordByte (v ^^^ w) r = wordByte v r ^^^ wordByte w r := by
  ext i hi
  simp [wordByte]

end Sys2Proof.Machine
end

