-- ==== Sys2Proof/Laws/Decode.lean ====
section
/-! SUPPORT. What the parts of the decoder answer on the bytes the parts of the encoder write. -/

namespace Sys2Proof

open Sys2Proof.Machine

@[simp] theorem Op.ofCode_code (op : Op) : Op.ofCode op.code = some op := by
  cases op <;> rfl

/-- An OP byte that names a row is that row's code. -/
theorem Op.code_of_ofCode {c : BitVec 8} {op : Op} (h : Op.ofCode c = some op) : op.code = c := by
  have := List.find?_some h
  simpa using this

@[simp] theorem takeWord_be32 (w : Word) (rest : List Byte) : takeWord (be32 w ++ rest) = some (w, rest) := by
  obtain ⟨b0, b1, b2, b3, hb, hw⟩ := be32_eq w
  rw [hb]
  simp [takeWord, hw]

/-- A word taken from the stream is its next four bytes. -/
theorem takeWord_eq_some {bs rest : List Byte} {w : Word} (h : takeWord bs = some (w, rest)) : bs = be32 w ++ rest := by
  match bs, h with
  | b0 :: b1 :: b2 :: b3 :: bs, h =>
    simp only [takeWord, Option.some.injEq, Prod.mk.injEq] at h
    rw [← h.1, ← h.2, be32_word]
    rfl

/-- Fewer than four bytes hold no word. -/
theorem takeWord_eq_none {bs : List Byte} (h : bs.length < 4) : takeWord bs = none := by
  match bs, h with
  | [], _ => rfl
  | [_], _ => rfl
  | [_, _], _ => rfl
  | [_, _, _], _ => rfl

@[simp] theorem takeBytes_append (data rest : List Byte) :
    takeBytes data.length (data ++ rest) = some (data, rest) := by
  simp [takeBytes]

/-- Bytes taken from the stream are its next `n` bytes. -/
theorem takeBytes_eq_some {n : Nat} {bs data rest : List Byte} (h : takeBytes n bs = some (data, rest)) :
    bs = data ++ rest ∧ data.length = n := by
  unfold takeBytes at h
  split at h
  · rename_i hn
    simp only [Option.some.injEq, Prod.mk.injEq] at h
    obtain ⟨h1, h2⟩ := h
    subst h1 h2
    simp [hn]
  · cases h

/-- Fewer than `n` bytes are a truncated command. -/
theorem takeBytes_eq_none {n : Nat} {bs : List Byte} (h : bs.length < n) : takeBytes n bs = none := by
  simp [takeBytes]; omega

/-- A header as a number: B, A and OP from the top. -/
theorem header_toNat (op : Op) (a : BitVec 8) (b : BitVec 16) :
    (header op a b).toNat = (b.toNat * 256 + a.toNat) * 256 + op.code.toNat := by
  have ha := a.isLt
  have ho := op.code.isLt
  simp only [header, BitVec.toNat_append]
  rw [← Nat.shiftLeft_add_eq_or_of_lt ho, ← Nat.shiftLeft_add_eq_or_of_lt ha]
  simp only [Nat.shiftLeft_eq]

theorem headerOp_toNat (h : Word) : (headerOp h).toNat = h.toNat % 256 := by
  simp [headerOp, BitVec.extractLsb'_toNat]

theorem headerA_toNat (h : Word) : (headerA h).toNat = h.toNat / 256 % 256 := by
  simp [headerA, BitVec.extractLsb'_toNat, Nat.shiftRight_eq_div_pow]

theorem headerB_toNat (h : Word) : (headerB h).toNat = h.toNat / 65536 := by
  have := h.isLt
  simp only [headerB, BitVec.extractLsb'_toNat, Nat.shiftRight_eq_div_pow]
  omega

@[simp] theorem headerOp_header (op : Op) (a : BitVec 8) (b : BitVec 16) : headerOp (header op a b) = op.code := by
  apply BitVec.eq_of_toNat_eq
  have ho := op.code.isLt
  rw [headerOp_toNat, header_toNat]
  omega

@[simp] theorem headerA_header (op : Op) (a : BitVec 8) (b : BitVec 16) : headerA (header op a b) = a := by
  apply BitVec.eq_of_toNat_eq
  have ho := op.code.isLt
  have ha := a.isLt
  rw [headerA_toNat, header_toNat]
  omega

@[simp] theorem headerB_header (op : Op) (a : BitVec 8) (b : BitVec 16) : headerB (header op a b) = b := by
  apply BitVec.eq_of_toNat_eq
  have ho := op.code.isLt
  have ha := a.isLt
  have hb := b.isLt
  rw [headerB_toNat, header_toNat]
  omega

/-- A header is made of its three fields. -/
theorem header_fields (h : Word) (op : Op) (hop : headerOp h = op.code) : header op (headerA h) (headerB h) = h := by
  apply BitVec.eq_of_toNat_eq
  rw [header_toNat, headerA_toNat, headerB_toNat, ← hop, headerOp_toNat]
  have := h.isLt
  omega

/-- Two headers with the same fields are the same word. -/
theorem header_ext {h h' : Word} (ho : headerOp h = headerOp h') (ha : headerA h = headerA h')
    (hb : headerB h = headerB h') : h = h' := by
  have eo := congrArg BitVec.toNat ho
  have ea := congrArg BitVec.toNat ha
  have eb := congrArg BitVec.toNat hb
  rw [headerOp_toNat, headerOp_toNat] at eo
  rw [headerA_toNat, headerA_toNat] at ea
  rw [headerB_toNat, headerB_toNat] at eb
  apply BitVec.eq_of_toNat_eq
  omega

theorem headerOp_and (h m : Word) : headerOp (h &&& m) = headerOp h &&& headerOp m := by
  ext i hi; simp [headerOp]

theorem headerA_and (h m : Word) : headerA (h &&& m) = headerA h &&& headerA m := by
  ext i hi; simp [headerA]

theorem headerB_and (h m : Word) : headerB (h &&& m) = headerB h &&& headerB m := by
  ext i hi; simp [headerB]

/-- The reserved bits of a header that names the row, field by field. -/
theorem reservedZero_iff {op : Op} {h : Word} (hop : headerOp h = op.code) :
    reservedZero op h = true ↔
      headerA h &&& headerA op.format.mask = 0 ∧ headerB h &&& headerB op.format.mask = 0 := by
  have hm : headerOp op.format.mask = 0xFF := by cases op <;> rfl
  have hc : headerOp (op.code.setWidth 32) = op.code := by cases op <;> rfl
  have ha : headerA (op.code.setWidth 32) = 0 := by cases op <;> rfl
  have hb : headerB (op.code.setWidth 32) = 0 := by cases op <;> rfl
  have hall : op.code &&& 0xFF = op.code := by cases op <;> rfl
  rw [reservedZero, beq_iff_eq]
  constructor
  · intro e
    constructor
    · rw [← headerA_and, e, ha]
    · rw [← headerB_and, e, hb]
  · rintro ⟨e1, e2⟩
    apply header_ext
    · rw [headerOp_and, hop, hm, hc, hall]
    · rw [headerA_and, e1, ha]
    · rw [headerB_and, e2, hb]

/-- A header whose reserved fields are 0 is well-formed. -/
theorem reservedZero_header {op : Op} {a : BitVec 8} {b : BitVec 16} (ha : a &&& headerA op.format.mask = 0)
    (hb : b &&& headerB op.format.mask = 0) : reservedZero op (header op a b) = true := by
  rw [reservedZero_iff (headerOp_header ..), headerA_header, headerB_header]
  exact ⟨ha, hb⟩

/-- What decoding answers on a stream that starts with a whole header word. -/
theorem decode_be32 (h : Word) (rest : List Byte) :
    decode (be32 h ++ rest) =
      match Op.ofCode (headerOp h) with
      | none => .unassignedOpcode rest
      | some op =>
        match takeOperands op.format rest with
        | none => .truncated
        | some (value, data, rest) =>
          if reservedZero op h then .command (op.instr h value data) rest else .reservedBits rest := by
  obtain ⟨b0, b1, b2, b3, hb, hw⟩ := be32_eq h
  have ht := takeWord_be32 h rest
  rw [hb] at ht ⊢
  simp only [List.cons_append, List.nil_append] at ht ⊢
  simp only [decode, ht] <;> rfl

end Sys2Proof
end

