-- ==== Sys2Proof/Laws/State.lean ====
section
/-! SUPPORT. One lemma per field per whole-record update of the engine, so that no proof unfolds one. -/

namespace Sys2Proof.Machine

/-! ## ghashStep -/

@[simp] theorem ghashStep_key (b : Block) (st : Engine) : (ghashStep b st).key = st.key := rfl
@[simp] theorem ghashStep_keyLen (b : Block) (st : Engine) : (ghashStep b st).keyLen = st.keyLen := rfl
@[simp] theorem ghashStep_activeKey (b : Block) (st : Engine) : (ghashStep b st).activeKey = st.activeKey := rfl
@[simp] theorem ghashStep_rk (b : Block) (st : Engine) : (ghashStep b st).rk = st.rk := rfl
@[simp] theorem ghashStep_keyLoaded (b : Block) (st : Engine) : (ghashStep b st).keyLoaded = st.keyLoaded := rfl
@[simp] theorem ghashStep_keyZeroed (b : Block) (st : Engine) : (ghashStep b st).keyZeroed = st.keyZeroed := rfl
@[simp] theorem ghashStep_h (b : Block) (st : Engine) : (ghashStep b st).h = st.h := rfl
@[simp] theorem ghashStep_j0 (b : Block) (st : Engine) : (ghashStep b st).j0 = st.j0 := rfl
@[simp] theorem ghashStep_ej0 (b : Block) (st : Engine) : (ghashStep b st).ej0 = st.ej0 := rfl
@[simp] theorem ghashStep_y (b : Block) (st : Engine) : (ghashStep b st).y = st.y := rfl
@[simp] theorem ghashStep_x (b : Block) (st : Engine) : (ghashStep b st).x = gf128Mul (st.x ^^^ b) st.h := rfl
@[simp] theorem ghashStep_aadLen (b : Block) (st : Engine) : (ghashStep b st).aadLen = st.aadLen := rfl
@[simp] theorem ghashStep_ctLen (b : Block) (st : Engine) : (ghashStep b st).ctLen = st.ctLen := rfl
@[simp] theorem ghashStep_hbuf (b : Block) (st : Engine) : (ghashStep b st).hbuf = st.hbuf := rfl
@[simp] theorem ghashStep_ks (b : Block) (st : Engine) : (ghashStep b st).ks = st.ks := rfl
@[simp] theorem ghashStep_kpos (b : Block) (st : Engine) : (ghashStep b st).kpos = st.kpos := rfl
@[simp] theorem ghashStep_msgKeyValid (b : Block) (st : Engine) : (ghashStep b st).msgKeyValid = st.msgKeyValid := rfl
@[simp] theorem ghashStep_phase (b : Block) (st : Engine) : (ghashStep b st).phase = st.phase := rfl
@[simp] theorem ghashStep_encrypt (b : Block) (st : Engine) : (ghashStep b st).encrypt = st.encrypt := rfl
@[simp] theorem ghashStep_iv (b : Block) (st : Engine) : (ghashStep b st).iv = st.iv := rfl
@[simp] theorem ghashStep_tag (b : Block) (st : Engine) : (ghashStep b st).tag = st.tag := rfl
@[simp] theorem ghashStep_wbuf (b : Block) (st : Engine) : (ghashStep b st).wbuf = st.wbuf := rfl
@[simp] theorem ghashStep_tagOk (b : Block) (st : Engine) : (ghashStep b st).tagOk = st.tagOk := rfl
@[simp] theorem ghashStep_done (b : Block) (st : Engine) : (ghashStep b st).done = st.done := rfl
@[simp] theorem ghashStep_lastStatus (b : Block) (st : Engine) : (ghashStep b st).lastStatus = st.lastStatus := rfl

/-! ## gcmBegin -/

@[simp] theorem gcmBegin_key (st : Engine) : (gcmBegin st).key = st.key := rfl
@[simp] theorem gcmBegin_keyLen (st : Engine) : (gcmBegin st).keyLen = st.keyLen := rfl
@[simp] theorem gcmBegin_activeKey (st : Engine) : (gcmBegin st).activeKey = st.activeKey := rfl
@[simp] theorem gcmBegin_rk (st : Engine) : (gcmBegin st).rk = st.rk := rfl
@[simp] theorem gcmBegin_keyLoaded (st : Engine) : (gcmBegin st).keyLoaded = st.keyLoaded := rfl
@[simp] theorem gcmBegin_keyZeroed (st : Engine) : (gcmBegin st).keyZeroed = st.keyZeroed := rfl
@[simp] theorem gcmBegin_h (st : Engine) : (gcmBegin st).h = encryptE st 0 := rfl
@[simp] theorem gcmBegin_j0 (st : Engine) : (gcmBegin st).j0 = counterBlock0 st.iv := rfl
@[simp] theorem gcmBegin_ej0 (st : Engine) : (gcmBegin st).ej0 = encryptE st (counterBlock0 st.iv) := rfl
@[simp] theorem gcmBegin_y (st : Engine) : (gcmBegin st).y = counterBlock0 st.iv := rfl
@[simp] theorem gcmBegin_x (st : Engine) : (gcmBegin st).x = 0 := rfl
@[simp] theorem gcmBegin_aadLen (st : Engine) : (gcmBegin st).aadLen = 0 := rfl
@[simp] theorem gcmBegin_ctLen (st : Engine) : (gcmBegin st).ctLen = 0 := rfl
@[simp] theorem gcmBegin_hbuf (st : Engine) : (gcmBegin st).hbuf = [] := rfl
@[simp] theorem gcmBegin_ks (st : Engine) : (gcmBegin st).ks = 0 := rfl
@[simp] theorem gcmBegin_kpos (st : Engine) : (gcmBegin st).kpos = 16 := rfl
@[simp] theorem gcmBegin_msgKeyValid (st : Engine) : (gcmBegin st).msgKeyValid = true := rfl
@[simp] theorem gcmBegin_phase (st : Engine) : (gcmBegin st).phase = st.phase := rfl
@[simp] theorem gcmBegin_encrypt (st : Engine) : (gcmBegin st).encrypt = st.encrypt := rfl
@[simp] theorem gcmBegin_iv (st : Engine) : (gcmBegin st).iv = st.iv := rfl
@[simp] theorem gcmBegin_tag (st : Engine) : (gcmBegin st).tag = st.tag := rfl
@[simp] theorem gcmBegin_wbuf (st : Engine) : (gcmBegin st).wbuf = st.wbuf := rfl
@[simp] theorem gcmBegin_tagOk (st : Engine) : (gcmBegin st).tagOk = st.tagOk := rfl
@[simp] theorem gcmBegin_done (st : Engine) : (gcmBegin st).done = st.done := rfl
@[simp] theorem gcmBegin_lastStatus (st : Engine) : (gcmBegin st).lastStatus = st.lastStatus := rfl

/-! ## loadedKey -/

@[simp] theorem loadedKey_key (len : KeyLen) (st : Engine) : (loadedKey len st).key = st.key := rfl
@[simp] theorem loadedKey_keyLen (len : KeyLen) (st : Engine) : (loadedKey len st).keyLen = len := rfl
@[simp] theorem loadedKey_activeKey (len : KeyLen) (st : Engine) : (loadedKey len st).activeKey = activeWords st.key len := rfl
@[simp] theorem loadedKey_rk (len : KeyLen) (st : Engine) : (loadedKey len st).rk = expandKey (activeWords st.key len) len := rfl
@[simp] theorem loadedKey_keyLoaded (len : KeyLen) (st : Engine) : (loadedKey len st).keyLoaded = true := rfl
@[simp] theorem loadedKey_keyZeroed (len : KeyLen) (st : Engine) : (loadedKey len st).keyZeroed = st.keyZeroed := rfl
@[simp] theorem loadedKey_h (len : KeyLen) (st : Engine) : (loadedKey len st).h = st.h := rfl
@[simp] theorem loadedKey_j0 (len : KeyLen) (st : Engine) : (loadedKey len st).j0 = st.j0 := rfl
@[simp] theorem loadedKey_ej0 (len : KeyLen) (st : Engine) : (loadedKey len st).ej0 = st.ej0 := rfl
@[simp] theorem loadedKey_y (len : KeyLen) (st : Engine) : (loadedKey len st).y = st.y := rfl
@[simp] theorem loadedKey_x (len : KeyLen) (st : Engine) : (loadedKey len st).x = st.x := rfl
@[simp] theorem loadedKey_aadLen (len : KeyLen) (st : Engine) : (loadedKey len st).aadLen = st.aadLen := rfl
@[simp] theorem loadedKey_ctLen (len : KeyLen) (st : Engine) : (loadedKey len st).ctLen = st.ctLen := rfl
@[simp] theorem loadedKey_hbuf (len : KeyLen) (st : Engine) : (loadedKey len st).hbuf = st.hbuf := rfl
@[simp] theorem loadedKey_ks (len : KeyLen) (st : Engine) : (loadedKey len st).ks = st.ks := rfl
@[simp] theorem loadedKey_kpos (len : KeyLen) (st : Engine) : (loadedKey len st).kpos = st.kpos := rfl
@[simp] theorem loadedKey_msgKeyValid (len : KeyLen) (st : Engine) : (loadedKey len st).msgKeyValid = false := rfl
@[simp] theorem loadedKey_phase (len : KeyLen) (st : Engine) : (loadedKey len st).phase = st.phase := rfl
@[simp] theorem loadedKey_encrypt (len : KeyLen) (st : Engine) : (loadedKey len st).encrypt = st.encrypt := rfl
@[simp] theorem loadedKey_iv (len : KeyLen) (st : Engine) : (loadedKey len st).iv = st.iv := rfl
@[simp] theorem loadedKey_tag (len : KeyLen) (st : Engine) : (loadedKey len st).tag = st.tag := rfl
@[simp] theorem loadedKey_wbuf (len : KeyLen) (st : Engine) : (loadedKey len st).wbuf = st.wbuf := rfl
@[simp] theorem loadedKey_tagOk (len : KeyLen) (st : Engine) : (loadedKey len st).tagOk = st.tagOk := rfl
@[simp] theorem loadedKey_done (len : KeyLen) (st : Engine) : (loadedKey len st).done = st.done := rfl
@[simp] theorem loadedKey_lastStatus (len : KeyLen) (st : Engine) : (loadedKey len st).lastStatus = st.lastStatus := rfl

/-! ## unloadedKey -/

@[simp] theorem unloadedKey_key (st : Engine) : (unloadedKey st).key = st.key := rfl
@[simp] theorem unloadedKey_keyLen (st : Engine) : (unloadedKey st).keyLen = st.keyLen := rfl
@[simp] theorem unloadedKey_activeKey (st : Engine) : (unloadedKey st).activeKey = st.activeKey := rfl
@[simp] theorem unloadedKey_rk (st : Engine) : (unloadedKey st).rk = st.rk := rfl
@[simp] theorem unloadedKey_keyLoaded (st : Engine) : (unloadedKey st).keyLoaded = false := rfl
@[simp] theorem unloadedKey_keyZeroed (st : Engine) : (unloadedKey st).keyZeroed = st.keyZeroed := rfl
@[simp] theorem unloadedKey_h (st : Engine) : (unloadedKey st).h = st.h := rfl
@[simp] theorem unloadedKey_j0 (st : Engine) : (unloadedKey st).j0 = st.j0 := rfl
@[simp] theorem unloadedKey_ej0 (st : Engine) : (unloadedKey st).ej0 = st.ej0 := rfl
@[simp] theorem unloadedKey_y (st : Engine) : (unloadedKey st).y = st.y := rfl
@[simp] theorem unloadedKey_x (st : Engine) : (unloadedKey st).x = st.x := rfl
@[simp] theorem unloadedKey_aadLen (st : Engine) : (unloadedKey st).aadLen = st.aadLen := rfl
@[simp] theorem unloadedKey_ctLen (st : Engine) : (unloadedKey st).ctLen = st.ctLen := rfl
@[simp] theorem unloadedKey_hbuf (st : Engine) : (unloadedKey st).hbuf = st.hbuf := rfl
@[simp] theorem unloadedKey_ks (st : Engine) : (unloadedKey st).ks = st.ks := rfl
@[simp] theorem unloadedKey_kpos (st : Engine) : (unloadedKey st).kpos = st.kpos := rfl
@[simp] theorem unloadedKey_msgKeyValid (st : Engine) : (unloadedKey st).msgKeyValid = false := rfl
@[simp] theorem unloadedKey_phase (st : Engine) : (unloadedKey st).phase = st.phase := rfl
@[simp] theorem unloadedKey_encrypt (st : Engine) : (unloadedKey st).encrypt = st.encrypt := rfl
@[simp] theorem unloadedKey_iv (st : Engine) : (unloadedKey st).iv = st.iv := rfl
@[simp] theorem unloadedKey_tag (st : Engine) : (unloadedKey st).tag = st.tag := rfl
@[simp] theorem unloadedKey_wbuf (st : Engine) : (unloadedKey st).wbuf = st.wbuf := rfl
@[simp] theorem unloadedKey_tagOk (st : Engine) : (unloadedKey st).tagOk = st.tagOk := rfl
@[simp] theorem unloadedKey_done (st : Engine) : (unloadedKey st).done = st.done := rfl
@[simp] theorem unloadedKey_lastStatus (st : Engine) : (unloadedKey st).lastStatus = st.lastStatus := rfl

/-! ## zeroedKey -/

@[simp] theorem zeroedKey_key (st : Engine) : (zeroedKey st).key = Vector.replicate 8 0 := rfl
@[simp] theorem zeroedKey_keyLen (st : Engine) : (zeroedKey st).keyLen = .unset := rfl
@[simp] theorem zeroedKey_activeKey (st : Engine) : (zeroedKey st).activeKey = Vector.replicate 8 0 := rfl
@[simp] theorem zeroedKey_rk (st : Engine) : (zeroedKey st).rk = Vector.replicate 60 0 := rfl
@[simp] theorem zeroedKey_keyLoaded (st : Engine) : (zeroedKey st).keyLoaded = false := rfl
@[simp] theorem zeroedKey_keyZeroed (st : Engine) : (zeroedKey st).keyZeroed = true := rfl
@[simp] theorem zeroedKey_h (st : Engine) : (zeroedKey st).h = st.h := rfl
@[simp] theorem zeroedKey_j0 (st : Engine) : (zeroedKey st).j0 = st.j0 := rfl
@[simp] theorem zeroedKey_ej0 (st : Engine) : (zeroedKey st).ej0 = st.ej0 := rfl
@[simp] theorem zeroedKey_y (st : Engine) : (zeroedKey st).y = st.y := rfl
@[simp] theorem zeroedKey_x (st : Engine) : (zeroedKey st).x = st.x := rfl
@[simp] theorem zeroedKey_aadLen (st : Engine) : (zeroedKey st).aadLen = st.aadLen := rfl
@[simp] theorem zeroedKey_ctLen (st : Engine) : (zeroedKey st).ctLen = st.ctLen := rfl
@[simp] theorem zeroedKey_hbuf (st : Engine) : (zeroedKey st).hbuf = st.hbuf := rfl
@[simp] theorem zeroedKey_ks (st : Engine) : (zeroedKey st).ks = st.ks := rfl
@[simp] theorem zeroedKey_kpos (st : Engine) : (zeroedKey st).kpos = st.kpos := rfl
@[simp] theorem zeroedKey_msgKeyValid (st : Engine) : (zeroedKey st).msgKeyValid = false := rfl
@[simp] theorem zeroedKey_phase (st : Engine) : (zeroedKey st).phase = st.phase := rfl
@[simp] theorem zeroedKey_encrypt (st : Engine) : (zeroedKey st).encrypt = st.encrypt := rfl
@[simp] theorem zeroedKey_iv (st : Engine) : (zeroedKey st).iv = st.iv := rfl
@[simp] theorem zeroedKey_tag (st : Engine) : (zeroedKey st).tag = st.tag := rfl
@[simp] theorem zeroedKey_wbuf (st : Engine) : (zeroedKey st).wbuf = st.wbuf := rfl
@[simp] theorem zeroedKey_tagOk (st : Engine) : (zeroedKey st).tagOk = st.tagOk := rfl
@[simp] theorem zeroedKey_done (st : Engine) : (zeroedKey st).done = st.done := rfl
@[simp] theorem zeroedKey_lastStatus (st : Engine) : (zeroedKey st).lastStatus = st.lastStatus := rfl

/-! ## startedMessage -/

@[simp] theorem startedMessage_key (enc : Bool) (st : Engine) : (startedMessage enc st).key = st.key := rfl
@[simp] theorem startedMessage_keyLen (enc : Bool) (st : Engine) : (startedMessage enc st).keyLen = st.keyLen := rfl
@[simp] theorem startedMessage_activeKey (enc : Bool) (st : Engine) : (startedMessage enc st).activeKey = st.activeKey := rfl
@[simp] theorem startedMessage_rk (enc : Bool) (st : Engine) : (startedMessage enc st).rk = st.rk := rfl
@[simp] theorem startedMessage_keyLoaded (enc : Bool) (st : Engine) : (startedMessage enc st).keyLoaded = st.keyLoaded := rfl
@[simp] theorem startedMessage_keyZeroed (enc : Bool) (st : Engine) : (startedMessage enc st).keyZeroed = st.keyZeroed := rfl
@[simp] theorem startedMessage_h (enc : Bool) (st : Engine) : (startedMessage enc st).h = 0 := rfl
@[simp] theorem startedMessage_j0 (enc : Bool) (st : Engine) : (startedMessage enc st).j0 = 0 := rfl
@[simp] theorem startedMessage_ej0 (enc : Bool) (st : Engine) : (startedMessage enc st).ej0 = 0 := rfl
@[simp] theorem startedMessage_y (enc : Bool) (st : Engine) : (startedMessage enc st).y = 0 := rfl
@[simp] theorem startedMessage_x (enc : Bool) (st : Engine) : (startedMessage enc st).x = 0 := rfl
@[simp] theorem startedMessage_aadLen (enc : Bool) (st : Engine) : (startedMessage enc st).aadLen = 0 := rfl
@[simp] theorem startedMessage_ctLen (enc : Bool) (st : Engine) : (startedMessage enc st).ctLen = 0 := rfl
@[simp] theorem startedMessage_hbuf (enc : Bool) (st : Engine) : (startedMessage enc st).hbuf = [] := rfl
@[simp] theorem startedMessage_ks (enc : Bool) (st : Engine) : (startedMessage enc st).ks = 0 := rfl
@[simp] theorem startedMessage_kpos (enc : Bool) (st : Engine) : (startedMessage enc st).kpos = 16 := rfl
@[simp] theorem startedMessage_msgKeyValid (enc : Bool) (st : Engine) : (startedMessage enc st).msgKeyValid = false := rfl
@[simp] theorem startedMessage_phase (enc : Bool) (st : Engine) : (startedMessage enc st).phase = .iv 0 := rfl
@[simp] theorem startedMessage_encrypt (enc : Bool) (st : Engine) : (startedMessage enc st).encrypt = enc := rfl
@[simp] theorem startedMessage_iv (enc : Bool) (st : Engine) : (startedMessage enc st).iv = Vector.replicate 4 0 := rfl
@[simp] theorem startedMessage_tag (enc : Bool) (st : Engine) : (startedMessage enc st).tag = Vector.replicate 4 0 := rfl
@[simp] theorem startedMessage_wbuf (enc : Bool) (st : Engine) : (startedMessage enc st).wbuf = [] := rfl
@[simp] theorem startedMessage_tagOk (enc : Bool) (st : Engine) : (startedMessage enc st).tagOk = false := rfl
@[simp] theorem startedMessage_done (enc : Bool) (st : Engine) : (startedMessage enc st).done = false := rfl
@[simp] theorem startedMessage_lastStatus (enc : Bool) (st : Engine) : (startedMessage enc st).lastStatus = st.lastStatus := rfl

/-! ## rederiveSchedule -/

@[simp] theorem rederiveSchedule_key (st : Engine) : (rederiveSchedule st).key = st.key := rfl
@[simp] theorem rederiveSchedule_keyLen (st : Engine) : (rederiveSchedule st).keyLen = st.keyLen := rfl
@[simp] theorem rederiveSchedule_activeKey (st : Engine) : (rederiveSchedule st).activeKey = st.activeKey := rfl
@[simp] theorem rederiveSchedule_rk (st : Engine) : (rederiveSchedule st).rk = if st.keyLoaded then expandKey st.activeKey st.keyLen else padWords 60 [] := rfl
@[simp] theorem rederiveSchedule_keyLoaded (st : Engine) : (rederiveSchedule st).keyLoaded = st.keyLoaded := rfl
@[simp] theorem rederiveSchedule_keyZeroed (st : Engine) : (rederiveSchedule st).keyZeroed = st.keyZeroed := rfl
@[simp] theorem rederiveSchedule_h (st : Engine) : (rederiveSchedule st).h = st.h := rfl
@[simp] theorem rederiveSchedule_j0 (st : Engine) : (rederiveSchedule st).j0 = st.j0 := rfl
@[simp] theorem rederiveSchedule_ej0 (st : Engine) : (rederiveSchedule st).ej0 = st.ej0 := rfl
@[simp] theorem rederiveSchedule_y (st : Engine) : (rederiveSchedule st).y = st.y := rfl
@[simp] theorem rederiveSchedule_x (st : Engine) : (rederiveSchedule st).x = st.x := rfl
@[simp] theorem rederiveSchedule_aadLen (st : Engine) : (rederiveSchedule st).aadLen = st.aadLen := rfl
@[simp] theorem rederiveSchedule_ctLen (st : Engine) : (rederiveSchedule st).ctLen = st.ctLen := rfl
@[simp] theorem rederiveSchedule_hbuf (st : Engine) : (rederiveSchedule st).hbuf = st.hbuf := rfl
@[simp] theorem rederiveSchedule_ks (st : Engine) : (rederiveSchedule st).ks = st.ks := rfl
@[simp] theorem rederiveSchedule_kpos (st : Engine) : (rederiveSchedule st).kpos = st.kpos := rfl
@[simp] theorem rederiveSchedule_msgKeyValid (st : Engine) : (rederiveSchedule st).msgKeyValid = st.msgKeyValid := rfl
@[simp] theorem rederiveSchedule_phase (st : Engine) : (rederiveSchedule st).phase = st.phase := rfl
@[simp] theorem rederiveSchedule_encrypt (st : Engine) : (rederiveSchedule st).encrypt = st.encrypt := rfl
@[simp] theorem rederiveSchedule_iv (st : Engine) : (rederiveSchedule st).iv = st.iv := rfl
@[simp] theorem rederiveSchedule_tag (st : Engine) : (rederiveSchedule st).tag = st.tag := rfl
@[simp] theorem rederiveSchedule_wbuf (st : Engine) : (rederiveSchedule st).wbuf = st.wbuf := rfl
@[simp] theorem rederiveSchedule_tagOk (st : Engine) : (rederiveSchedule st).tagOk = st.tagOk := rfl
@[simp] theorem rederiveSchedule_done (st : Engine) : (rederiveSchedule st).done = st.done := rfl
@[simp] theorem rederiveSchedule_lastStatus (st : Engine) : (rederiveSchedule st).lastStatus = st.lastStatus := rfl

end Sys2Proof.Machine
end

