-- ==== Sys2Proof/Laws/Gcm.lean ====
section
/-! SUPPORT. What the functions of the GCM context can do: their frames, the closed form of absorbing a byte string, and the
keystream. -/

namespace Sys2Proof.Machine

/-! ## Frames -/

/-- Absorbing a byte changes only X and HBUF. -/
theorem absorbByte_frame (st : Engine) (b : Byte) :
    absorbByte st b = { st with x := (absorbByte st b).x, hbuf := (absorbByte st b).hbuf } := by
  unfold absorbByte; split <;> rfl

/-- Absorbing a byte reads only H, X and HBUF. -/
theorem absorbByte_congr {s t : Engine} (b : Byte) (hh : s.h = t.h) (hx : s.x = t.x) (hb : s.hbuf = t.hbuf) :
    (absorbByte s b).x = (absorbByte t b).x ∧ (absorbByte s b).hbuf = (absorbByte t b).hbuf := by
  unfold absorbByte
  rw [hb]
  split <;> simp [hh, hx]

theorem foldl_absorbByte_frame (bs : List Byte) (st : Engine) :
    bs.foldl absorbByte st =
      { st with x := (bs.foldl absorbByte st).x, hbuf := (bs.foldl absorbByte st).hbuf } := by
  induction bs generalizing st with
  | nil => rfl
  | cons b bs ih =>
    rw [List.foldl_cons, ih, absorbByte_frame]

theorem foldl_absorbByte_congr (bs : List Byte) {s t : Engine} (hh : s.h = t.h) (hx : s.x = t.x) (hb : s.hbuf = t.hbuf) :
    (bs.foldl absorbByte s).x = (bs.foldl absorbByte t).x ∧ (bs.foldl absorbByte s).hbuf = (bs.foldl absorbByte t).hbuf := by
  induction bs generalizing s t with
  | nil => exact ⟨hx, hb⟩
  | cons b bs ih =>
    have hc := absorbByte_congr b hh hx hb
    refine ih ?_ hc.1 hc.2
    rw [absorbByte_frame s, absorbByte_frame t]
    exact hh

/-- `gcm_aad` changes only X, HBUF and AAD_LEN. -/
theorem gcmAad_frame (ch : List Byte) (st : Engine) :
    gcmAad ch st = { st with
      x := (ch.foldl absorbByte st).x
      hbuf := (ch.foldl absorbByte st).hbuf
      aadLen := st.aadLen + BitVec.ofNat 64 ch.length } := by
  unfold gcmAad
  rw [foldl_absorbByte_frame]

/-- `gcm_close_hash` changes only X and HBUF, and leaves HBUF empty. -/
theorem gcmCloseHash_frame (st : Engine) :
    gcmCloseHash st = { st with x := (gcmCloseHash st).x, hbuf := [] } := by
  unfold gcmCloseHash
  split
  · rename_i h; rw [← h]
  · rfl

theorem gcmCloseHash_x (st : Engine) : (gcmCloseHash st).x =
    if st.hbuf = [] then st.x else gf128Mul (st.x ^^^ blockOf (zeroFill 16 st.hbuf)) st.h := by
  unfold gcmCloseHash
  split <;> rfl

/-- A refill changes only Y, KS and KPOS. -/
theorem refillKeystream_frame (st : Engine) :
    refillKeystream st = { st with
      y := (refillKeystream st).y, ks := (refillKeystream st).ks, kpos := (refillKeystream st).kpos } := by
  unfold refillKeystream; split <;> rfl

/-- After a refill a keystream byte is left. -/
theorem refillKeystream_kpos (st : Engine) : (refillKeystream st).kpos.val < 16 := by
  unfold refillKeystream
  split
  · exact Nat.zero_lt_succ 15
  · rename_i h
    have := st.kpos.isLt
    have : st.kpos.val ≠ 16 := fun e => h (Fin.ext e)
    omega

/-- The output byte and the hashed byte of one payload byte (43_gcm_context.md R219). -/
def payloadOut (st : Engine) (b : Byte) : Byte := b ^^^ blockByte (refillKeystream st).ks (refillKeystream st).kpos.val

theorem payloadByte_eq (st : Engine) (out : List Byte) (b : Byte) :
    payloadByte (st, out) b =
      (absorbByte { refillKeystream st with kpos := (refillKeystream st).kpos + 1 }
        (if st.encrypt then payloadOut st b else b), out ++ [payloadOut st b]) := by
  have h : (refillKeystream st).encrypt = st.encrypt := by rw [refillKeystream_frame]
  simp only [payloadByte, payloadOut, h]

/-- The output so far does not influence the payload fold. -/
theorem payloadByte_foldl (bs : List Byte) (st : Engine) (out : List Byte) :
    bs.foldl payloadByte (st, out) =
      ((bs.foldl payloadByte (st, [])).1, out ++ (bs.foldl payloadByte (st, [])).2) := by
  induction bs generalizing st out with
  | nil => simp
  | cons b bs ih =>
    rw [List.foldl_cons, List.foldl_cons, payloadByte_eq, payloadByte_eq, ih, ih _ ([] ++ _)]
    simp

theorem payloadByte_foldl_cons (b : Byte) (bs : List Byte) (st : Engine) :
    (b :: bs).foldl payloadByte (st, []) =
      ((bs.foldl payloadByte ((payloadByte (st, []) b).1, [])).1,
        payloadOut st b :: (bs.foldl payloadByte ((payloadByte (st, []) b).1, [])).2) := by
  rw [List.foldl_cons, payloadByte_eq, payloadByte_foldl]
  simp

/-- One payload byte changes only X, HBUF, Y, KS and KPOS. -/
theorem payloadByte_frame (st : Engine) (out : List Byte) (b : Byte) :
    (payloadByte (st, out) b).1 = { st with
      x := (payloadByte (st, out) b).1.x
      hbuf := (payloadByte (st, out) b).1.hbuf
      y := (refillKeystream st).y
      ks := (refillKeystream st).ks
      kpos := (refillKeystream st).kpos + 1 } := by
  rw [payloadByte_eq, absorbByte_frame, refillKeystream_frame]

theorem payload_foldl_frame (bs : List Byte) (st : Engine) :
    (bs.foldl payloadByte (st, [])).1 = { st with
      x := (bs.foldl payloadByte (st, [])).1.x
      hbuf := (bs.foldl payloadByte (st, [])).1.hbuf
      y := (bs.foldl payloadByte (st, [])).1.y
      ks := (bs.foldl payloadByte (st, [])).1.ks
      kpos := (bs.foldl payloadByte (st, [])).1.kpos } := by
  induction bs generalizing st with
  | nil => rfl
  | cons b bs ih =>
    rw [payloadByte_foldl_cons, ih, payloadByte_frame]

@[simp] theorem payload_foldl_length (bs : List Byte) (st : Engine) :
    (bs.foldl payloadByte (st, [])).2.length = bs.length := by
  induction bs generalizing st with
  | nil => rfl
  | cons b bs ih => rw [payloadByte_foldl_cons]; simp [ih]

/-- `gcm_payload` changes only X, HBUF, Y, KS, KPOS and CT_LEN. -/
theorem gcmPayload_frame (ch : List Byte) (st : Engine) :
    (gcmPayload ch st).1 = { st with
      x := (ch.foldl payloadByte (st, [])).1.x
      hbuf := (ch.foldl payloadByte (st, [])).1.hbuf
      y := (ch.foldl payloadByte (st, [])).1.y
      ks := (ch.foldl payloadByte (st, [])).1.ks
      kpos := (ch.foldl payloadByte (st, [])).1.kpos
      ctLen := st.ctLen + BitVec.ofNat 64 ch.length } := by
  simp only [gcmPayload]
  rw [payload_foldl_frame]

/-- `gcm_payload` answers as many bytes as it is given. -/
@[simp] theorem gcmPayload_length (ch : List Byte) (st : Engine) : (gcmPayload ch st).2.length = ch.length :=
  payload_foldl_length ch st

/-- `gcm_finish` changes only X and HBUF, and leaves HBUF empty. -/
theorem gcmFinish_frame (st : Engine) :
    (gcmFinish st).1 = { st with x := (gcmFinish st).1.x, hbuf := [] } := by
  simp only [gcmFinish]
  rw [gcmCloseHash_frame]
  rfl

theorem gcmFinish_tag (st : Engine) : (gcmFinish st).2 = (gcmFinish st).1.x ^^^ st.ej0 := by
  simp only [gcmFinish]
  rw [gcmCloseHash_frame]
  rfl

theorem gcmFinish_x (st : Engine) : (gcmFinish st).1.x =
    gf128Mul ((gcmCloseHash st).x ^^^ lengthBlock st.aadLen st.ctLen) st.h := by
  simp only [gcmFinish]
  rw [gcmCloseHash_frame]
  rfl

/-! ## The hash buffer stays short -/

theorem absorbByte_hbuf_length (st : Engine) (b : Byte) (h : st.hbuf.length ≤ 15) :
    (absorbByte st b).hbuf.length ≤ 15 := by
  unfold absorbByte
  split
  · simp
  · simp; omega

theorem foldl_absorbByte_hbuf_length (bs : List Byte) (st : Engine) (h : st.hbuf.length ≤ 15) :
    (bs.foldl absorbByte st).hbuf.length ≤ 15 := by
  induction bs generalizing st with
  | nil => exact h
  | cons b bs ih => exact ih _ (absorbByte_hbuf_length st b h)

theorem payloadByte_hbuf_length (st : Engine) (b : Byte) (h : st.hbuf.length ≤ 15) :
    (payloadByte (st, []) b).1.hbuf.length ≤ 15 := by
  rw [payloadByte_eq]
  apply absorbByte_hbuf_length
  rw [refillKeystream_frame]
  exact h

theorem payload_hbuf_length (bs : List Byte) (st : Engine) (h : st.hbuf.length ≤ 15) :
    (bs.foldl payloadByte (st, [])).1.hbuf.length ≤ 15 := by
  induction bs generalizing st with
  | nil => exact h
  | cons b bs ih =>
    rw [payloadByte_foldl_cons]
    exact ih _ (payloadByte_hbuf_length st b h)

/-! ## The closed form of absorbing bytes -/

/-- Absorbing bytes hashes the whole blocks of HBUF and the bytes, and keeps the rest in HBUF. -/
theorem foldl_absorbByte_eq (bs : List Byte) (st : Engine) (h : st.hbuf.length ≤ 15) :
    bs.foldl absorbByte st = { st with
      x := ghashBlocks st.h ((st.hbuf ++ bs).length / 16) (st.hbuf ++ bs) st.x
      hbuf := (st.hbuf ++ bs).drop (16 * ((st.hbuf ++ bs).length / 16)) } := by
  induction bs generalizing st with
  | nil =>
    have : st.hbuf.length / 16 = 0 := by omega
    simp [this, ghashBlocks]
  | cons b bs ih =>
    rw [List.foldl_cons]
    by_cases hl : st.hbuf.length + 1 = 16
    · have hlen : (st.hbuf ++ b :: bs).length / 16 = bs.length / 16 + 1 := by
        simp only [List.length_append, List.length_cons]; omega
      have hsplit : st.hbuf ++ b :: bs = (st.hbuf ++ [b]) ++ bs := by simp
      have h16 : (st.hbuf ++ [b]).length = 16 := by simp; omega
      have htake : (st.hbuf ++ b :: bs).take 16 = st.hbuf ++ [b] := by rw [hsplit, ← h16, List.take_left]
      have hdrop : (st.hbuf ++ b :: bs).drop 16 = bs := by rw [hsplit, ← h16, List.drop_left]
      have habs : absorbByte st b = { ghashStep (blockOf (st.hbuf ++ [b])) st with hbuf := [] } := by
        unfold absorbByte; rw [if_pos hl]
      rw [habs, ih _ (by simp), hlen]
      simp only [List.nil_append, ghashBlocks, htake, hdrop, ghashStep_x, ghashStep_h]
      have hd : (st.hbuf ++ b :: bs).drop (16 * (bs.length / 16 + 1)) = bs.drop (16 * (bs.length / 16)) := by
        rw [Nat.mul_add, Nat.mul_one, Nat.add_comm, ← List.drop_drop, hdrop]
      rw [hd]
      rfl
    · have habs : absorbByte st b = { st with hbuf := st.hbuf ++ [b] } := by
        unfold absorbByte; rw [if_neg hl]
      rw [habs, ih _ (by simp; omega)]
      simp

end Sys2Proof.Machine
end

