-- ==== Sys2Proof/Laws/Ops.lean ====
section
/-! SUPPORT. How an operation ends, and what the operand forms answer. -/

namespace Sys2Proof.Machine

/-! ## The three ends of an operation -/

/-- All that `finish` does. -/
theorem finish_next {s t : State} {st : Engine} {r : Response} (h : finish s st r = .next t) :
    t = { s with st := { st with lastStatus := r.status }, response := r } := by
  simpa [finish, eq_comm] using h

/-- All that `fail` does. -/
theorem fail_next {s t : State} {c : Status} (h : fail s c = .next t) :
    t = { s with st := { s.st with lastStatus := c }, response := ⟨c, [], 0, []⟩ } :=
  finish_next h

/-- All that `observe` does. -/
theorem observe_next {s t : State} {r : Response} (h : observe s r = .next t) : t = { s with response := r } := by
  simpa [observe, eq_comm] using h

/-- All that `readRegister` does, for an index in range and for one out of range. -/
theorem readRegister_eq {n : Nat} (s : State) (regs : Vector Word n) (index : Option (Fin n)) :
    (∃ k, index = some k ∧ readRegister s regs index = finish s s.st (valueResponse regs[k])) ∨
    (index = none ∧ readRegister s regs index = fail s .protocolViolation) := by
  cases index with
  | none => exact .inr ⟨rfl, rfl⟩
  | some k => exact .inl ⟨k, rfl, rfl⟩

/-! ## Operands -/

theorem registerIndex_of_lt {n : Nat} {index : BitVec 8} (h : index.toNat < n) :
    registerIndex n index = some ⟨index.toNat, h⟩ := by
  simp [registerIndex, h]

theorem registerIndex_of_le {n : Nat} {index : BitVec 8} (h : n ≤ index.toNat) : registerIndex n index = none := by
  simp [registerIndex, Nat.not_lt.mpr h]

/-- A length operand is accepted exactly when it is the bit length of a key length. -/
theorem KeyLen.ofOperand_eq_some {bits : BitVec 16} {len : KeyLen} :
    KeyLen.ofOperand bits = some len ↔ len ≠ .unset ∧ bits.toNat = len.bits := by
  have hb : ∀ n : BitVec 16, bits = n ↔ bits.toNat = n.toNat := fun n => BitVec.toNat_inj.symm
  cases len <;> simp only [KeyLen.ofOperand, KeyLen.bits, hb] <;> (repeat' split) <;> simp_all

theorem KeyLen.ofOperand_eq_none {bits : BitVec 16} (h1 : bits ≠ 128) (h2 : bits ≠ 192) (h3 : bits ≠ 256) :
    KeyLen.ofOperand bits = none := by
  rw [KeyLen.ofOperand, if_neg h1, if_neg h2, if_neg h3]

/-- What a length operand is: one of the three lengths, or not accepted. -/
theorem KeyLen.ofOperand_cases (bits : BitVec 16) :
    (∃ len, KeyLen.ofOperand bits = some len ∧ len ≠ .unset ∧ bits.toNat = len.bits) ∨
    KeyLen.ofOperand bits = none := by
  cases h : KeyLen.ofOperand bits with
  | none => exact .inr rfl
  | some len => exact .inl ⟨len, rfl, KeyLen.ofOperand_eq_some.mp h⟩

/-! ## Words of an array -/

theorem padWords_getElem {n : Nat} (ws : List Word) (j : Nat) (hj : j < n) :
    (padWords n ws)[j] = ws.getD j 0 := by
  simp only [padWords, Vector.getElem_mk, List.getElem_toArray, List.getElem_take]
  by_cases h : j < ws.length
  · simp [List.getElem_append_left h, h]
  · rw [List.getElem_append_right (by omega)]
    simp [List.getD_eq_getElem?_getD, List.getElem?_eq_none (by omega : ws.length ≤ j)]

/-- The active key of a load, word by word (44_key_store.md R252, R253). -/
theorem activeWords_getElem (key : Vector Word 8) (len : KeyLen) (j : Nat) (hj : j < 8) :
    (activeWords key len)[j] = if j < len.nk then key[j] else 0 := by
  rw [activeWords, padWords_getElem, List.getD_eq_getElem?_getD, List.getElem?_take]
  split
  · simp [hj]
  · rfl

theorem padWords_nil (n : Nat) : padWords n [] = Vector.replicate n 0 := by
  ext j hj
  rw [padWords_getElem]
  simp

/-! ## The key check -/

/-- The key check passes exactly when the message key is valid (45_stream_processor.md R284). -/
theorem keyCheck_eq_ok {st : Engine} : keyCheck st = .ok ↔ st.msgKeyValid = true := by
  unfold keyCheck
  cases st.msgKeyValid <;> cases st.keyZeroed <;> cases st.keyLoaded <;> simp

theorem keyCheck_congr {s t : Engine} (h1 : s.msgKeyValid = t.msgKeyValid) (h2 : s.keyZeroed = t.keyZeroed)
    (h3 : s.keyLoaded = t.keyLoaded) : keyCheck s = keyCheck t := by
  simp [keyCheck, h1, h2, h3]

/-- Every outcome of the key check but OK is fatal and is not InvalidKeyLength. -/
theorem keyCheck_cases (st : Engine) :
    keyCheck st = .ok ∨ keyCheck st = .protocolViolation ∨ keyCheck st = .keyNotLoaded := by
  unfold keyCheck
  cases st.msgKeyValid <;> cases st.keyZeroed <;> cases st.keyLoaded <;> simp

end Sys2Proof.Machine
end

