-- ==== Sys2Proof/Laws/Stream.lean ====
section
/-! SUPPORT. What PUSH_DATA can do: how it cuts the stream, what committing a chunk changes and what it does not read, and
what the call leaves. -/

namespace Sys2Proof.Machine

/-! ## The cut -/

/-- A byte string is empty, shorter than a word, or starts with a word. -/
theorem splitWords_four (b0 b1 b2 b3 : Byte) (rest : List Byte) :
    splitWords (b0 :: b1 :: b2 :: b3 :: rest) = ([b0, b1, b2, b3] :: (splitWords rest).1, (splitWords rest).2) := rfl

theorem splitWords_short {s : List Byte} (h : s.length < 4) : splitWords s = ([], s) := by
  match s, h with
  | [], _ => rfl
  | [_], _ => rfl
  | [_, _], _ => rfl
  | [_, _, _], _ => rfl

/-- Induction on a byte string word by word. -/
theorem words_induction {motive : List Byte → Prop} (short : ∀ s, s.length < 4 → motive s)
    (step : ∀ b0 b1 b2 b3 rest, motive rest → motive (b0 :: b1 :: b2 :: b3 :: rest)) : ∀ s, motive s
  | [] => short _ (by simp)
  | [_] => short _ (by simp)
  | [_, _] => short _ (by simp)
  | [_, _, _] => short _ (by simp)
  | b0 :: b1 :: b2 :: b3 :: rest => step b0 b1 b2 b3 rest (words_induction short step rest)

theorem splitWords_join (s : List Byte) : (splitWords s).1.flatten ++ (splitWords s).2 = s := by
  induction s using words_induction with
  | short s h => simp [splitWords_short h]
  | step b0 b1 b2 b3 rest ih => simp [splitWords_four, ih]

theorem splitWords_full (s : List Byte) : ∀ c ∈ (splitWords s).1, c.length = 4 := by
  induction s using words_induction with
  | short s h => simp [splitWords_short h]
  | step b0 b1 b2 b3 rest ih => simpa [splitWords_four] using ih

theorem splitWords_tail_length (s : List Byte) : (splitWords s).2.length = s.length % 4 := by
  induction s using words_induction with
  | short s h => rw [splitWords_short h]; exact (Nat.mod_eq_of_lt h).symm
  | step b0 b1 b2 b3 rest ih => simp only [splitWords_four, List.length_cons, ih]; omega

theorem splitWords_count (s : List Byte) : (splitWords s).1.length = s.length / 4 := by
  induction s using words_induction with
  | short s h => simp [splitWords_short h]; omega
  | step b0 b1 b2 b3 rest ih => simp only [splitWords_four, List.length_cons, ih]; omega

/-- Cutting after whole words. -/
theorem splitWords_append {c : List Byte} (d : List Byte) (h : c.length % 4 = 0) :
    splitWords (c ++ d) = ((splitWords c).1 ++ (splitWords d).1, (splitWords d).2) := by
  induction c using words_induction with
  | short s hs =>
    have : s = [] := List.length_eq_zero_iff.mp (by omega)
    subst this
    simp [splitWords_short (s := []) (by simp)]
  | step b0 b1 b2 b3 rest ih =>
    have hr : rest.length % 4 = 0 := by simp only [List.length_cons] at h; omega
    simp [splitWords_four, ih hr]

theorem splitWords_whole {c : List Byte} (h : c.length % 4 = 0) : (splitWords c).2 = [] := by
  apply List.length_eq_zero_iff.mp
  rw [splitWords_tail_length, h]

/-- A call without a marker commits its whole words and keeps the rest. -/
theorem committedChunks_none (s : List Byte) : committedChunks 0 s = (splitWords s).1 := rfl

theorem uncommittedBytes_none (s : List Byte) : uncommittedBytes 0 s = (splitWords s).2 := rfl

/-- A call with a marker commits its tail too. -/
theorem committedChunks_marker {lw : BitVec 2} (h : lw ≠ 0) (s : List Byte) :
    committedChunks lw s = (splitWords s).1 ++ [(splitWords s).2] := if_neg h

theorem uncommittedBytes_marker {lw : BitVec 2} (h : lw ≠ 0) (s : List Byte) : uncommittedBytes lw s = [] := if_neg h

/-- Nothing is lost by the cut. -/
theorem committed_join (lw : BitVec 2) (s : List Byte) :
    (committedChunks lw s).flatten ++ uncommittedBytes lw s = s := by
  unfold committedChunks uncommittedBytes
  split <;> simp [splitWords_join]

/-- A call without a marker leaves the bytes past its last whole word, one with a marker none. -/
theorem uncommittedBytes_length (lw : BitVec 2) (s : List Byte) :
    (uncommittedBytes lw s).length = if lw = 0 then s.length % 4 else 0 := by
  unfold uncommittedBytes
  split <;> simp [splitWords_tail_length]

/-- The chunks of a call that commits whole words first. -/
theorem committedChunks_append (lw : BitVec 2) {c : List Byte} (d : List Byte) (h : c.length % 4 = 0) :
    committedChunks lw (c ++ d) = (splitWords c).1 ++ committedChunks lw d := by
  unfold committedChunks
  rw [splitWords_append d h]
  split <;> simp

theorem uncommittedBytes_append (lw : BitVec 2) {c : List Byte} (d : List Byte) (h : c.length % 4 = 0) :
    uncommittedBytes lw (c ++ d) = uncommittedBytes lw d := by
  unfold uncommittedBytes
  rw [splitWords_append d h]

/-- `Cuts` is the cut the machine makes. -/
theorem Cuts.chunks {lw : BitVec 2} {s c rest : List Byte} (h : Cuts lw s c rest) :
    (committedChunks lw s).flatten = c ∧ uncommittedBytes lw s = rest ∧ markerAgrees lw s.length = true := by
  obtain ⟨rfl, ⟨rfl, hc, hr⟩ | ⟨hl, hm, rfl⟩⟩ := h
  · have hj := splitWords_join c
    rw [splitWords_whole hc, List.append_nil] at hj
    rw [committedChunks_none, uncommittedBytes_none, splitWords_append _ hc, splitWords_short hr]
    exact ⟨by simp [hj], rfl, rfl⟩
  · have hj := splitWords_join c
    rw [List.append_nil] at hm ⊢
    rw [committedChunks_marker hl, uncommittedBytes_marker hl]
    exact ⟨by simp [hj], rfl, by simp [markerAgrees, hm]⟩

/-- A call that commits 1 to 4 bytes commits them as one chunk. -/
theorem Cuts.single {lw : BitVec 2} {s c rest : List Byte} (h : Cuts lw s c rest) (h0 : 0 < c.length) (h4 : c.length ≤ 4) :
    committedChunks lw s = [c] := by
  obtain ⟨rfl, ⟨rfl, hc, hr⟩ | ⟨hl, hm, rfl⟩⟩ := h
  · match c, h0, h4, hc with
    | [b0, b1, b2, b3], _, _, _ =>
      rw [committedChunks_none]
      simp [splitWords_four, splitWords_short hr]
  · have hlt : c.length < 4 := by
      have : lw.toNat ≠ 0 := fun e => hl (BitVec.eq_of_toNat_eq (by simpa using e))
      rw [List.append_nil] at hm
      omega
    rw [List.append_nil, committedChunks_marker hl, splitWords_short hlt]
    rfl

/-! ## What committing a chunk does not read or write -/

/-- Another WBUF, DONE and LAST_STATUS: fields the commits neither read nor write. -/
def Engine.withEnd (st : Engine) (wbuf : List Byte) (done : Bool) (lastStatus : Status) : Engine :=
  { st with wbuf := wbuf, done := done, lastStatus := lastStatus }

/-- The same working copy with other such fields, after some earlier output. -/
def Push.after (p : Push) (wbuf : List Byte) (done : Bool) (lastStatus : Status) (out : List Byte) : Push :=
  { p with st := p.st.withEnd wbuf done lastStatus, out := out ++ p.out }

theorem absorbByte_withEnd (st : Engine) (w d l) (b : Byte) :
    absorbByte (st.withEnd w d l) b = (absorbByte st b).withEnd w d l := by
  have e : (st.withEnd w d l).hbuf = st.hbuf := rfl
  unfold absorbByte
  rw [e]
  split <;> rfl

theorem foldl_absorbByte_withEnd (bs : List Byte) (st : Engine) (w d l) :
    bs.foldl absorbByte (st.withEnd w d l) = (bs.foldl absorbByte st).withEnd w d l := by
  induction bs generalizing st with
  | nil => rfl
  | cons b bs ih => rw [List.foldl_cons, absorbByte_withEnd, ih]; rfl

theorem gcmAad_withEnd (ch : List Byte) (st : Engine) (w d l) :
    gcmAad ch (st.withEnd w d l) = (gcmAad ch st).withEnd w d l := by
  unfold gcmAad
  rw [foldl_absorbByte_withEnd]
  rfl

theorem gcmCloseHash_withEnd (st : Engine) (w d l) :
    gcmCloseHash (st.withEnd w d l) = (gcmCloseHash st).withEnd w d l := by
  have e : (st.withEnd w d l).hbuf = st.hbuf := rfl
  unfold gcmCloseHash
  rw [e]
  split <;> rfl

theorem refillKeystream_withEnd (st : Engine) (w d l) :
    refillKeystream (st.withEnd w d l) = (refillKeystream st).withEnd w d l := by
  have e : (st.withEnd w d l).kpos = st.kpos := rfl
  unfold refillKeystream
  rw [e]
  split <;> rfl

theorem payloadByte_withEnd (st : Engine) (w d l) (b : Byte) :
    payloadByte (st.withEnd w d l, []) b =
      ((payloadByte (st, []) b).1.withEnd w d l, (payloadByte (st, []) b).2) := by
  rw [payloadByte_eq, payloadByte_eq]
  simp only [payloadOut, refillKeystream_withEnd]
  exact Prod.ext (absorbByte_withEnd { refillKeystream st with kpos := (refillKeystream st).kpos + 1 } w d l _) rfl

theorem payload_foldl_withEnd (bs : List Byte) (st : Engine) (w d l) :
    bs.foldl payloadByte (st.withEnd w d l, []) =
      ((bs.foldl payloadByte (st, [])).1.withEnd w d l, (bs.foldl payloadByte (st, [])).2) := by
  induction bs generalizing st with
  | nil => rfl
  | cons b bs ih =>
    have ho : payloadOut (st.withEnd w d l) b = payloadOut st b := by
      simp only [payloadOut, refillKeystream_withEnd]; rfl
    rw [payloadByte_foldl_cons, payloadByte_foldl_cons b bs st, payloadByte_withEnd, ih, ho]

theorem gcmPayload_withEnd (ch : List Byte) (st : Engine) (w d l) :
    gcmPayload ch (st.withEnd w d l) = ((gcmPayload ch st).1.withEnd w d l, (gcmPayload ch st).2) := by
  simp only [gcmPayload, payload_foldl_withEnd]
  rfl

theorem gcmFinish_withEnd (st : Engine) (w d l) :
    gcmFinish (st.withEnd w d l) = ((gcmFinish st).1.withEnd w d l, (gcmFinish st).2) := by
  simp only [gcmFinish, gcmCloseHash_withEnd]
  rfl

theorem finishDecrypt_after (p : Push) (w d l o) :
    finishDecrypt (p.after w d l o) = (finishDecrypt p).after w d l o := by
  have h : gcmFinish (p.after w d l o).st = _ := gcmFinish_withEnd p.st w d l
  unfold finishDecrypt
  rw [h]
  rfl

/-- Committing a chunk neither reads nor writes WBUF, DONE and LAST_STATUS of the copy, nor the output so far. -/
theorem commitChunk_after (p : Push) (c : List Byte) (w d l o) :
    commitChunk (p.after w d l o) c = (commitChunk p c).map (·.after w d l o) := by
  have hph : (p.after w d l o).st.phase = p.st.phase := rfl
  unfold commitChunk
  rw [hph]
  cases p.st.phase with
  | idle => rfl
  | iv k =>
    simp only [commitIv]
    have hl : (p.after w d l o).st.keyLoaded = p.st.keyLoaded := rfl
    rw [hl]
    split
    · rfl
    · split <;> rfl
  | aad =>
    simp only [Push.after, gcmAad_withEnd]
    rfl
  | payload =>
    simp only [Push.after, gcmPayload_withEnd, List.append_assoc]
    rfl
  | tag k =>
    simp only [commitTag]
    split
    · rfl
    · exact congrArg Except.ok
        (finishDecrypt_after { p with st := { p.st with tag := p.st.tag.set k.val (chunkWord c) k.isLt } } w d l o)

theorem commitChunks_after (cs : List (List Byte)) (p : Push) (w d l o) :
    commitChunks cs (p.after w d l o) = (commitChunks cs p).map (·.after w d l o) := by
  unfold commitChunks
  induction cs generalizing p with
  | nil => rfl
  | cons c cs ih =>
    rw [List.foldlM_cons, List.foldlM_cons, commitChunk_after]
    cases h : commitChunk p c with
    | error e => rfl
    | ok q => exact ih q

/-! ## Committing several chunks -/

theorem commitChunks_nil (p : Push) : commitChunks [] p = .ok p := rfl

theorem commitChunks_cons (c : List Byte) (cs : List (List Byte)) (p : Push) :
    commitChunks (c :: cs) p = (commitChunk p c).bind (commitChunks cs) := by
  unfold commitChunks
  rw [List.foldlM_cons]
  rfl

theorem commitChunks_append (cs ds : List (List Byte)) (p : Push) :
    commitChunks (cs ++ ds) p = (commitChunks cs p).bind (commitChunks ds) := by
  induction cs generalizing p with
  | nil => rfl
  | cons c cs ih =>
    rw [List.cons_append, commitChunks_cons, commitChunks_cons]
    cases commitChunk p c with
    | error e => rfl
    | ok q => exact ih q

/-- Induction over the chunks of a call: what holds at its start and is kept by every committed chunk holds at its end. -/
theorem commitChunks_keeps {P : Push → Prop} (hstep : ∀ p c q, P p → commitChunk p c = .ok q → P q)
    {cs : List (List Byte)} {p q : Push} (hp : P p) (h : commitChunks cs p = .ok q) : P q := by
  induction cs generalizing p with
  | nil => cases h; exact hp
  | cons c cs ih =>
    rw [commitChunks_cons] at h
    cases hc : commitChunk p c with
    | error e => rw [hc] at h; cases h
    | ok r => rw [hc] at h; exact ih (hstep p c r hp hc) h

/-- All that committing a chunk can do when it succeeds, phase by phase. -/
theorem commitChunk_ok {p q : Push} {c : List Byte} (h : commitChunk p c = .ok q) :
    (∃ k : Fin 4, p.st.phase = .iv k ∧ k.val < 3 ∧
      q = { p with st := { p.st with iv := p.st.iv.set k.val (chunkWord c) k.isLt, phase := .iv (k + 1) } }) ∨
    (p.st.phase = .iv 3 ∧ p.st.keyLoaded = true ∧
      q = { p with st := { gcmBegin { p.st with iv := p.st.iv.set 3 (chunkWord c) } with phase := .aad } }) ∨
    (p.st.phase = .aad ∧ q = { p with st := gcmAad c p.st }) ∨
    (p.st.phase = .payload ∧ q = { p with st := (gcmPayload c p.st).1, out := p.out ++ (gcmPayload c p.st).2 }) ∨
    (∃ k : Fin 4, p.st.phase = .tag k ∧ k.val < 3 ∧
      q = { p with st := { p.st with tag := p.st.tag.set k.val (chunkWord c) k.isLt, phase := .tag (k + 1) } }) ∨
    (p.st.phase = .tag 3 ∧
      q = finishDecrypt { p with st := { p.st with tag := p.st.tag.set 3 (chunkWord c) } }) := by
  unfold commitChunk at h
  split at h
  · cases h
  · rename_i k hk
    simp only [commitIv] at h
    split at h
    · rename_i hlt
      exact .inl ⟨k, hk, hlt, (Except.ok.inj h).symm⟩
    · rename_i hlt
      obtain rfl : k = 3 := by omega
      split at h
      · rename_i hl
        exact .inr (.inl ⟨hk, hl, (Except.ok.inj h).symm⟩)
      · cases h
  · rename_i hk
    exact .inr (.inr (.inl ⟨hk, (Except.ok.inj h).symm⟩))
  · rename_i hk
    exact .inr (.inr (.inr (.inl ⟨hk, (Except.ok.inj h).symm⟩)))
  · rename_i k hk
    simp only [commitTag] at h
    split at h
    · rename_i hlt
      exact .inr (.inr (.inr (.inr (.inl ⟨k, hk, hlt, (Except.ok.inj h).symm⟩))))
    · rename_i hlt
      obtain rfl : k = 3 := by omega
      exact .inr (.inr (.inr (.inr (.inr ⟨hk, (Except.ok.inj h).symm⟩))))

/-- Committing a chunk fails only in IDLE, and at IV3 with no key loaded. -/
theorem commitChunk_error {p : Push} {c : List Byte} {e : Status} (h : commitChunk p c = .error e) :
    (p.st.phase = .idle ∧ e = .protocolViolation) ∨
    (p.st.phase = .iv 3 ∧ p.st.keyLoaded = false ∧ e = .keyNotLoaded) := by
  unfold commitChunk at h
  split at h
  · rename_i hk
    exact .inl ⟨hk, (Except.error.inj h).symm⟩
  · rename_i k hk
    simp only [commitIv] at h
    split at h
    · cases h
    · rename_i hlt
      obtain rfl : k = 3 := by omega
      split at h
      · cases h
      · rename_i hl
        exact .inr ⟨hk, by simpa using hl, (Except.error.inj h).symm⟩
  · cases h
  · cases h
  · cases h

/-! ## The whole call -/

/-- The working copy a call starts with. -/
def Push.start (st : Engine) : Push := { st := st, out := [], status := .ok, done := false }

/-- A call with nothing left over, or still in a message, ends. -/
theorem closePush_ok {rest : List Byte} {p : Push} (h : rest = [] ∨ p.st.phase ≠ .idle) :
    closePush rest p = .ok { p with st := { p.st with wbuf := rest, done := p.done } } := by
  unfold closePush
  rw [if_neg (by rintro ⟨h1, h2⟩; exact h.elim h1 (fun h3 => h3 h2))]

/-- A call with bytes left over after the message has completed fails (45_stream_processor.md R296). -/
theorem closePush_error {rest : List Byte} {p : Push} (h : rest ≠ []) (hp : p.st.phase = .idle) :
    closePush rest p = .error .protocolViolation := by
  unfold closePush
  rw [if_pos ⟨h, hp⟩]

/-- All that a successful call does: its entry checks pass, its chunks are committed, and its tail goes to WBUF. -/
theorem pushData_ok {lw : BitVec 2} {data : List Byte} {st : Engine} {q : Push} (h : pushData lw data st = .ok q) :
    pushEntryCheck lw data st = .ok ∧
    ∃ p, commitChunks (committedChunks lw (st.wbuf ++ data)) (Push.start st) = .ok p ∧
      ¬(uncommittedBytes lw (st.wbuf ++ data) ≠ [] ∧ p.st.phase = .idle) ∧
      q = { p with st := { p.st with wbuf := uncommittedBytes lw (st.wbuf ++ data), done := p.done } } := by
  unfold pushData at h
  split at h
  · cases h
  · rename_i hc
    refine ⟨Classical.not_not.mp hc, ?_⟩
    cases hp : commitChunks (committedChunks lw (st.wbuf ++ data)) (Push.start st) with
    | error e => rw [Push.start] at hp; rw [hp] at h; cases h
    | ok p =>
      refine ⟨p, rfl, ?_⟩
      rw [Push.start] at hp
      rw [hp] at h
      simp only [Except.bind, closePush] at h
      split at h
      · cases h
      · rename_i hn
        exact ⟨hn, (Except.ok.inj h).symm⟩

/-- A call whose checks pass, from what its commits answer. -/
theorem pushData_of_checks {lw : BitVec 2} {data : List Byte} {st : Engine} (h : pushEntryCheck lw data st = .ok) :
    pushData lw data st = (commitChunks (committedChunks lw (st.wbuf ++ data)) (Push.start st)).bind
      (closePush (uncommittedBytes lw (st.wbuf ++ data))) := by
  unfold pushData
  rw [if_neg (by simp [h])]
  rfl

/-- The status of a failed call is ProtocolViolation or KeyNotLoaded. -/
theorem pushData_error {lw : BitVec 2} {data : List Byte} {st : Engine} {e : Status}
    (h : pushData lw data st = .error e) : e = .protocolViolation ∨ e = .keyNotLoaded := by
  have hentry : ∀ e, pushEntryCheck lw data st = e → e ≠ .ok → e = .protocolViolation ∨ e = .keyNotLoaded := by
    rintro e rfl hne
    unfold pushEntryCheck at hne ⊢
    split
    · exact .inl rfl
    · split
      · exact .inl rfl
      · split
        · rename_i h1 h2 h3
          rw [if_neg h1, if_neg h2, if_pos h3] at hne
          exact (keyCheck_cases st).resolve_left hne
        · rename_i h1 h2 h3
          rw [if_neg h1, if_neg h2, if_neg h3] at hne
          exact absurd rfl hne
  have hchunks : ∀ (cs : List (List Byte)) (p : Push) (e : Status), commitChunks cs p = .error e →
      e = .protocolViolation ∨ e = .keyNotLoaded := by
    intro cs
    induction cs with
    | nil => intro p e h; cases h
    | cons c cs ih =>
      intro p e h
      rw [commitChunks_cons] at h
      cases hc : commitChunk p c with
      | error e' =>
        rw [hc] at h
        cases h
        rcases commitChunk_error hc with ⟨_, rfl⟩ | ⟨_, _, rfl⟩
        · exact .inl rfl
        · exact .inr rfl
      | ok q => rw [hc] at h; exact ih q e h
  unfold pushData at h
  split at h
  · rename_i hc
    exact hentry e (Except.error.inj h) (fun he => hc (he ▸ Except.error.inj h))
  · generalize hr : commitChunks (committedChunks lw (st.wbuf ++ data)) _ = r at h
    cases r with
    | error e' => cases h; exact hchunks _ _ _ hr
    | ok p =>
      simp only [Except.bind, closePush] at h
      split at h
      · cases h; exact .inl rfl
      · cases h

end Sys2Proof.Machine
end

