-- ==== Sys2Proof/Laws/Exec.lean ====
section
/-! SUPPORT. All that one operation, and one step, can do: the lemmas that later proofs cite instead of unfolding `exec` and
`step`. -/

namespace Sys2Proof.Machine

open Sys2Proof

/-- All that a register read answers. -/
theorem readRegister_next {n} {s t : State} {regs : Vector Word n} {ix} (h : readRegister s regs ix = .next t) :
    (∃ w, t = { s with st := { s.st with lastStatus := .ok }, response := ⟨.ok, [], w, []⟩ }) ∨
    t = { s with
          st := { s.st with lastStatus := .protocolViolation }
          response := ⟨.protocolViolation, [], 0, []⟩ } := by
  rcases readRegister_eq s regs ix with ⟨k, _, e⟩ | ⟨_, e⟩
  · rw [e] at h; exact .inl ⟨_, finish_next h⟩
  · rw [e] at h; exact .inr (fail_next h)

/-- All that the entry check of END_AAD and END_PAYLOAD answers. -/
theorem endCheck_cases {ph : Phase} {st : Engine} :
    endCheck ph st = .ok ∧ st.phase = ph ∧ st.wbuf = [] ∧ st.msgKeyValid = true ∨
    endCheck ph st = .protocolViolation ∨ endCheck ph st = .keyNotLoaded := by
  unfold endCheck
  split
  · simp
  · split
    · simp
    · rename_i h1 h2
      rcases keyCheck_cases st with h | h
      · left; rw [h, ← keyCheck_eq_ok, h]; simp_all
      · right; exact h

/-- All that an operation can do: end with a check's fatal status, which writes LAST_STATUS alone, or have
its own effect. -/
theorem exec_cases (i : Instr) (s t : State) (h : exec i s = .next t) :
   (∃ e, (e = .protocolViolation ∨ e = .keyNotLoaded) ∧
      t = { s with st := { s.st with lastStatus := e }, response := ⟨e, [], 0, []⟩ } ∧ writesStatus i = true) ∨
   (match i with
    | .reset => t = { s with st := Engine.reset s.keyZeroedAtReset, response := ⟨.ok, [], 0, []⟩ }
    | .writeKey ix v => ∃ k : Fin 8, registerIndex 8 ix = some k ∧
        t = { s with
          st := { s.st with key := s.st.key.set k.val v k.isLt, keyZeroed := false, lastStatus := .ok }
          response := ⟨.ok, [], 0, []⟩ }
    | .loadKey b => t = { s with
          st := { unloadedKey s.st with lastStatus := .invalidKeyLength }
          response := ⟨.invalidKeyLength, [], 0, []⟩ } ∧ KeyLen.ofOperand b = none ∨
        ∃ len, KeyLen.ofOperand b = some len ∧ s.st.keyZeroed = false ∧
        t = { s with st := { loadedKey len s.st with lastStatus := .ok }, response := ⟨.ok, [], 0, []⟩ }
    | .zeroKey => t = { s with st := { zeroedKey s.st with lastStatus := .ok }, response := ⟨.ok, [], 0, []⟩ }
    | .startMessage e => t = { s with
          st := { startedMessage e s.st with lastStatus := .ok }
          response := ⟨.ok, [], 0, []⟩ }
    | .pushData lw d => ∃ q, pushData lw d s.st = .ok q ∧
        t = { s with st := { q.st with lastStatus := q.status }, response := ⟨q.status, q.out, 0, []⟩ }
    | .endAad => s.st.phase = .aad ∧ s.st.wbuf = [] ∧ s.st.msgKeyValid = true ∧
        t = { s with st := { aadClosed s.st with lastStatus := .ok }, response := ⟨.ok, [], 0, []⟩ }
    | .endPayload => s.st.phase = .payload ∧ s.st.wbuf = [] ∧ s.st.msgKeyValid = true ∧
        t = { s with st := { payloadClosed s.st with lastStatus := .ok }, response := ⟨.ok, [], 0, []⟩ }
    | .readStatus => t = { s with response := ⟨.ok, [], statusWord s.st, []⟩ }
    | .readKey _ | .readTag _ | .readIv _ => ∃ w, t = { s with
          st := { s.st with lastStatus := .ok }
          response := ⟨.ok, [], w, []⟩ }
    | .snapshot => t = { s with response := ⟨.ok, [], 0, snapshotRecord s.st⟩ }
    | .restore r => recordValid r = true ∧
        t = { s with st := { rederive (recordEngine r) with lastStatus := .ok }, response := ⟨.ok, [], 0, []⟩ }) := by
  cases i <;> simp only [exec] at h
  case reset => exact .inr (finish_next h)
  case writeKey a b =>
    unfold execWriteKey at h
    split at h
    · exact .inl ⟨_, .inl rfl, fail_next h, rfl⟩
    · exact .inr ⟨_, by assumption, finish_next h⟩
  case loadKey =>
    unfold execLoadKey at h
    split at h
    · exact .inr (.inl ⟨finish_next h, by assumption⟩)
    · split at h
      · exact .inl ⟨_, .inr rfl, fail_next h, rfl⟩
      · refine .inr (.inr ⟨_, by assumption, by simp_all, finish_next h⟩)
  case zeroKey => exact .inr (finish_next h)
  case startMessage => exact .inr (finish_next h)
  case pushData =>
    unfold execPushData at h
    split at h
    · rename_i e he
      exact .inl ⟨e, pushData_error he, fail_next h, rfl⟩
    · exact .inr ⟨_, by assumption, finish_next h⟩
  case endAad =>
    unfold execEndAad at h
    rcases endCheck_cases (ph := .aad) (st := s.st) with ⟨e, h1⟩ | e | e
    · rw [e] at h; exact .inr ⟨h1.1, h1.2.1, h1.2.2, finish_next h⟩
    · rw [e] at h; exact .inl ⟨_, .inl rfl, fail_next h, rfl⟩
    · rw [e] at h; exact .inl ⟨_, .inr rfl, fail_next h, rfl⟩
  case endPayload =>
    unfold execEndPayload at h
    rcases endCheck_cases (ph := .payload) (st := s.st) with ⟨e, h1⟩ | e | e
    · rw [e] at h; exact .inr ⟨h1.1, h1.2.1, h1.2.2, finish_next h⟩
    · rw [e] at h; exact .inl ⟨_, .inl rfl, fail_next h, rfl⟩
    · rw [e] at h; exact .inl ⟨_, .inr rfl, fail_next h, rfl⟩
  case readStatus => exact .inr (observe_next h)
  case snapshot => exact .inr (observe_next h)
  case readKey => exact (readRegister_next h).elim (fun h => .inr h) (fun h => .inl ⟨_, .inl rfl, h, rfl⟩)
  case readTag => exact (readRegister_next h).elim (fun h => .inr h) (fun h => .inl ⟨_, .inl rfl, h, rfl⟩)
  case readIv => exact (readRegister_next h).elim (fun h => .inr h) (fun h => .inl ⟨_, .inl rfl, h, rfl⟩)
  case restore =>
    unfold execRestore at h
    split at h
    · exact .inr ⟨by assumption, finish_next h⟩
    · exact .inl ⟨_, .inl rfl, fail_next h, rfl⟩

/-- A push that is not turned away ends with OK or with AuthenticationFailed. -/
theorem push_status {lw d st q} (h : pushData lw d st = .ok q) : q.status = .ok ∨ q.status = .authenticationFailed := by
  obtain ⟨_, p, hp, _, rfl⟩ := pushData_ok h
  show p.status = .ok ∨ p.status = .authenticationFailed
  refine commitChunks_keeps (P := fun p => p.status = .ok ∨ p.status = .authenticationFailed) ?_ (Or.inl rfl) hp
  intro p c q hP hc
  rcases commitChunk_ok hc with ⟨k, _, _, rfl⟩ | ⟨_, _, rfl⟩ | ⟨_, rfl⟩ | ⟨_, rfl⟩ | ⟨k, _, _, rfl⟩ | ⟨_, rfl⟩
  all_goals first | exact hP | skip
  simp only [finishDecrypt]
  split <;> simp

/-! ## The step -/

/-- All that a step does, by what the front of the command stream holds. -/
theorem step_cases (s : State) :
    (∃ i rest, decode s.input = .command i rest ∧ step s = exec i { s with input := rest }) ∨
    (∃ rest, (decode s.input = .reservedBits rest ∨ decode s.input = .unassignedOpcode rest) ∧
      step s = .next { s with
        st := { s.st with lastStatus := .protocolViolation }
        input := rest
        response := ⟨.protocolViolation, [], 0, []⟩ }) ∨
    (decode s.input = .truncated ∧ step s = .refused .truncatedCommand) ∨
    (decode s.input = .noCommand ∧ step s = .next s) := by
  unfold step fetch
  cases h : decode s.input with
  | command i rest => exact .inl ⟨i, rest, rfl, rfl⟩
  | reservedBits rest => exact .inr (.inl ⟨rest, .inl rfl, rfl⟩)
  | unassignedOpcode rest => exact .inr (.inl ⟨rest, .inr rfl, rfl⟩)
  | truncated => exact .inr (.inr (.inl ⟨rfl, rfl⟩))
  | noCommand => exact .inr (.inr (.inr ⟨rfl, rfl⟩))

end Sys2Proof.Machine
end

