-- ==== Sys2Proof/Laws/PerInstr.lean ====
section
/-! SUPPORT. Per instruction: the encoder's header names the instruction's row with every reserved bit 0, and its operands
come back from it and from the bytes behind it. -/

namespace Sys2Proof.Laws.HeaderFits

open Sys2Proof Sys2Proof.Machine

/-- What the encoder writes for `i` is what the decoder's parts expect of it. -/
def Statement (i : Instr) : Prop :=
  i.wellFormed = true →
    headerOp i.header = i.op.code ∧ reservedZero i.op i.header = true ∧
      ∀ rest, ∃ value data, takeOperands i.op.format (i.operandBytes ++ rest) = some (value, data, rest) ∧
        i.op.instr i.header value data = i

theorem reset : Statement .reset := fun _ => ⟨rfl, rfl, fun _ => ⟨_, _, rfl, rfl⟩⟩

theorem writeKey (index : BitVec 8) (value : Word) : Statement (.writeKey index value) := by
  intro _
  refine ⟨headerOp_header .., ?_, fun rest => ⟨value, [], ?_, ?_⟩⟩
  · exact reservedZero_header (op := .writeKey) BitVec.and_zero rfl
  · simp [Instr.op, Op.format, takeOperands, Instr.operandBytes]
  · simp [Op.instr, Instr.op, Instr.header]

theorem loadKey (bits : BitVec 16) : Statement (.loadKey bits) := by
  intro _
  refine ⟨headerOp_header .., ?_, fun rest => ⟨0, [], rfl, ?_⟩⟩
  · exact reservedZero_header (op := .loadKey) rfl BitVec.and_zero
  · simp [Op.instr, Instr.op, Instr.header]

theorem zeroKey : Statement .zeroKey := fun _ => ⟨rfl, rfl, fun _ => ⟨_, _, rfl, rfl⟩⟩

theorem startMessage (enc : Bool) : Statement (.startMessage enc) := by
  intro _
  cases enc <;> exact ⟨rfl, rfl, fun _ => ⟨_, _, rfl, rfl⟩⟩

theorem pushData (lw : BitVec 2) (data : List Byte) : Statement (.pushData lw data) := by
  intro hwf
  have ha : ∀ lw : BitVec 2, lw.setWidth 8 &&& headerA Op.pushData.format.mask = 0 := by decide
  have hlen : data.length < 2 ^ 32 := by simpa [Instr.wellFormed] using hwf
  refine ⟨headerOp_header .., ?_, fun rest => ⟨BitVec.ofNat 32 data.length, data, ?_, ?_⟩⟩
  · exact reservedZero_header (op := .pushData) (ha lw) rfl
  · have hn : (BitVec.ofNat 32 data.length).toNat = data.length := by
      rw [BitVec.toNat_ofNat]; exact Nat.mod_eq_of_lt hlen
    simp only [Instr.op, Op.format, takeOperands, Instr.operandBytes, List.append_assoc, takeWord_be32,
      Option.bind_some, hn, takeBytes_append, Option.map_some]
  · have h : ∀ lw : BitVec 2, (Sys2Proof.header .pushData (lw.setWidth 8) 0).extractLsb' 8 2 = lw := by decide
    simp only [Op.instr, Instr.op, Instr.header, h]

theorem endAad : Statement .endAad := fun _ => ⟨rfl, rfl, fun _ => ⟨_, _, rfl, rfl⟩⟩
theorem endPayload : Statement .endPayload := fun _ => ⟨rfl, rfl, fun _ => ⟨_, _, rfl, rfl⟩⟩
theorem readStatus : Statement .readStatus := fun _ => ⟨rfl, rfl, fun _ => ⟨_, _, rfl, rfl⟩⟩

theorem readKey (index : BitVec 8) : Statement (.readKey index) := by
  intro _
  refine ⟨headerOp_header .., ?_, fun rest => ⟨0, [], rfl, ?_⟩⟩
  · exact reservedZero_header (op := .readKey) BitVec.and_zero rfl
  · simp [Op.instr, Instr.op, Instr.header]

theorem readTag (index : BitVec 8) : Statement (.readTag index) := by
  intro _
  refine ⟨headerOp_header .., ?_, fun rest => ⟨0, [], rfl, ?_⟩⟩
  · exact reservedZero_header (op := .readTag) BitVec.and_zero rfl
  · simp [Op.instr, Instr.op, Instr.header]

theorem readIv (index : BitVec 8) : Statement (.readIv index) := by
  intro _
  refine ⟨headerOp_header .., ?_, fun rest => ⟨0, [], rfl, ?_⟩⟩
  · exact reservedZero_header (op := .readIv) BitVec.and_zero rfl
  · simp [Op.instr, Instr.op, Instr.header]

theorem snapshot : Statement .snapshot := fun _ => ⟨rfl, rfl, fun _ => ⟨_, _, rfl, rfl⟩⟩

theorem restore (record : List Byte) : Statement (.restore record) := by
  intro hwf
  have hlen : record.length = recordLength := by simpa [Instr.wellFormed] using hwf
  refine ⟨headerOp_header .., reservedZero_header (op := .restore) rfl rfl, fun rest => ⟨0, record, ?_, rfl⟩⟩
  simp [Instr.op, Op.format, takeOperands, Instr.operandBytes, ← hlen]

end Sys2Proof.Laws.HeaderFits
end

