-- ==== Sys2Proof/Laws/Record.lean ====
section
/-! SUPPORT. Reading the fields of a snapshot record back out of its bytes (46_control.md R348). -/

namespace Sys2Proof.Machine

/-- The length of a field inside the record. -/
theorem recordField_length (r : List Byte) (a n : Nat) (h : a + n ≤ r.length) : (recordField r a n).length = n := by
  simp [recordField]; omega

/-- Words as bytes: four bytes each. -/
theorem flatMap_be32_length (l : List Word) : (l.flatMap be32).length = 4 * l.length := by
  induction l with
  | nil => rfl
  | cons a l ih => simp only [List.flatMap_cons, List.length_append, be32_length, ih, List.length_cons]; omega

/-- Words as bytes: word `j` stands at byte `4 * j`. -/
theorem flatMap_be32_getElem (l : List Word) (j : Nat) (h : j < l.length) :
    ((l.flatMap be32).drop (4 * j)).take 4 = be32 l[j] := by
  induction l generalizing j with
  | nil => simp at h
  | cons a l ih =>
    cases j with
    | zero =>
      simp only [List.flatMap_cons, Nat.mul_zero, List.drop_zero, List.getElem_cons_zero]
      rw [show (4:Nat) = (be32 a).length from (be32_length a).symm, List.take_left]
    | succ j =>
      simp only [List.flatMap_cons, List.getElem_cons_succ]
      rw [show 4 * (j + 1) = (be32 a).length + 4 * j by rw [be32_length]; omega, List.drop_append,
         List.drop_eq_nil_of_le (by omega), List.nil_append, Nat.add_sub_cancel_left]
      exact ih j (by simpa using h)

/-- A one-byte segment is the byte read there. -/
theorem getD_of_take_one (r : List Byte) (k : Nat) (b : Byte) (h : (r.drop k).take 1 = [b]) : r.getD k 0 = b := by
  have := congrArg (fun l => l.getD 0 0) h
  simp [List.getD_eq_getElem?_getD] at this
  rw [List.getD_eq_getElem?_getD]; exact this

/-- A byte of the record is a byte of any field that spans it. -/
theorem getD_recordField (r : List Byte) (a n k : Nat) (h1 : a ≤ k) (h2 : k < a + n) :
    r.getD k 0 = (recordField r a n).getD (k - a) 0 := by
  simp only [recordField, List.getD_eq_getElem?_getD]
  rw [List.getElem?_take, if_pos (by omega), List.getElem?_drop]
  congr 2; omega

/-- A field is all zeros exactly when its bytes read 0. -/
theorem recordField_zero (r : List Byte) (a n : Nat) (h : a + n ≤ r.length) :
    (recordField r a n).all (· == 0) = true ↔ ∀ k, a ≤ k → k < a + n → (r.getD k 0).toNat = 0 := by
  rw [List.all_eq_true]
  constructor
  · intro hx k h1 h2
    have hk : k < r.length := by omega
    have : r.getD k 0 = r[k] := by simp [List.getD_eq_getElem?_getD, hk]
    rw [this]
    have := hx r[k] (by
      rw [recordField, List.mem_iff_getElem]
      refine ⟨k - a, by simp; omega, ?_⟩
      rw [List.getElem_take, List.getElem_drop]
      congr 1; omega)
    rw [eq_of_beq this]; rfl
  · intro hx b hb
    rw [recordField, List.mem_iff_getElem] at hb
    obtain ⟨i, hi, rfl⟩ := hb
    simp only [List.length_take, List.length_drop] at hi
    rw [List.getElem_take, List.getElem_drop]
    have := hx (a + i) (by omega) (by omega)
    have e : r.getD (a + i) 0 = r[a + i] := by simp [List.getD_eq_getElem?_getD, (by omega : a + i < r.length)]
    rw [e] at this
    rw [beq_iff_eq]
    exact BitVec.eq_of_toNat_eq this

/-- A word of four bytes is 0 exactly when they are. -/
theorem wordOf_eq_zero (bs : List Byte) (h : bs.length = 4) : wordOf bs = 0 ↔ ∀ b ∈ bs, b = 0 := by
  match bs, h with
  | [a, b, c, d], _ =>
    constructor
    · intro hz
      have := congrArg BitVec.toNat hz
      rw [← word_eq_wordOf, word_toNat] at this
      have h1 := a.isLt; have h2 := b.isLt; have h3 := c.isLt; have h4 := d.isLt
      simp at this
      intro x hx
      simp at hx
      rcases hx with rfl | rfl | rfl | rfl <;> (apply BitVec.eq_of_toNat_eq; simp; omega)
    · intro hz
      simp at hz
      obtain ⟨rfl, rfl, rfl, rfl⟩ := hz
      rfl

/-- Word `j` of an array of the record. -/
theorem recordWords_getElem (r : List Byte) (n off j : Nat) (h : j < n) :
    (recordWords r n off)[j] = wordOf (recordField r (off + 4 * j) 4) := by
  rw [recordWords, padWords_getElem]
  simp [List.getD_eq_getElem?_getD, h]

/-- The tail of a word array is all zeros exactly when each of its words is. -/
theorem drop_all_zero {n} (v : Vector Word n) (m : Nat) : (v.toList.drop m).all (· == 0) = true ↔ ∀ j (h :
    j < n), m ≤ j → v[j] = 0 := by
  rw [List.all_eq_true]
  constructor
  · intro hx j hj hm
    have := hx v[j] (by
      rw [List.mem_iff_getElem]
      refine ⟨j - m, by simp; omega, ?_⟩
      rw [List.getElem_drop]
      simp only [Vector.getElem_toList]
      congr 1; omega)
    exact eq_of_beq this
  · intro hx b hb
    rw [List.mem_iff_getElem] at hb
    obtain ⟨i, hi, rfl⟩ := hb
    rw [List.getElem_drop]
    simp only [Vector.getElem_toList]
    rw [beq_iff_eq]
    simp at hi
    exact hx _ (by omega) (by omega)

/-- A PHASE code below 7 is no TAG phase. -/
theorem ofCode_isTag (c : Nat) (h : c ≤ 10) : ((Phase.ofCode c).getD .idle).isTag = false ↔ c < 7 := by
  interval_cases c <;> decide

/-- PHASE code 0 is IDLE. -/
theorem ofCode_idle (c : Nat) (h : c ≤ 10) : ((Phase.ofCode c).getD .idle) = .idle ↔ c = 0 := by
  interval_cases c <;> decide

/-- KEY_LEN code 0 is no length. -/
theorem ofCode_unset (c : Nat) (h : c ≤ 3) : ((KeyLen.ofCode c).getD .unset) = .unset ↔ c = 0 := by
  interval_cases c <;> decide

/-- The words of a key, from the KEY_LEN code. -/
theorem ofCode_nk (c : Nat) (h : c ≤ 3) (h0 : c ≠ 0) : ((KeyLen.ofCode c).getD .unset).nk = 2 * (c + 1) := by
  interval_cases c <;> first | exact absurd rfl h0 | rfl

/-- Four bytes as a word and back. -/
theorem be32_wordOf (bs : List Byte) (h : bs.length = 4) : be32 (wordOf bs) = bs := by
  match bs, h with
  | [a, b, c, d], _ => rw [← word_eq_wordOf, be32_word]

/-- Sixteen bytes as a block and back. -/
theorem be128_blockOf (bs : List Byte) (h : bs.length = 16) : be128 (blockOf bs) = bs := by
  have := beNat_lt bs
  rw [h] at this
  rw [be128, blockOf, BitVec.toNat_ofNat, Nat.mod_eq_of_lt (by simpa using this)]
  have := beBytes_beNat bs
  rw [h] at this; exact this

/-- Eight bytes as a 64-bit number and back. -/
theorem be64_beNat (bs : List Byte) (h : bs.length = 8) : be64 (BitVec.ofNat 64 (beNat bs)) = bs := by
  have := beNat_lt bs
  rw [h] at this
  rw [be64, BitVec.toNat_ofNat, Nat.mod_eq_of_lt (by simpa using this)]
  have := beBytes_beNat bs
  rw [h] at this; exact this

/-- A buffer field whose unused bytes are 0 is its used bytes, filled up with zeros. -/
theorem zeroFill_recordField (r : List Byte) (off w n : Nat) (hw : w ≤ n) (hl : off + n ≤ r.length) (hz :
    ∀ k, off + w ≤ k → k < off + n → (r.getD k 0).toNat = 0) :
    (r.drop off).take n = zeroFill n (recordField r off w) := by
  have hlen := recordField_length r off w (by omega)
  rw [zeroFill, hlen]
  have e : (r.drop off).take n = recordField r off w ++ ((r.drop off).take n).drop w := by
    rw [recordField]
    have : (r.drop off).take w = ((r.drop off).take n).take w := by rw [List.take_take]; congr 1; omega
    rw [this, List.take_append_drop]
  rw [e]
  congr 1
  apply List.eq_replicate_iff.mpr
  refine ⟨by simp; omega, fun b hb => ?_⟩
  have := (recordField_zero r (off + w) (n - w) (by omega)).mpr (fun k h1 h2 => hz k h1 (by omega))
  rw [List.all_eq_true] at this
  apply eq_of_beq (this b ?_)
  rw [recordField]
  rw [List.drop_take, List.drop_drop] at hb
  exact hb

end Sys2Proof.Machine
end

