-- ==== Sys2Proof/Tests/Slice0.lean ====
section
/-! SUPPORT. Tests on fixed values. Expected values are those of 95_test_vectors.md (V and P numbers) and of the rules'
own examples; the words are written out from the encodings of 30_encoding.md. -/

namespace Sys2Proof.Tests

-- One theorem at a time: each evaluation in the kernel would otherwise wait in a thread of its own.
set_option Elab.async false

open Sys2Proof Sys2Proof.Machine

/-! ## Helpers -/

/-- Whether an operation answers a next state with a property. -/
def gives (i : Instr) (s : State) (p : State → Bool) : Bool :=
  match exec i s with
  | .next t => p t
  | .fault _ => false
  | .refused _ => false

/-- Whether a step answers a next state with a property. -/
def steps (s : State) (p : State → Bool) : Bool :=
  match step s with
  | .next t => p t
  | .fault _ => false
  | .refused _ => false

/-- A machine with a record and a command stream. -/
def machine (st : Engine) (input : List Byte := []) : State := { State.reset with st := st, input := input }

/-- The key registers of V5.2: K ‖ K. -/
def keyKK : Vector Word 8 :=
  #v[0xfeffe992, 0x8665731c, 0x6d6a8f94, 0x67308308, 0xfeffe992, 0x8665731c, 0x6d6a8f94, 0x67308308]

/-- The reset record with K ‖ K written. -/
def written : Engine := { Engine.reset false with key := keyKK }

/-- The reset record with the 128-bit zero key loaded. -/
def loaded : Engine := loadedKey .k128 (Engine.reset false)

/-- A message under the 128-bit zero key and the zero nonce, at the start of a phase past the IV words. -/
def message (enc : Bool) (phase : Phase) : Engine := { gcmBegin (startedMessage enc loaded) with phase := phase }

/-- The record of P4 (46_control.md R353). -/
def recordP4 : List Byte :=
  beBytes 32 0xfeffe9928665731c6d6a8f946730830800000000000000000000000000000000 ++
  beBytes 32 0x01250600feffe9928665731c6d6a8f9467308308000000000000000000000000 ++
  beBytes 32 0x00000000cafebabefacedbaddecaf88800000000000000000000000000000000 ++
  beBytes 32 0x0000000001150000cafebabefacedbaddecaf8880000000354f5e1b2b5a8f952 ++
  beBytes 32 0x5c23924751a3ca510000000000000014000000000000001404e3aa212f000000 ++
  beBytes 9 0x000000000000000004

/-- The record of P4, restored. -/
def stateP4 : State := machine (rederive (recordEngine recordP4))

/-! ## Well-formedness -/

theorem test_wellFormed_restore_short : (Instr.restore (List.replicate 168 0)).wellFormed = false := by decide +kernel
theorem test_wellFormed_restore_long : (Instr.restore (List.replicate 170 0)).wellFormed = false := by decide +kernel
theorem test_wellFormed_push_too_long : ∀ n, 2 ^ 32 ≤ n → (Instr.pushData 0 (List.replicate n 0)).wellFormed = false := by
  intro n h
  simp only [Instr.wellFormed, List.length_replicate, Nat.not_lt.mpr h, decide_false]

/-! ## Decoding: words written out from the encodings (V1.1 to V1.18) -/

theorem test_decode_reset : decode [0x00, 0x00, 0x00, 0x00] = .command .reset [] := by decide +kernel
theorem test_decode_writeKey : decode [0x00, 0x00, 0x05, 0x01, 0xca, 0xfe, 0xf0, 0x0d] =
    .command (.writeKey 5 0xcafef00d) [] := by decide +kernel
theorem test_decode_loadKey : decode [0x00, 0xc0, 0x00, 0x02] = .command (.loadKey 192) [] := by decide +kernel
theorem test_decode_zeroKey : decode [0x00, 0x00, 0x00, 0x03] = .command .zeroKey [] := by decide +kernel
theorem test_decode_startMessage : decode [0x00, 0x00, 0x01, 0x04] = .command (.startMessage true) [] ∧
    decode [0x00, 0x00, 0x00, 0x04] = .command (.startMessage false) [] := by decide +kernel
theorem test_decode_pushData : decode [0x00, 0x00, 0x03, 0x05, 0x00, 0x00, 0x00, 0x07, 1, 2, 3, 4, 5, 6, 7, 0xaa] =
    .command (.pushData 3 [1, 2, 3, 4, 5, 6, 7]) [0xaa] := by decide +kernel
theorem test_decode_pushData_empty : decode [0x00, 0x00, 0x00, 0x05, 0x00, 0x00, 0x00, 0x00] =
    .command (.pushData 0 []) [] := by decide +kernel
theorem test_decode_endAad : decode [0x00, 0x00, 0x00, 0x06] = .command .endAad [] := by decide +kernel
theorem test_decode_endPayload : decode [0x00, 0x00, 0x00, 0x07] = .command .endPayload [] := by decide +kernel
theorem test_decode_readStatus : decode [0x00, 0x00, 0x00, 0x08] = .command .readStatus [] := by decide +kernel
theorem test_decode_readKey : decode [0x00, 0x00, 0x07, 0x09] = .command (.readKey 7) [] := by decide +kernel
theorem test_decode_readTag : decode [0x00, 0x00, 0x03, 0x0a] = .command (.readTag 3) [] := by decide +kernel
theorem test_decode_readIv : decode [0x00, 0x00, 0x02, 0x0b] = .command (.readIv 2) [] := by decide +kernel
theorem test_decode_snapshot : decode [0x00, 0x00, 0x00, 0x0c] = .command .snapshot [] := by decide +kernel
theorem test_decode_restore : decode ([0x00, 0x00, 0x00, 0x0d] ++ recordP4) = .command (.restore recordP4) [] := by
  decide +kernel

/-- V1.10 and V1.12 to V1.15: a 1 in a reserved bit, whose command is still as long as its format says. -/
theorem test_decode_reserved :
    decode [0x00, 0x00, 0x04, 0x06] = .reservedBits [] ∧
    decode [0x00, 0x00, 0x05, 0x05, 0x00, 0x00, 0x00, 0x01, 0xee, 0x77] = .reservedBits [0x77] ∧
    decode [0x00, 0x00, 0x02, 0x04] = .reservedBits [] ∧
    decode [0x00, 0x01, 0x00, 0x01, 0x00, 0x00, 0x00, 0x01] = .reservedBits [] ∧
    decode [0x00, 0x80, 0x01, 0x02] = .reservedBits [] := by decide +kernel

/-- V1.17: unassigned opcodes, one word long. -/
theorem test_decode_unassigned :
    decode [0x00, 0x00, 0x00, 0x0e, 0x55] = .unassignedOpcode [0x55] ∧
    decode [0x00, 0x00, 0x00, 0xff] = .unassignedOpcode [] := by decide +kernel

theorem test_decode_truncated :
    decode [0x00, 0x00, 0x05] = .truncated ∧
    decode [0x00, 0x00, 0x00, 0x05, 0x00, 0x00, 0x00, 0x02, 0x01] = .truncated := by decide +kernel

theorem test_decodeTableWord :
    decodeTableWord 64 0xcafef00d00000501 = some (.writeKey 5 0xcafef00d) ∧
    decodeTableWord 32 0x01000002 = some (.loadKey 256) ∧
    decodeTableWord 32 0x00000005 = some (.pushData 0 []) ∧
    decodeTableWord 32 0x00000406 = none := by decide +kernel

theorem test_withFetchWord : steps (State.reset.withFetchWord 32 0x00000104)
    (fun t => t.st.phase == .iv 0 && t.st.encrypt && t.input == []) = true := by decide +kernel

/-! ## Components -/

/-- V2.1 to V2.3. -/
theorem test_field : gmul8 0x57 0x13 = 0xfe ∧ gmul8 0x57 0x83 = 0xc1 ∧ ginv8 0x53 = 0xca ∧
    sbox 0x00 = 0x63 ∧ sbox 0x53 = 0xed ∧ sbox 0xff = 0x16 := by decide +kernel

/-- V2.6: FIPS-197 A.1. -/
theorem test_expandKey :
    (expandKey #v[0x2b7e1516, 0x28aed2a6, 0xabf71588, 0x09cf4f3c, 0, 0, 0, 0] .k128)[4] = 0xa0fafe17 ∧
    (expandKey #v[0x2b7e1516, 0x28aed2a6, 0xabf71588, 0x09cf4f3c, 0, 0, 0, 0] .k128)[43] = 0xb6630ca6 := by
  decide +kernel

/-- V2.11: FIPS-197 C.2. -/
theorem test_encryptBlock :
    encryptBlock (expandKey #v[0x00010203, 0x04050607, 0x08090a0b, 0x0c0d0e0f, 0x10111213, 0x14151617, 0, 0] .k192) 12
      0x00112233445566778899aabbccddeeff = 0xdda97ca4864cdfe06eaf70a0ec0d7191 := by decide +kernel

/-- V3.5. -/
theorem test_gf128Mul : gf128Mul 0x66e94bd4ef8a2c3b884cfa59ca342b2e 0x66e94bd4ef8a2c3b884cfa59ca342b2e =
    0xa569901bb4b18906f5059d24465c904d := by decide +kernel

/-- V4.0a. -/
theorem test_inc32_wraps : inc32 0xffffffffffffffffffffffffffffffff = 0xffffffffffffffffffffffff00000000 := by
  decide +kernel

/-! ## Operations -/

/-- V7.8, V7.1. -/
theorem test_reset : gives .reset stateP4 (fun t => t.st == Engine.reset false && statusWord t.st == 0) = true := by
  decide +kernel
theorem test_reset_zeroed : gives .reset { stateP4 with keyZeroedAtReset := true }
    (fun t => t.st == Engine.reset true && statusWord t.st == 0x00000010) = true := by decide +kernel

/-- V5.1 row 3: the write clears KEY_ZEROED. -/
theorem test_writeKey : gives (.writeKey 7 0x11111111) (machine (Engine.reset true))
    (fun t => t.st.key == #v[0, 0, 0, 0, 0, 0, 0, 0x11111111] && statusWord t.st == 0) = true := by decide +kernel
/-- P3 row 4. -/
theorem test_writeKey_range : gives (.writeKey 8 1) State.reset
    (fun t => t.response.status == .protocolViolation && statusWord t.st == 0x00040000) = true := by decide +kernel

/-- V5.2 row 9. -/
theorem test_loadKey : gives (.loadKey 192) (machine written) (fun t =>
    t.st.activeKey == #v[0xfeffe992, 0x8665731c, 0x6d6a8f94, 0x67308308, 0xfeffe992, 0x8665731c, 0, 0] &&
    t.st.rk[51] == 0x9c851999 && t.st.rk[52] == 0 && statusWord t.st == 0x00002008) = true := by decide +kernel
/-- V5.2 row 11: an invalid length unloads the key and keeps KEY_LEN. -/
theorem test_loadKey_invalid : gives (.loadKey 0) (machine (loadedKey .k256 written))
    (fun t => t.response.status == .invalidKeyLength && statusWord t.st == 0x00013000) = true := by decide +kernel

/-- V5.2 row 13. -/
theorem test_zeroKey : gives .zeroKey (machine (loadedKey .k128 written)) (fun t =>
    t.st.key == Vector.replicate 8 0 && t.st.activeKey == Vector.replicate 8 0 && t.st.rk == Vector.replicate 60 0 &&
    statusWord t.st == 0x00000010) = true := by decide +kernel

theorem test_readKey : gives (.readKey 1) (machine written) (fun t => t.response.value == 0x8665731c) = true := by
  decide +kernel
/-- V5.2 row 16. -/
theorem test_readKey_range : gives (.readKey 8) (machine (Engine.reset true))
    (fun t => t.response == ⟨.protocolViolation, [], 0, []⟩ && statusWord t.st == 0x00040010) = true := by decide +kernel

/-- V6.1 row 2, from a message in progress. -/
theorem test_startMessage : gives (.startMessage true) (machine (message false (.tag 2))) (fun t =>
    statusWord t.st == 0x00001168 && t.st.h == 0 && t.st.kpos == 16) = true := by decide +kernel

/-- V6.13: 19 bytes from IV0 end in AAD with three bytes in WBUF; P4, part b, row 2: payload after a restore. -/
theorem test_pushData :
    gives (.pushData 0 (beBytes 19 0xcafebabefacedbaddecaf88800000000feedfa))
      (machine (startedMessage false (loadedKey .k128 written))) (fun t =>
        statusWord t.st == 0x00185528 && t.st.wbuf == [0xfe, 0xed, 0xfa] &&
        t.st.ej0 == 0x3247184b3c4f69a44dbcd22887bbb418) = true ∧
    gives
      (.pushData 0 (beBytes 39 0x34f7da2e4c303d8a318a721c3c0c95956809532fcf0e2449a6b525b16aedf5aa0de657ba637b39)) stateP4
      (fun t => statusWord t.st == 0x00005668 && t.response.out ==
        beBytes 40 0x2c02a4e035c17e2329aca12e21d514b25466931c7d8f6a5aac84aa051ba30b396a0aac973d58e091) = true := by
  decide +kernel

/-- V6.11 rows 7 and 13: the last tag bit flipped, and the right tag. -/
theorem test_pushData_tag :
    gives (.pushData 0 (beBytes 16 0x58e2fccefa7e3061367f1d57a4e7455b)) (machine (message false (.tag 0)))
      (fun t => t.response.status == .authenticationFailed && statusWord t.st == 0x0003500a) = true ∧
    gives (.pushData 0 (beBytes 16 0x58e2fccefa7e3061367f1d57a4e7455a)) (machine (message false (.tag 0)))
      (fun t => t.response.status == .ok && statusWord t.st == 0x0000500e) = true := by decide +kernel

/-- V3.9: the padded AAD block of TC4. -/
theorem test_endAad : gives .endAad (machine { message true .aad with
      h := 0xb83b533708bf535d0aa6e52980d53b78
      x := 0xed56aaf8a72d67049fdb9228edba1322
      hbuf := [0xab, 0xad, 0xda, 0xd2] })
    (fun t => t.st.x == 0xcd47221ccef0554ee4bb044c88150352 && t.st.hbuf == [] && t.st.phase == .payload) = true := by
  decide +kernel
/-- P3 row 17. -/
theorem test_endAad_phase : gives .endAad (machine (message true .payload))
    (fun t => t.response.status == .protocolViolation && statusWord t.st == 0x00045668) = true := by decide +kernel

/-- TC1: the tag of the empty message. -/
theorem test_endPayload : gives .endPayload (machine (message true .payload)) (fun t =>
    t.st.tag == #v[0x58e2fcce, 0xfa7e3061, 0x367f1d57, 0xa4e7455a] && statusWord t.st == 0x0000504a) = true := by
  decide +kernel
/-- P3 row 25: after a reload in the middle of a message. -/
theorem test_endPayload_reloaded : gives .endPayload (machine { message true .payload with msgKeyValid := false })
    (fun t => t.response.status == .protocolViolation && statusWord t.st == 0x00041668) = true := by decide +kernel

theorem test_readStatus : gives .readStatus stateP4
    (fun t => t.response.value == 0x00085668 && t.st == stateP4.st) = true := by decide +kernel
theorem test_readTag : gives (.readTag 1) (machine { loaded with tag := #v[1, 2, 3, 4] })
    (fun t => t.response.value == 2) = true := by decide +kernel
theorem test_readIv : gives (.readIv 2) stateP4 (fun t => t.response.value == 0xdecaf888) = true := by decide +kernel
/-- V6.1 row 13. -/
theorem test_readIv_range : gives (.readIv 4) stateP4 (fun t => t.response == ⟨.protocolViolation, [], 0, []⟩) = true := by
  decide +kernel

/-- V7.4. -/
theorem test_snapshot_reset : gives .snapshot (machine (Engine.reset true)) (fun t =>
    t.response.record == List.replicate 33 0 ++ [0x02] ++ List.replicate 134 0 ++ [0x10]) = true := by decide +kernel
/-- P4: the record of the restored state is the record. -/
theorem test_snapshot : gives .snapshot stateP4 (fun t => t.response.record == recordP4) = true := by decide +kernel

/-- P4, part b, row 1. -/
theorem test_restore : gives (.restore recordP4) State.reset (fun t =>
    statusWord t.st == 0x00085668 && t.st.h == 0xb83b533708bf535d0aa6e52980d53b78 &&
    t.st.j0 == 0xcafebabefacedbaddecaf88800000001) = true := by decide +kernel
/-- P4, part c, row 1. -/
theorem test_restore_invalid : gives (.restore (recordP4.set 34 0x0b)) State.reset
    (fun t => t.response.status == .protocolViolation && statusWord t.st == 0x00040000) = true := by decide +kernel

/-- P3 row 1, as a step: a malformed header writes LAST_STATUS alone. -/
theorem test_step_malformed : steps (machine loaded [0x00, 0x00, 0x04, 0x06])
    (fun t => t.st == { loaded with lastStatus := .protocolViolation } && t.input == []) = true := by decide +kernel

/-! ## Witnesses

For every obligation with hypotheses, a concrete state and operands that meet them together; one for each clause, at a
boundary of its range. -/

/-- A record that meets the invariant when no key is loaded and no message is past its IV words. -/
theorem inv_unloaded {st : Engine} (h1 : st.keyLoaded = false) (h2 : st.msgKeyValid = false) (h3 : st.encrypt = true →
    st.phase.isTag = false) (h4 : st.phase = .idle → st.wbuf = []) (h5 : st.wbuf.length ≤ 3) (h6 : st.hbuf.length ≤ 15) :
    st.Inv :=
  ⟨fun _ => h1, by simp [h1], by simp [h1], by simp [h1], by simp [h2], h3, h4, h5, h6, by simp [h2]⟩

/-- A next state with a property, from an evaluation. -/
theorem next_of {i : Instr} {s : State} {p : State → Bool} (h : gives i s p = true) :
    ∃ t, exec i s = .next t ∧ p t = true := by
  unfold gives at h
  split at h
  · exact ⟨_, by assumption, h⟩
  · cases h
  · cases h

/-- A next state, from an evaluation. -/
theorem next_exists {i : Instr} {s : State} (h : gives i s (fun _ => true) = true) : ∃ t, exec i s = .next t :=
  let ⟨t, ht, _⟩ := next_of h
  ⟨t, ht⟩

/-- Whether a push, and then another, both answer next states that are not fatal. -/
def pushesTwice (lw : BitVec 2) (d1 d2 : List Byte) (s : State) : Bool :=
  gives (.pushData 0 d1) s (fun t => !t.response.status.fatal &&
    gives (.pushData lw d2) t (fun u => !u.response.status.fatal))

/-- The invariant of a message in progress. -/
theorem witness_Inv : (machine (message true .payload)).Inv where
  zeroed_unloaded := by decide +kernel
  loaded_len := by decide +kernel
  loaded_schedule := by decide +kernel
  loaded_rest := fun _ w hw => by
    have h : ((message true .payload).activeKey.toList.drop (message true .payload).keyLen.nk).all (· == 0) = true := by
      decide +kernel
    exact eq_of_beq (List.all_eq_true.mp h w hw)
  valid_loaded := by decide +kernel
  encrypt_not_tag := by decide +kernel
  idle_wbuf := by decide +kernel
  wbuf_length := by decide +kernel
  hbuf_length := by decide +kernel
  derived_exact := fun _ _ => ⟨by decide +kernel, by decide +kernel, by decide +kernel, by decide +kernel⟩

theorem witness_DecodeInvertsEncode :
    (Instr.pushData 3 [1, 2, 3]).wellFormed = true ∧ (Instr.restore recordP4).wellFormed = true ∧
    (Instr.writeKey 255 0xffffffff).wellFormed = true := by decide +kernel

theorem witness_EncodeInvertsDecode :
    decode [0x00, 0x00, 0x01, 0x05, 0x00, 0x00, 0x00, 0x01, 0xaa, 0xbb] = .command (.pushData 1 [0xaa]) [0xbb] := by
  decide +kernel

theorem witness_UnassignedOpcodesRejected :
    0x0E ≤ (headerOp 0x0000000e).toNat ∧ (machine loaded (be32 0x0000000e)).input = be32 0x0000000e ++ [] ∧
    0x0E ≤ (headerOp 0xffffffff).toNat ∧ (machine loaded (be32 0xffffffff)).input = be32 0xffffffff ++ [] := by
  decide +kernel

theorem witness_ReservedBitsRejected :
    (headerOp 0x00000406 = Op.endAad.code ∧ (0x00000406 : Word) &&& 0xFFFFFF00 ≠ 0 ∧
      takeOperands Op.endAad.format [] = some (0, [], [])) ∧
    (headerOp 0x80000005 = Op.pushData.code ∧ (0x80000005 : Word) &&& 0xFFFFFC00 ≠ 0 ∧
      takeOperands Op.pushData.format [0, 0, 0, 1, 0xaa, 0xbb] = some (1, [0xaa], [0xbb])) ∧
    (headerOp 0x01000102 = Op.loadKey.code ∧ (0x01000102 : Word) &&& 0x0000FF00 ≠ 0 ∧
      takeOperands Op.loadKey.format [] = some (0, [], [])) := by decide +kernel

theorem witness_TruncatedCommandRefused :
    (Instr.writeKey 1 2).wellFormed = true ∧
    (0 < 1 ∧ 1 < (encode (.writeKey 1 2)).length ∧
      (machine loaded [0x00]).input = (encode (.writeKey 1 2)).take 1) ∧
    (0 < 7 ∧ 7 < (encode (.writeKey 1 2)).length ∧
      (machine loaded [0x00, 0x00, 0x01, 0x01, 0x00, 0x00, 0x00]).input = (encode (.writeKey 1 2)).take 7) := by
  decide +kernel

theorem witness_StepRunsDecodedCommand :
    decode (machine loaded [0x00, 0x00, 0x00, 0x06, 0x77]).input = .command .endAad [0x77] := by decide +kernel

theorem witness_NothingHappensBetweenOperations : (machine loaded).input = [] := rfl

/-- A fatal status other than InvalidKeyLength, and that one. -/
theorem witness_FatalStatusWritesOnlyLastStatus :
    (∃ t, exec .endAad (machine loaded) = .next t ∧
      (t.response.status.fatal && t.response.status != .invalidKeyLength) = true) ∧
    (∃ t, exec (.loadKey 127) (machine loaded) = .next t ∧
      (t.response.status.fatal && t.response.status == .invalidKeyLength) = true) :=
  ⟨next_of (by decide +kernel), next_of (by decide +kernel)⟩

theorem witness_LastStatusRecordsTheStatus :
    (∃ t, exec .zeroKey (machine loaded) = .next t ∧ writesStatus .zeroKey = true) ∧
    (∃ t, exec .readStatus (machine loaded) = .next t ∧ (!writesStatus .readStatus) = true) :=
  ⟨next_of (by decide +kernel), next_of (by decide +kernel)⟩

theorem witness_ParametersAreNeverWritten : ∃ t, exec .reset (machine (Engine.reset true) [0x00]) = .next t :=
  next_exists (by decide +kernel)

/-- READ_TAG meets the hypotheses of every clause. -/
theorem witness_FieldsKeepTheirWriters :
    (∃ t, exec (.readTag 0) stateP4 = .next t) ∧ Instr.readTag 0 ≠ .reset ∧ (∀ r, Instr.readTag 0 ≠ .restore r) ∧
    (∀ k v, Instr.readTag 0 ≠ .writeKey k v) ∧ Instr.readTag 0 ≠ .zeroKey ∧ (∀ b, Instr.readTag 0 ≠ .loadKey b) ∧
    (∀ e, Instr.readTag 0 ≠ .startMessage e) ∧ (∀ l d, Instr.readTag 0 ≠ .pushData l d) ∧
    Instr.readTag 0 ≠ .endPayload ∧ Instr.readTag 0 ≠ .endAad :=
  ⟨next_exists (by decide +kernel), by simp, by simp, by simp, by simp, by simp, by simp, by simp, by simp, by simp⟩

theorem witness_WriteKeyResult : (7 : BitVec 8).toNat < 8 ∧ 8 ≤ (8 : BitVec 8).toNat := by decide

theorem witness_LoadKeyResult :
    ((127 : BitVec 16) ≠ 128 ∧ (127 : BitVec 16) ≠ 192 ∧ (127 : BitVec 16) ≠ 256) ∧
    (KeyLen.k256 ≠ .unset ∧ (256 : BitVec 16).toNat = KeyLen.k256.bits) ∧
    (machine (Engine.reset true)).st.keyZeroed = true ∧ (machine written).st.keyZeroed = false := by decide +kernel

/-- The first and last word of each clause, for a 192-bit key. -/
theorem witness_ExpandKeyRecurrence :
    KeyLen.k192 ≠ .unset ∧ 5 < KeyLen.k192.nk ∧ (KeyLen.k192.nk ≤ 6 ∧ 6 < 4 * (KeyLen.k192.nr + 1)) ∧
    51 < 4 * (KeyLen.k192.nr + 1) ∧ (4 * (KeyLen.k192.nr + 1) ≤ 52 ∧ 52 < 60) := by decide

theorem witness_ReadKeyResult : (7 : BitVec 8).toNat < 8 ∧ 8 ≤ (8 : BitVec 8).toNat := by decide

theorem witness_WipedKeyReadsZero : (7 : BitVec 8).toNat < 8 ∧ KeyLen.k128 ≠ .unset := by decide

theorem witness_UnloadedKeyIsNeverUsed :
    (machine (startedMessage true written)).Inv ∧ (machine (startedMessage true written)).st.keyLoaded = false ∧
    ∃ t, exec (.pushData 0 [1, 2, 3, 4, 5]) (machine (startedMessage true written)) = .next t :=
  ⟨inv_unloaded rfl rfl (fun _ => rfl) (fun _ => rfl) (by decide +kernel) (by decide +kernel), rfl, next_exists (by decide +kernel)⟩

theorem witness_StartMessageResult :
    (∃ t, exec .endAad (machine loaded) = .next t) ∧ (∀ enc, Instr.endAad ≠ .startMessage enc) ∧
    Instr.endAad ≠ .reset ∧ (∀ r, Instr.endAad ≠ .restore r) :=
  ⟨next_exists (by decide +kernel), by simp, by simp, by simp⟩

theorem witness_KeyCheckOutcomes :
    (7 : BitVec 8).toNat < 8 ∧ (machine written).st.keyZeroed = false ∧
    ((129 : BitVec 16) ≠ 128 ∧ (129 : BitVec 16) ≠ 192 ∧ (129 : BitVec 16) ≠ 256) ∧ KeyLen.k192 ≠ .unset := by
  decide +kernel

theorem witness_PushInIdleRefused : (machine loaded).st.phase = .idle := rfl

theorem witness_PushMarkerChecked :
    ((1 : BitVec 2) ≠ 0 ∧ ((machine (message true .aad)).st.wbuf.length + ([] : List Byte).length) % 4 ≠
      (1 : BitVec 2).toNat) ∧
    ((message true .aad).phase ≠ .idle ∧ ((message true .aad).phase.usesKey = true → keyCheck (message true .aad) = .ok)) := by
  decide +kernel

/-- A push with a spoiled key and an agreeing marker; three bytes into IV0; one byte, and none at all, into TAG3 with bytes
waiting. -/
theorem witness_PushChecksTheKeyOnEntry :
    ((message true .aad).phase.usesKey = true ∧ keyCheck { message true .aad with msgKeyValid := false } ≠ .ok) ∧
    ((3 : BitVec 2) ≠ 0 → ((message true .aad).wbuf.length + [1, 2, 3].length) % 4 = (3 : BitVec 2).toNat) ∧
    ((startedMessage true loaded).phase ≠ .idle ∧
      ((startedMessage true loaded).phase.usesKey = true → keyCheck (startedMessage true loaded) = .ok) ∧
      ((startedMessage true loaded).wbuf ++ [(1 : Byte), 2, 3]).length < 4) ∧
    (∀ data ∈ [[], [(7 : Byte)]],
      let st := { message false (.tag 3) with wbuf := [1, 2] }
      st.phase ≠ .idle ∧ (st.phase.usesKey = true → keyCheck st = .ok) ∧ (st.wbuf ++ data).length < 4) := by
  decide +kernel

/-- IV2 with a full word, and IV3 with a one-byte last word, with a key and without one. -/
theorem witness_PushIvWord :
    ({ startedMessage true loaded with phase := .iv 2 }.phase = .iv 2 ∧
      Cuts 0 ([] ++ [1, 2, 3, 4, 5]) [1, 2, 3, 4] [5] ∧ (2 : Fin 4).val < 3) ∧
    ({ startedMessage true loaded with phase := .iv 3 }.phase = .iv 3 ∧ Cuts 1 ([] ++ [1]) [1] [] ∧
      (startedMessage true loaded).keyLoaded = true) ∧
    ({ startedMessage true written with phase := .iv 3 }.phase = .iv 3 ∧ Cuts 1 ([] ++ [1]) [1] [] ∧
      (startedMessage true written).keyLoaded = false) :=
  ⟨⟨rfl, ⟨rfl, .inl (by decide +kernel)⟩, by decide⟩, ⟨rfl, ⟨rfl, .inr (by decide +kernel)⟩, rfl⟩, ⟨rfl, ⟨rfl, .inr (by decide +kernel)⟩, rfl⟩⟩

/-- Sixteen bytes at IV0, one marked byte at IV3, and twelve bytes and a marked one at IV0, each with no key. -/
theorem witness_PushReachingIv3NeedsAKey :
    ((startedMessage true written).phase = .iv 0 ∧ (startedMessage true written).keyLoaded = false ∧
      4 - (0 : Fin 4).val ≤ ((startedMessage true written).wbuf.length + (List.replicate 16 (0 : Byte)).length) / 4 + 0) ∧
    ({ startedMessage true written with phase := .iv 3 }.phase = .iv 3 ∧
      ((startedMessage true written).wbuf.length + [(1 : Byte)].length) % 4 = (1 : BitVec 2).toNat ∧
      4 - (3 : Fin 4).val ≤ ((startedMessage true written).wbuf.length + [(1 : Byte)].length) / 4 + 1) ∧
    ((startedMessage true written).wbuf.length + (List.replicate 13 (0 : Byte)).length) % 4 = (1 : BitVec 2).toNat ∧
    4 - (0 : Fin 4).val ≤ ((startedMessage true written).wbuf.length + (List.replicate 13 (0 : Byte)).length) / 4 + 1 := by
  decide +kernel

/-- Five bytes without a marker, none at all, and three with one. -/
theorem witness_PushAad :
    (message true .aad).phase = .aad ∧ (message true .aad).msgKeyValid = true ∧
    Cuts 0 ((message true .aad).wbuf ++ [1, 2, 3, 4, 5]) [1, 2, 3, 4] [5] ∧
    Cuts 0 ((message true .aad).wbuf ++ []) [] [] ∧
    Cuts 3 ((message true .aad).wbuf ++ [1, 2, 3]) [1, 2, 3] [] :=
  ⟨rfl, rfl, ⟨rfl, .inl (by decide +kernel)⟩, ⟨rfl, .inl (by decide +kernel)⟩, ⟨rfl, .inr (by decide +kernel)⟩⟩

theorem witness_PushPayload :
    (message false .payload).phase = .payload ∧ (message false .payload).msgKeyValid = true ∧
    Cuts 0 ((message false .payload).wbuf ++ [1, 2, 3, 4, 5]) [1, 2, 3, 4] [5] ∧
    Cuts 3 ((message false .payload).wbuf ++ [1, 2, 3]) [1, 2, 3] [] :=
  ⟨rfl, rfl, ⟨rfl, .inl (by decide +kernel)⟩, ⟨rfl, .inr (by decide +kernel)⟩⟩

/-- TAG2 with a word and two bytes more, and TAG3 with a one-byte last word. -/
theorem witness_PushTagWord :
    ((message false (.tag 2)).phase = .tag 2 ∧ (message false (.tag 2)).msgKeyValid = true ∧
      Cuts 0 ((message false (.tag 2)).wbuf ++ [1, 2, 3, 4, 5, 6]) [1, 2, 3, 4] [5, 6] ∧ (2 : Fin 4).val < 3) ∧
    ((message false (.tag 3)).phase = .tag 3 ∧ (message false (.tag 3)).msgKeyValid = true ∧
      Cuts 1 ((message false (.tag 3)).wbuf ++ [1]) [1] []) :=
  ⟨⟨rfl, rfl, ⟨rfl, .inl (by decide +kernel)⟩, by decide⟩, ⟨rfl, rfl, ⟨rfl, .inr (by decide +kernel)⟩⟩⟩

/-- Seventeen bytes at TAG0, and five at TAG3 with a marker. -/
theorem witness_PushPastTheTagRefused :
    ((message false (.tag 0)).phase = .tag 0 ∧ (message false (.tag 0)).msgKeyValid = true ∧
      4 * (4 - (0 : Fin 4).val) < (message false (.tag 0)).wbuf.length + (List.replicate 17 (0 : Byte)).length) ∧
    ((message false (.tag 3)).phase = .tag 3 ∧ (message false (.tag 3)).msgKeyValid = true ∧
      ((message false (.tag 3)).wbuf.length + (List.replicate 5 (0 : Byte)).length) % 4 = (1 : BitVec 2).toNat ∧
      4 * (4 - (3 : Fin 4).val) < (message false (.tag 3)).wbuf.length + (List.replicate 5 (0 : Byte)).length) :=
  ⟨⟨rfl, rfl, by decide +kernel⟩, ⟨rfl, rfl, by decide +kernel, by decide +kernel⟩⟩

/-- Three bytes into IV0, then three more with a marker. -/
theorem witness_TwoPushesAreOne : ∃ t u,
    (exec (.pushData 0 [1, 2, 3]) (machine (startedMessage true loaded)) = .next t ∧ t.response.status.fatal = false) ∧
    (exec (.pushData 2 [4, 5, 6]) t = .next u ∧ u.response.status.fatal = false) := by
  have h : pushesTwice 2 [1, 2, 3] [4, 5, 6] (machine (startedMessage true loaded)) = true := by decide +kernel
  obtain ⟨t, ht, h⟩ := next_of h
  rw [Bool.and_eq_true, Bool.not_eq_true'] at h
  obtain ⟨u, hu, h'⟩ := next_of h.2
  exact ⟨t, u, ⟨ht, h.1⟩, ⟨hu, by simpa using h'⟩⟩

theorem witness_PushMovesThroughThePhases : ∃ t,
    exec (.pushData 0 [1, 2, 3, 4]) (machine (startedMessage true loaded)) = .next t :=
  next_exists (by decide +kernel)

/-- A failed operation, and each of the others. -/
theorem witness_DoneMarksCompletion :
    (∃ t, exec .endAad (machine loaded) = .next t ∧ t.response.status.fatal = true) ∧
    (∃ t, exec (.pushData 0 []) (machine (message true .aad)) = .next t ∧ (!t.response.status.fatal) = true) ∧
    (∃ t, exec .endAad (machine (message true .aad)) = .next t ∧ (!t.response.status.fatal) = true) ∧
    (∃ t, exec .endPayload (machine (message true .payload)) = .next t ∧ (!t.response.status.fatal) = true) ∧
    (∃ t, exec (.startMessage true) (machine loaded) = .next t ∧ (!t.response.status.fatal) = true) ∧
    (∃ t, exec .zeroKey (machine loaded) = .next t ∧ (!t.response.status.fatal) = true) :=
  ⟨next_of (by decide +kernel), next_of (by decide +kernel), next_of (by decide +kernel), next_of (by decide +kernel),
    next_of (by decide +kernel), next_of (by decide +kernel)⟩

/-- The four cases of END_AAD: done, out of phase, a word under assembly, a spoiled key. -/
theorem witness_EndAadResult :
    ((message true .aad).phase = .aad ∧ (message true .aad).wbuf = [] ∧ (message true .aad).msgKeyValid = true) ∧
    (message true .payload).phase ≠ .aad ∧ { message true .aad with wbuf := [1] }.wbuf ≠ [] ∧
    { message true .aad with msgKeyValid := false }.msgKeyValid = false := by decide +kernel

theorem witness_EndPayloadResult :
    ((message true .payload).phase = .payload ∧ (message true .payload).wbuf = [] ∧
      (message true .payload).msgKeyValid = true ∧ (message true .payload).encrypt = true) ∧
    ((message false .payload).phase = .payload ∧ (message false .payload).wbuf = [] ∧
      (message false .payload).msgKeyValid = true ∧ (message false .payload).encrypt = false) ∧
    (message true .aad).phase ≠ .payload ∧ { message true .payload with wbuf := [1] }.wbuf ≠ [] ∧
    { message true .payload with msgKeyValid := false }.msgKeyValid = false := by decide +kernel

theorem witness_ReadTagAndIvResult : (3 : BitVec 8).toNat < 4 ∧ 4 ≤ (4 : BitVec 8).toNat := by decide

theorem witness_ReadStatusResult : { message true .aad with wbuf := [1, 2, 3] }.wbuf.length ≤ 3 := by decide +kernel

theorem witness_SnapshotResult :
    { message true .aad with wbuf := [1, 2, 3] }.wbuf.length ≤ 3 ∧
    { message true .aad with hbuf := List.replicate 15 1 }.hbuf.length ≤ 15 := by decide +kernel

/-- A valid record with a message in progress, and the reset record. -/
theorem witness_RecordValidity :
    (recordP4.length = 169 ∧ recordValid recordP4 = true) ∧ (recordP4.set 34 11).length = 169 := by decide +kernel

theorem witness_RestoreResult :
    recordP4.length = 169 ∧ recordValid (recordP4.set 168 17) = false ∧ recordValid recordP4 = true ∧
    stateP4.st.msgKeyValid = true ∧ recordValid (snapshotRecord (Engine.reset false)) = true ∧
    (rederive (recordEngine (snapshotRecord (Engine.reset false)))).msgKeyValid = false := by decide +kernel

theorem witness_RestoreUndoesSnapshot : (machine (message true .payload)).Inv := witness_Inv

/-- A started message, and the same with another schedule and another LAST_STATUS: not equal, and alike. -/
theorem witness_ResumedStateAnswersAlike :
    let a := machine (startedMessage true written)
    let b := machine { startedMessage true written with rk := Vector.replicate 60 1, lastStatus := .protocolViolation }
    a.Inv ∧ b.Inv ∧ a.st.Resumes b.st ∧ a.keyZeroedAtReset = b.keyZeroedAtReset ∧
    (∃ a', exec (.pushData 0 [1, 2, 3, 4]) a = .next a') ∧
    (∃ b', exec (.pushData 0 [1, 2, 3, 4]) b = .next b') ∧
    writesStatus (.pushData 0 [1, 2, 3, 4]) = true :=
  ⟨inv_unloaded rfl rfl (fun _ => rfl) (fun _ => rfl) (by decide +kernel) (by decide +kernel),
   inv_unloaded rfl rfl (fun _ => rfl) (fun _ => rfl) (by decide +kernel) (by decide +kernel),
   ⟨rfl, (fun h => by cases h), (fun h => by cases h), (fun h => by cases h), (fun h => by cases h), (fun h => by cases h)⟩,
   rfl, next_exists (by decide +kernel), next_exists (by decide +kernel), rfl⟩

theorem witness_StepKeepsTheInvariant :
    (machine (message true .payload) [0x00, 0x00, 0x00, 0x07]).Inv ∧
    steps (machine (message true .payload) [0x00, 0x00, 0x00, 0x07]) (fun _ => true) = true :=
  ⟨witness_Inv, by decide +kernel⟩

theorem witness_SboxIsItsFormula : (0x53 : Byte) ≠ 0 := by decide

/-- The last word of the schedule. -/
theorem witness_RoundTransformations : 4 * 14 + (3 : Fin 4).val < 60 := by decide

/-- The first and the last middle round of a 256-bit key. -/
theorem witness_EncryptBlockRounds : (14 = 10 ∨ 14 = 12 ∨ 14 = 14) ∧ 0 + 1 < 14 ∧ 12 + 1 < 14 := by decide

theorem witness_EncryptMessageComputesGcm :
    (machine loaded).st.keyLoaded = true ∧ (List.replicate 12 (0 : Byte)).length = 12 ∧
    (List.replicate 4 (0 : Byte)).length = 4 := by decide +kernel

theorem witness_DecryptMessageChecksGcm :
    (machine loaded).st.keyLoaded = true ∧ (List.replicate 12 (0 : Byte)).length = 12 ∧
    (List.replicate 4 (0 : Byte)).length = 4 ∧ (List.replicate 16 (0 : Byte)).length = 16 := by decide +kernel

theorem witness_DecryptUndoesEncrypt :
    (machine loaded).st.keyLoaded = true ∧ (List.replicate 12 (0 : Byte)).length = 12 ∧
    (List.replicate 4 (0 : Byte)).length = 4 := by decide +kernel

end Sys2Proof.Tests
end

/-! PROOFS. The invariants of the state (10_state.md): what no PUSH_DATA writes, when a message is complete, and the
invariant of the reachable states; then the obligations of the family, each from the case split `exec_cases`. -/

namespace Sys2Proof.Machine

open Sys2Proof

/-! ## What PUSH_DATA never writes -/

/-- The key registers, the active key material and the mode of two records agree: the fields that no function of the GCM
context and no commit of PUSH_DATA writes (10_state.md R31 to R36, R46). -/
structure Engine.SameKeyAndMode (a b : Engine) : Prop where
  key : a.key = b.key
  keyLen : a.keyLen = b.keyLen
  activeKey : a.activeKey = b.activeKey
  rk : a.rk = b.rk
  keyLoaded : a.keyLoaded = b.keyLoaded
  keyZeroed : a.keyZeroed = b.keyZeroed
  encrypt : a.encrypt = b.encrypt

theorem Engine.SameKeyAndMode.refl (a : Engine) : a.SameKeyAndMode a := ⟨rfl, rfl, rfl, rfl, rfl, rfl, rfl⟩

theorem Engine.SameKeyAndMode.trans {a b c : Engine} (hab : a.SameKeyAndMode b) (hbc : b.SameKeyAndMode c) :
    a.SameKeyAndMode c where
  key := hab.key.trans hbc.key
  keyLen := hab.keyLen.trans hbc.keyLen
  activeKey := hab.activeKey.trans hbc.activeKey
  rk := hab.rk.trans hbc.rk
  keyLoaded := hab.keyLoaded.trans hbc.keyLoaded
  keyZeroed := hab.keyZeroed.trans hbc.keyZeroed
  encrypt := hab.encrypt.trans hbc.encrypt

theorem gcmAad_sameKeyAndMode (c : List Byte) (st : Engine) : (gcmAad c st).SameKeyAndMode st := by
  rw [gcmAad_frame]
  exact ⟨rfl, rfl, rfl, rfl, rfl, rfl, rfl⟩

theorem gcmPayload_sameKeyAndMode (c : List Byte) (st : Engine) : (gcmPayload c st).1.SameKeyAndMode st := by
  rw [gcmPayload_frame]
  exact ⟨rfl, rfl, rfl, rfl, rfl, rfl, rfl⟩

theorem finishDecrypt_sameKeyAndMode (p : Push) : (finishDecrypt p).st.SameKeyAndMode p.st := by
  simp only [finishDecrypt]
  rw [gcmFinish_frame]
  exact ⟨rfl, rfl, rfl, rfl, rfl, rfl, rfl⟩

theorem commitChunk_sameKeyAndMode {p q : Push} {c : List Byte} (h : commitChunk p c = .ok q) :
    q.st.SameKeyAndMode p.st := by
  rcases commitChunk_ok h with ⟨k, _, _, rfl⟩ | ⟨_, _, rfl⟩ | ⟨_, rfl⟩ | ⟨_, rfl⟩ | ⟨k, _, _, rfl⟩ | ⟨_, rfl⟩
  · exact ⟨rfl, rfl, rfl, rfl, rfl, rfl, rfl⟩ -- IV0 to IV2
  · exact ⟨rfl, rfl, rfl, rfl, rfl, rfl, rfl⟩ -- IV3
  · exact gcmAad_sameKeyAndMode c p.st
  · exact gcmPayload_sameKeyAndMode c p.st
  · exact ⟨rfl, rfl, rfl, rfl, rfl, rfl, rfl⟩ -- TAG0 to TAG2
  · exact { finishDecrypt_sameKeyAndMode _ with } -- TAG3

/-- A successful PUSH_DATA leaves the key store and the mode. -/
theorem pushData_sameKeyAndMode {lw : BitVec 2} {data : List Byte} {st : Engine} {q : Push}
    (h : pushData lw data st = .ok q) : q.st.SameKeyAndMode st := by
  obtain ⟨_, p, hp, _, rfl⟩ := pushData_ok h
  have hkept : p.st.SameKeyAndMode st :=
    commitChunks_keeps (P := fun p => p.st.SameKeyAndMode st) (fun _ _ _ hst hc => (commitChunk_sameKeyAndMode hc).trans hst)
      (Engine.SameKeyAndMode.refl st) hp
  exact { hkept with }

/-! ## When a message is complete -/

/-- A push that passes its entry checks is in a message (45_stream_processor.md R291). -/
theorem phase_ne_idle_of_pushEntryCheck {lw : BitVec 2} {data : List Byte} {st : Engine}
    (h : pushEntryCheck lw data st = .ok) : st.phase ≠ .idle := by
  intro hidle
  simp [pushEntryCheck, hidle] at h

/-- Committing a chunk marks the copy done exactly when it ends the message. -/
theorem commitChunk_done_iff {p q : Push} {c : List Byte} (hp : p.done = true ↔ p.st.phase = .idle)
    (h : commitChunk p c = .ok q) : q.done = true ↔ q.st.phase = .idle := by
  rcases commitChunk_ok h with
    ⟨k, hk, _, rfl⟩ | ⟨hk, _, rfl⟩ | ⟨_, rfl⟩ | ⟨_, rfl⟩ | ⟨k, hk, _, rfl⟩ | ⟨_, rfl⟩
  · simpa [hk] using hp -- IV0 to IV2
  · simpa [hk] using hp -- IV3
  · rw [gcmAad_frame]; exact hp
  · rw [gcmPayload_frame]; exact hp
  · simpa [hk] using hp -- TAG0 to TAG2
  · exact ⟨fun _ => rfl, fun _ => rfl⟩ -- TAG3 completes the message

/-- After a successful PUSH_DATA, DONE says whether the message is complete. -/
theorem pushData_done_iff {lw : BitVec 2} {data : List Byte} {st : Engine} {q : Push}
    (h : pushData lw data st = .ok q) : q.st.done = true ↔ q.st.phase = .idle := by
  obtain ⟨hentry, p, hp, _, rfl⟩ := pushData_ok h
  have hstart : (Push.start st).done = true ↔ (Push.start st).st.phase = .idle := by
    simpa [Push.start] using phase_ne_idle_of_pushEntryCheck hentry
  exact commitChunks_keeps (P := fun p => p.done = true ↔ p.st.phase = .idle)
    (fun _ _ _ hdone hc => commitChunk_done_iff hdone hc) hstart hp

/-! ## END_AAD and END_PAYLOAD, field by field -/

/-- END_AAD changes only X, HBUF, PHASE and DONE. -/
theorem aadClosed_frame (st : Engine) :
    aadClosed st = { st with x := (gcmCloseHash st).x, hbuf := [], phase := .payload, done := false } := by
  unfold aadClosed
  rw [gcmCloseHash_frame]

/-- `finish_encrypt` changes only X, HBUF, TAG, PHASE and DONE. -/
theorem finishEncrypt_frame (st : Engine) :
    finishEncrypt st = { st with
      x := (gcmFinish st).1.x
      hbuf := []
      tag := blockWords (gcmFinish st).2
      phase := .idle
      done := true } := by
  unfold finishEncrypt
  rw [gcmFinish_frame]

theorem payloadClosed_encrypt {st : Engine} (h : st.encrypt = true) : payloadClosed st = finishEncrypt st := if_pos h

theorem payloadClosed_decrypt {st : Engine} (h : st.encrypt = false) :
    payloadClosed st = { st with phase := .tag 0, done := false } := if_neg (by simp [h])

/-- END_PAYLOAD changes only X, HBUF, TAG, PHASE and DONE. -/
theorem payloadClosed_frame (st : Engine) :
    payloadClosed st = { st with
      x := (payloadClosed st).x
      hbuf := (payloadClosed st).hbuf
      tag := (payloadClosed st).tag
      phase := (payloadClosed st).phase
      done := (payloadClosed st).done } := by
  rcases Bool.eq_false_or_eq_true st.encrypt with h | h
  · rw [payloadClosed_encrypt h, finishEncrypt_frame]
  · rw [payloadClosed_decrypt h]

theorem payloadClosed_done (st : Engine) : (payloadClosed st).done = st.encrypt := by
  cases h : st.encrypt with
  | true => rw [payloadClosed_encrypt h, finishEncrypt_frame]
  | false => rw [payloadClosed_decrypt h]

theorem payloadClosed_done_iff (st : Engine) :
    (payloadClosed st).done = true ↔ (payloadClosed st).phase = .idle := by
  cases h : st.encrypt with
  | true => rw [payloadClosed_encrypt h, finishEncrypt_frame]; simp
  | false => rw [payloadClosed_decrypt h]; simp

/-! ## The derived values stay exact -/

/-- After a refill KS is the encrypted Y, whether a new block was made or bytes of the old one are left. -/
theorem refillKeystream_ks {st : Engine} (h : st.DerivedExact) :
    (refillKeystream st).ks = encryptE st (refillKeystream st).y := by
  unfold refillKeystream
  split
  · rfl
  · exact h.ks_eq ‹_›

theorem payloadByte_derivedExact {st : Engine} (b : Byte) (h : st.DerivedExact) :
    (payloadByte (st, []) b).1.DerivedExact := by
  rw [payloadByte_frame]
  exact { h with ks_eq := fun _ => refillKeystream_ks h }

theorem payload_foldl_derivedExact (bs : List Byte) {st : Engine} (h : st.DerivedExact) :
    (bs.foldl payloadByte (st, [])).1.DerivedExact := by
  induction bs generalizing st with
  | nil => exact h
  | cons b bs ih =>
    rw [payloadByte_foldl_cons]
    exact ih (payloadByte_derivedExact b h)

theorem gcmPayload_derivedExact (c : List Byte) {st : Engine} (h : st.DerivedExact) :
    (gcmPayload c st).1.DerivedExact :=
  { payload_foldl_derivedExact c h with }

/-- `gcm_begin` makes all derived values, with no keystream byte left. -/
theorem gcmBegin_derivedExact (st : Engine) : (gcmBegin st).DerivedExact :=
  ⟨rfl, rfl, rfl, fun h => absurd rfl h⟩

/-! ## The invariant and the parts of an operation -/

/-- DONE and LAST_STATUS are free, and so is WBUF within its bounds. -/
theorem Engine.Inv.withEnd {st : Engine} (h : st.Inv) {w : List Byte} (hidle : st.phase = .idle → w = [])
    (hlen : w.length ≤ 3) (d : Bool) (c : Status) : (st.withEnd w d c).Inv :=
  { h with
    idle_wbuf := hidle
    wbuf_length := hlen
    derived_exact := fun hv hi => { h.derived_exact hv hi with } }

theorem Engine.Inv.withLastStatus {st : Engine} (h : st.Inv) (c : Status) : { st with lastStatus := c }.Inv :=
  h.withEnd h.idle_wbuf h.wbuf_length st.done c

/-- A message may end from any phase past the IV words, with WBUF empty. -/
theorem Engine.Inv.toIdle {st : Engine} (h : st.Inv) (hiv : st.phase.isIv = false) (hw : st.wbuf = [])
    (tag : Vector Word 4) (tagOk done : Bool) :
    { st with phase := .idle, tag := tag, tagOk := tagOk, done := done }.Inv :=
  { h with
    encrypt_not_tag := fun _ => rfl
    idle_wbuf := fun _ => hw
    derived_exact := fun hv _ => { h.derived_exact hv hiv with } }

/-- A message in decrypt mode may enter a TAG phase from any phase past the IV words. -/
theorem Engine.Inv.toTag {st : Engine} (h : st.Inv) (hiv : st.phase.isIv = false) (henc : st.encrypt = false)
    (k : Fin 4) (tag : Vector Word 4) (done : Bool) : { st with phase := .tag k, tag := tag, done := done }.Inv :=
  { h with
    encrypt_not_tag := fun he => absurd (henc.symm.trans he) nofun
    idle_wbuf := nofun
    derived_exact := fun hv _ => { h.derived_exact hv hiv with } }

/-- A TAG phase is a phase of decrypt mode (10_state.md R46). -/
theorem Engine.Inv.encrypt_of_tag {st : Engine} (h : st.Inv) {k : Fin 4} (hp : st.phase = .tag k) :
    st.encrypt = false := by
  by_contra he
  have hnot := h.encrypt_not_tag (Bool.eq_true_of_not_eq_false he)
  simp [hp, Phase.isTag] at hnot

theorem gcmAad_inv (c : List Byte) {st : Engine} (h : st.Inv) : (gcmAad c st).Inv := by
  rw [gcmAad_frame]
  exact { h with
    hbuf_length := foldl_absorbByte_hbuf_length c st h.hbuf_length
    derived_exact := fun hv hi => { h.derived_exact hv hi with } }

theorem gcmPayload_inv (c : List Byte) {st : Engine} (h : st.Inv) : (gcmPayload c st).1.Inv := by
  have hexact : st.msgKeyValid = true → st.phase.isIv = false → (gcmPayload c st).1.DerivedExact :=
    fun hv hi => gcmPayload_derivedExact c (h.derived_exact hv hi)
  rw [gcmPayload_frame] at hexact ⊢
  exact { h with
    hbuf_length := payload_hbuf_length c st h.hbuf_length
    derived_exact := hexact }

/-- Closing the hash keeps the invariant, whatever it leaves in X. -/
theorem Engine.Inv.hashClosed {st : Engine} (h : st.Inv) (x : Block) : { st with x := x, hbuf := [] }.Inv :=
  { h with
    hbuf_length := Nat.zero_le 15
    derived_exact := fun hv hi => { h.derived_exact hv hi with } }

/-! ## The invariant and PUSH_DATA -/

theorem finishDecrypt_inv {p : Push} (h : p.st.Inv) (hiv : p.st.phase.isIv = false) (hw : p.st.wbuf = []) :
    (finishDecrypt p).st.Inv := by
  simp only [finishDecrypt]
  rw [gcmFinish_frame]
  exact (h.hashClosed _).toIdle hiv hw p.st.tag _ p.st.done

/-- Committing a chunk to a copy with WBUF empty keeps the invariant. -/
theorem commitChunk_inv {p q : Push} {c : List Byte} (hw : p.st.wbuf = []) (h : p.st.Inv)
    (hc : commitChunk p c = .ok q) : q.st.Inv := by
  rcases commitChunk_ok hc with
    ⟨k, _, _, rfl⟩ | ⟨_, hloaded, rfl⟩ | ⟨_, rfl⟩ | ⟨_, rfl⟩ | ⟨k, hk, _, rfl⟩ | ⟨hk, rfl⟩
  · exact { h with -- IV0 to IV2
      encrypt_not_tag := fun _ => rfl
      idle_wbuf := nofun
      derived_exact := nofun }
  · exact { h with -- IV3 makes the derived values
      valid_loaded := fun _ => hloaded
      encrypt_not_tag := fun _ => rfl
      idle_wbuf := nofun
      hbuf_length := Nat.zero_le 15
      derived_exact := fun _ _ => { gcmBegin_derivedExact _ with } }
  · exact gcmAad_inv c h
  · exact gcmPayload_inv c h
  · exact h.toTag (by rw [hk]; rfl) (h.encrypt_of_tag hk) (k + 1) _ p.st.done -- TAG0 to TAG2
  · have hiv : p.st.phase.isIv = false := by rw [hk]; rfl -- TAG3 ends the message
    have htag := h.toTag hiv (h.encrypt_of_tag hk) 3 (p.st.tag.set 3 (chunkWord c)) p.st.done
    rw [← hk] at htag
    exact finishDecrypt_inv htag hiv hw

theorem commitChunk_wbuf {p q : Push} {c : List Byte} (hc : commitChunk p c = .ok q) : q.st.wbuf = p.st.wbuf := by
  rcases commitChunk_ok hc with ⟨k, _, _, rfl⟩ | ⟨_, _, rfl⟩ | ⟨_, rfl⟩ | ⟨_, rfl⟩ | ⟨k, _, _, rfl⟩ | ⟨_, rfl⟩
  · rfl -- IV0 to IV2
  · rfl -- IV3
  · rw [gcmAad_frame]
  · rw [gcmPayload_frame]
  · rfl -- TAG0 to TAG2
  · simp only [finishDecrypt]; rw [gcmFinish_frame]

theorem commitChunks_inv {p q : Push} {cs : List (List Byte)} (hw : p.st.wbuf = []) (h : p.st.Inv)
    (hc : commitChunks cs p = .ok q) : q.st.Inv :=
  (commitChunks_keeps (P := fun p => p.st.wbuf = [] ∧ p.st.Inv)
    (fun _ _ _ hp hc => ⟨(commitChunk_wbuf hc).trans hp.1, commitChunk_inv hp.1 hp.2 hc⟩) ⟨hw, h⟩ hc).2

/-- A successful PUSH_DATA keeps the invariant. While its chunks are committed the copy still holds the old WBUF, which
would break `idle_wbuf` at the end of a message; since no commit reads WBUF (`commitChunks_after`), the copy is followed
with WBUF empty, and the bytes left over are put in at the end. -/
theorem pushData_inv {lw : BitVec 2} {data : List Byte} {st : Engine} {q : Push} (h : st.Inv)
    (hq : pushData lw data st = .ok q) : q.st.Inv := by
  obtain ⟨_, p, hp, hend, rfl⟩ := pushData_ok hq
  have hcopy : commitChunks (committedChunks lw (st.wbuf ++ data)) ((Push.start st).after [] false .ok []) =
      .ok (p.after [] false .ok []) := by
    rw [commitChunks_after, hp]
    rfl
  have hinv : (p.st.withEnd [] false .ok).Inv :=
    commitChunks_inv (p := (Push.start st).after [] false .ok []) rfl
      (h.withEnd (fun _ => rfl) (Nat.zero_le 3) false .ok) hcopy
  have hrest : (uncommittedBytes lw (st.wbuf ++ data)).length ≤ 3 := by
    rw [uncommittedBytes_length]
    split <;> omega
  exact hinv.withEnd (fun hidle => by_contra fun hne => hend ⟨hne, hidle⟩) hrest p.done p.st.lastStatus

/-! ## The invariant and the other operations -/

theorem reset_inv (z : Bool) : (Engine.reset z).Inv where
  zeroed_unloaded := fun _ => rfl
  loaded_len := nofun
  loaded_schedule := nofun
  loaded_rest := nofun
  valid_loaded := nofun
  encrypt_not_tag := nofun
  idle_wbuf := fun _ => rfl
  wbuf_length := Nat.zero_le 3
  hbuf_length := Nat.zero_le 15
  derived_exact := nofun

theorem writtenKey_inv {st : Engine} (h : st.Inv) (key : Vector Word 8) :
    { st with key := key, keyZeroed := false }.Inv :=
  { h with
    zeroed_unloaded := nofun
    derived_exact := fun hv hi => { h.derived_exact hv hi with } }

/-- The words of the active key past the loaded length are 0 (44_key_store.md R253). -/
theorem activeWords_rest (key : Vector Word 8) (len : KeyLen) :
    ∀ w ∈ (activeWords key len).toList.drop len.nk, w = 0 := by
  intro w hw
  obtain ⟨j, hj, rfl⟩ := List.getElem_of_mem hw
  have hj8 : len.nk + j < 8 := by
    simp only [List.length_drop, Vector.length_toList] at hj
    omega
  simp [activeWords_getElem key len (len.nk + j) hj8]

theorem loadedKey_inv {st : Engine} (h : st.Inv) {len : KeyLen} (hlen : len ≠ .unset) (hz : st.keyZeroed = false) :
    (loadedKey len st).Inv :=
  { h with
    zeroed_unloaded := fun hz' => absurd (hz.symm.trans hz') nofun
    loaded_len := fun _ => hlen
    loaded_schedule := fun _ => rfl
    loaded_rest := fun _ => activeWords_rest st.key len
    valid_loaded := nofun
    derived_exact := nofun }

/-- Dropping the loaded key and the message key keeps the invariant, whatever becomes of the key material. -/
theorem Engine.Inv.keyDropped {st : Engine} (h : st.Inv) (key activeKey : Vector Word 8) (rk : Vector Word 60)
    (keyLen : KeyLen) (keyZeroed : Bool) :
    { st with
      key := key, activeKey := activeKey, rk := rk, keyLen := keyLen, keyZeroed := keyZeroed
      keyLoaded := false, msgKeyValid := false }.Inv :=
  { h with
    zeroed_unloaded := fun _ => rfl
    loaded_len := nofun
    loaded_schedule := nofun
    loaded_rest := nofun
    valid_loaded := nofun
    derived_exact := nofun }

theorem unloadedKey_inv {st : Engine} (h : st.Inv) : (unloadedKey st).Inv :=
  h.keyDropped st.key st.activeKey st.rk st.keyLen st.keyZeroed

theorem zeroedKey_inv {st : Engine} (h : st.Inv) : (zeroedKey st).Inv :=
  h.keyDropped (Vector.replicate 8 0) (Vector.replicate 8 0) (Vector.replicate 60 0) .unset true

theorem startedMessage_inv {st : Engine} (h : st.Inv) (enc : Bool) : (startedMessage enc st).Inv :=
  { h with
    valid_loaded := nofun
    encrypt_not_tag := fun _ => rfl
    idle_wbuf := nofun
    wbuf_length := Nat.zero_le 3
    hbuf_length := Nat.zero_le 15
    derived_exact := nofun }

theorem aadClosed_inv {st : Engine} (h : st.Inv) (hp : st.phase = .aad) : (aadClosed st).Inv := by
  have hiv : st.phase.isIv = false := by rw [hp]; rfl
  rw [aadClosed_frame]
  exact { h.hashClosed (gcmCloseHash st).x with
    encrypt_not_tag := fun _ => rfl
    idle_wbuf := nofun
    derived_exact := fun hv _ => { h.derived_exact hv hiv with } }

theorem payloadClosed_inv {st : Engine} (h : st.Inv) (hp : st.phase = .payload) (hw : st.wbuf = []) :
    (payloadClosed st).Inv := by
  have hiv : st.phase.isIv = false := by rw [hp]; rfl
  cases henc : st.encrypt with
  | true =>
    rw [payloadClosed_encrypt henc, finishEncrypt_frame]
    exact (h.hashClosed _).toIdle hiv hw _ st.tagOk true
  | false =>
    rw [payloadClosed_decrypt henc]
    exact h.toTag hiv henc 0 st.tag false

/-! ## The invariant and RESTORE -/

/-- Re-derivation changes only RK, H, J0, EJ0 and KS. -/
theorem rederive_frame (st : Engine) :
    rederive st = { st with
      rk := (rederive st).rk
      h := (rederive st).h
      j0 := (rederive st).j0
      ej0 := (rederive st).ej0
      ks := (rederive st).ks } := by
  unfold rederive rederiveMessage
  split <;> rfl

theorem rederive_rk {st : Engine} (h : st.keyLoaded = true) : (rederive st).rk = expandKey st.activeKey st.keyLen := by
  have hrk : (rederive st).rk = (rederiveSchedule st).rk := by
    unfold rederive rederiveMessage
    split <;> rfl
  rw [hrk, rederiveSchedule_rk, if_pos h]

/-- Re-derivation makes the derived values of a valid message key exact (46_control.md R351). -/
theorem rederive_derivedExact {st : Engine} (h : st.msgKeyValid = true) : (rederive st).DerivedExact := by
  have hv : (rederiveSchedule st).msgKeyValid = true := h
  unfold rederive rederiveMessage
  rw [if_pos hv]
  exact {
    h_eq := rfl
    j0_eq := rfl
    ej0_eq := rfl
    ks_eq := fun hk => if_pos (Nat.lt_of_le_of_ne (Nat.le_of_lt_succ st.kpos.isLt) fun e => hk (Fin.ext e)) }

/-- Conditions 7 to 12 of R350, each as the implication the rule states. -/
theorem recordFieldsValid_iff (st : Engine) :
    recordFieldsValid st = true ↔
      (st.keyZeroed = true → st.keyLoaded = false) ∧
      (st.keyLoaded = true → st.keyLen ≠ .unset) ∧
      (st.keyLoaded = true → ∀ w ∈ st.activeKey.toList.drop st.keyLen.nk, w = 0) ∧
      (st.msgKeyValid = true → st.keyLoaded = true) ∧
      (st.encrypt = true → st.phase.isTag = false) ∧
      (st.phase = .idle → st.wbuf = []) := by
  simp only [recordFieldsValid, Bool.and_eq_true, Bool.or_eq_true, Bool.not_eq_true', bne_iff_ne,
    List.isEmpty_iff, List.all_eq_true, beq_iff_eq, or_iff_not_imp_left, Bool.not_eq_false, ne_eq, not_not, and_assoc]

/-- The fields of a valid record and the bounds on the two buffers make the invariant once the rest is derived. -/
theorem rederive_inv {st : Engine} (hf : recordFieldsValid st = true) (hw : st.wbuf.length ≤ 3)
    (hh : st.hbuf.length ≤ 15) : (rederive st).Inv := by
  obtain ⟨hzero, hlen, hrest, hvalid, htag, hidle⟩ := (recordFieldsValid_iff st).mp hf
  have hexact := @rederive_derivedExact st
  have hrk := @rederive_rk st
  rw [rederive_frame] at hexact hrk ⊢
  exact ⟨hzero, hlen, hrk, hrest, hvalid, htag, hidle, hw, hh, fun hv _ => hexact hv⟩

theorem recordField_length_le (r : List Byte) (offset n : Nat) : (recordField r offset n).length ≤ n :=
  List.length_take_le n _

/-- A valid record restores to a state that meets the invariant. -/
theorem restored_inv {r : List Byte} (h : recordValid r = true) : (rederive (recordEngine r)).Inv := by
  simp only [recordValid, recordFormValid, Bool.and_eq_true, decide_eq_true_eq] at h
  obtain ⟨⟨⟨⟨⟨⟨_, hwlen⟩, hhlen⟩, _⟩, _⟩, _⟩, hfields⟩ := h
  exact rederive_inv hfields ((recordField_length_le ..).trans hwlen) ((recordField_length_le ..).trans hhlen)

/-! ## Every operation keeps the invariant -/

theorem exec_inv {i : Instr} {s t : State} (hs : s.Inv) (h : exec i s = .next t) : t.Inv := by
  have hst : s.st.Inv := hs
  rcases exec_cases i s t h with ⟨e, _, rfl, _⟩ | heffect
  · exact hst.withLastStatus e
  · cases i with
    | reset => obtain rfl : t = _ := heffect; exact reset_inv _
    | writeKey =>
      obtain ⟨k, _, rfl⟩ := heffect
      exact (writtenKey_inv hst _).withLastStatus .ok
    | loadKey =>
      obtain ⟨rfl, _⟩ | ⟨len, hlen, hz, rfl⟩ := heffect
      · exact (unloadedKey_inv hst).withLastStatus .invalidKeyLength
      · exact (loadedKey_inv hst (KeyLen.ofOperand_eq_some.mp hlen).1 hz).withLastStatus .ok
    | zeroKey => obtain rfl : t = _ := heffect; exact (zeroedKey_inv hst).withLastStatus .ok
    | startMessage enc => obtain rfl : t = _ := heffect; exact (startedMessage_inv hst enc).withLastStatus .ok
    | pushData =>
      obtain ⟨q, hq, rfl⟩ := heffect
      exact (pushData_inv hst hq).withLastStatus q.status
    | endAad =>
      obtain ⟨hp, _, _, rfl⟩ := heffect
      exact (aadClosed_inv hst hp).withLastStatus .ok
    | endPayload =>
      obtain ⟨hp, hw, _, rfl⟩ := heffect
      exact (payloadClosed_inv hst hp hw).withLastStatus .ok
    | readStatus | snapshot => obtain rfl : t = _ := heffect; exact hst
    | readKey | readTag | readIv =>
      obtain ⟨_, rfl⟩ := heffect
      exact hst.withLastStatus .ok
    | restore =>
      obtain ⟨hr, rfl⟩ := heffect
      exact (restored_inv hr).withLastStatus .ok

/-- Settles O45: a step runs one operation, refuses a header with ProtocolViolation, or changes nothing. -/
theorem stepKeepsTheInvariant : Obligations.StepKeepsTheInvariant := by
  intro s t hs h
  have hst : s.st.Inv := hs
  rcases step_cases s with ⟨i, rest, _, e⟩ | ⟨rest, _, e⟩ | ⟨_, e⟩ | ⟨_, e⟩ <;> rw [e] at h
  case inl => exact exec_inv (s := { s with input := rest }) hst h
  case inr.inl => cases h; exact hst.withLastStatus .protocolViolation
  case inr.inr.inl => cases h
  case inr.inr.inr => cases h; exact hst

/-! ## The fields and their writers -/

/-- However an operation ends, it writes only `st` and the response, and either LAST_STATUS receives the response's status
or, for READ_STATUS and SNAPSHOT, nothing of `st` is written (10_state.md R54, R55). -/
theorem exec_writes {i : Instr} {s t : State} (h : exec i s = .next t) :
    ∃ st r, t = { s with st := st, response := r } ∧
      (writesStatus i = true → st.lastStatus = r.status) ∧ (writesStatus i = false → st = s.st) := by
  rcases exec_cases i s t h with ⟨e, _, rfl, hwrites⟩ | heffect
  · exact ⟨_, _, rfl, fun _ => rfl, fun hno => absurd (hwrites.symm.trans hno) nofun⟩
  · cases i with
    | reset | zeroKey | startMessage => exact ⟨_, _, heffect, fun _ => rfl, nofun⟩
    | readStatus | snapshot => exact ⟨_, _, heffect, nofun, fun _ => rfl⟩
    | loadKey => obtain ⟨rfl, _⟩ | ⟨_, _, _, rfl⟩ := heffect <;> exact ⟨_, _, rfl, fun _ => rfl, nofun⟩
    | writeKey | pushData => obtain ⟨_, _, rfl⟩ := heffect; exact ⟨_, _, rfl, fun _ => rfl, nofun⟩
    | endAad | endPayload => obtain ⟨_, _, _, rfl⟩ := heffect; exact ⟨_, _, rfl, fun _ => rfl, nofun⟩
    | readKey | readTag | readIv | restore => obtain ⟨_, rfl⟩ := heffect; exact ⟨_, _, rfl, fun _ => rfl, nofun⟩

/-- Settles O11: one reading of `exec_writes`. -/
theorem lastStatusRecordsTheStatus : Obligations.LastStatusRecordsTheStatus := by
  intro i s t h
  obtain ⟨st, r, rfl, hstatus, hsame⟩ := exec_writes h
  exact ⟨hstatus, hsame⟩

/-- Settles O12: no operation writes outside `st` and the response. -/
theorem parametersAreNeverWritten : Obligations.ParametersAreNeverWritten := by
  intro i s t h
  obtain ⟨st, r, rfl, _⟩ := exec_writes h
  exact ⟨rfl, rfl⟩

/-- Settles O13, operation by operation; the frames of PUSH_DATA, END_AAD and END_PAYLOAD carry the content. -/
theorem fieldsKeepTheirWriters : Obligations.FieldsKeepTheirWriters := by
  intro i s t h hreset hrestore
  rcases exec_cases i s t h with ⟨e, _, rfl, _⟩ | heffect
  · simp
  · cases i with
    | reset => exact absurd rfl hreset
    | restore r => exact absurd rfl (hrestore r)
    | writeKey => obtain ⟨_, _, rfl⟩ := heffect; simp
    | loadKey => obtain ⟨rfl, _⟩ | ⟨_, _, _, rfl⟩ := heffect <;> simp
    | zeroKey | startMessage | readStatus | snapshot => obtain rfl : t = _ := heffect; simp
    | pushData =>
      obtain ⟨q, hq, rfl⟩ := heffect
      have hsame := pushData_sameKeyAndMode hq
      simp [hsame.key, hsame.keyZeroed, hsame.keyLen, hsame.activeKey, hsame.rk, hsame.keyLoaded, hsame.encrypt]
    | endAad => obtain ⟨_, _, _, rfl⟩ := heffect; rw [aadClosed_frame]; simp
    | endPayload => obtain ⟨_, _, _, rfl⟩ := heffect; rw [payloadClosed_frame]; simp
    | readKey | readTag | readIv => obtain ⟨_, rfl⟩ := heffect; simp

/-- Settles O33, operation by operation; PUSH_DATA by `pushData_done_iff`, END_PAYLOAD by its mode. -/
theorem doneMarksCompletion : Obligations.DoneMarksCompletion := by
  intro i s t h
  rcases exec_cases i s t h with ⟨e, he, rfl, _⟩ | heffect
  · have hfatal : e.fatal = true := by rcases he with rfl | rfl <;> rfl
    simp [hfatal]
  · cases i with
    | reset => obtain rfl : t = _ := heffect; simp [Status.fatal, Engine.reset]
    | zeroKey | startMessage | readStatus | snapshot => obtain rfl : t = _ := heffect; simp [Status.fatal]
    | writeKey => obtain ⟨_, _, rfl⟩ := heffect; simp
    | loadKey => obtain ⟨rfl, _⟩ | ⟨_, _, _, rfl⟩ := heffect <;> simp
    | pushData =>
      obtain ⟨q, hq, rfl⟩ := heffect
      have hfatal : q.status.fatal = false := by rcases push_status hq with e | e <;> rw [e] <;> rfl
      simp [hfatal, pushData_done_iff hq]
    | endAad => obtain ⟨_, _, _, rfl⟩ := heffect; simp [Status.fatal, aadClosed]
    | endPayload =>
      obtain ⟨_, _, _, rfl⟩ := heffect
      have hiff := payloadClosed_done_iff s.st
      rw [payloadClosed_done] at hiff
      simp [Status.fatal, payloadClosed_done, hiff]
    | readKey | readTag | readIv => obtain ⟨_, rfl⟩ := heffect; simp
    | restore => obtain ⟨_, rfl⟩ := heffect; simp [Status.fatal]

end Sys2Proof.Machine


/-! PROOFS. All operations (20_memory.md): how a command runs, and that every operation answers a next state. -/

namespace Sys2Proof.Machine

open Sys2Proof

/-! ## Running a command -/

/-- Settles O7: of the cases of `step_cases`, a decoded command leaves only the first. -/
theorem stepRunsDecodedCommand : Obligations.StepRunsDecodedCommand := by
  intro s i rest hdecode
  rcases step_cases s with ⟨j, rest', hj, hstep⟩ | ⟨_, hbad | hbad, _⟩ | ⟨hcut, _⟩ | ⟨hnone, _⟩
  · obtain ⟨rfl, rfl⟩ : i = j ∧ rest = rest' := by simpa [hdecode] using hj
    exact hstep
  · exact nomatch hdecode.symm.trans hbad
  · exact nomatch hdecode.symm.trans hbad
  · exact nomatch hdecode.symm.trans hcut
  · exact nomatch hdecode.symm.trans hnone

/-! ## How an operation ends -/

/-- A register read ends with a response, in range and out of range. -/
theorem readRegister_finishes {n : Nat} (s : State) (regs : Vector Word n) (index : Option (Fin n)) :
    ∃ st r, readRegister s regs index = finish s st r := by
  rcases readRegister_eq s regs index with ⟨_, _, hread⟩ | ⟨_, hfail⟩
  · exact ⟨_, _, hread⟩
  · exact ⟨_, _, hfail⟩

/-- Whatever the checks of an operation find, it ends with a response: through `finish`, of which `fail` is one form, or
through `observe`, and no operation has another end (60_exceptions.md R380). -/
theorem exec_ends (i : Instr) (s : State) :
    (∃ st r, exec i s = finish s st r) ∨ ∃ r, exec i s = observe s r := by
  cases i with
  | reset | zeroKey | startMessage => exact .inl ⟨_, _, rfl⟩
  | readStatus | snapshot => exact .inr ⟨_, rfl⟩
  | readKey | readTag | readIv => exact .inl (readRegister_finishes ..)
  | writeKey | pushData | endAad | endPayload | restore =>
    left
    simp only [exec, execWriteKey, execPushData, execEndAad, execEndPayload, execRestore]
    split <;> exact ⟨_, _, rfl⟩
  | loadKey =>
    left
    simp only [exec, execLoadKey]
    split
    · exact ⟨_, _, rfl⟩
    · split <;> exact ⟨_, _, rfl⟩

/-- Settles O9: each of the two ends of `exec_ends` is a next state. -/
theorem everyOperationHasAResult : Obligations.EveryOperationHasAResult := by
  intro i s
  rcases exec_ends i s with ⟨_, _, hfinish⟩ | ⟨_, hobserve⟩
  · exact ⟨_, hfinish⟩
  · exact ⟨_, hobserve⟩

end Sys2Proof.Machine


/-! PROOFS. The command encoding (30_encoding.md): what the decoder answers on a stream, outcome by outcome, and the
obligations of the family. -/

namespace Sys2Proof

open Sys2Proof.Machine

/-! ## OP bytes and reserved bits -/

/-- The assigned OP bytes end at 0x0D (R113). -/
theorem Op.code_lt (op : Op) : op.code.toNat < 0x0E := by
  cases op <;> decide

/-- An OP byte of 0x0E or more names no row (R116). -/
theorem Op.ofCode_eq_none {c : BitVec 8} (hc : 0x0E ≤ c.toNat) : Op.ofCode c = none := by
  cases hrow : Op.ofCode c with
  | none => rfl
  | some op =>
    have hlt := op.code_lt
    rw [Op.code_of_ofCode hrow] at hlt
    omega

/-- A 1 under the format's mask above the OP byte is a set reserved bit: a header whose reserved bits are 0 has only its OP
byte under the mask. -/
theorem reservedZero_eq_false {op : Op} {h reserved : Word} (hmask : reserved = op.format.mask &&& 0xFFFFFF00)
    (hset : h &&& reserved ≠ 0) : reservedZero op h = false := by
  have hcode : op.code.setWidth 32 &&& 0xFFFFFF00 = (0 : Word) := by cases op <;> rfl
  rw [← Bool.not_eq_true, reservedZero, beq_iff_eq]
  intro hmatch
  apply hset
  rw [hmask, ← BitVec.and_assoc, hmatch, hcode]

/-! ## What the decoder answers -/

/-- Fewer than four bytes are no header (R117). -/
theorem decode_of_length_lt {bs : List Byte} (hne : bs ≠ []) (hlen : bs.length < 4) : decode bs = .truncated := by
  cases bs with
  | nil => exact absurd rfl hne
  | cons b bs => simp only [decode, takeWord_eq_none hlen]

theorem decode_unassigned {h : Word} (hop : Op.ofCode (headerOp h) = none) (rest : List Byte) :
    decode (be32 h ++ rest) = .unassignedOpcode rest := by
  rw [decode_be32, hop]

section
variable {op : Op} {h value : Word} {data operands rest : List Byte}

theorem decode_of_takeOperands_none (hop : headerOp h = op.code) (htake : takeOperands op.format operands = none) :
    decode (be32 h ++ operands) = .truncated := by
  simp only [decode_be32, hop, Op.ofCode_code, htake]

theorem decode_reserved (hop : headerOp h = op.code) (hzero : reservedZero op h = false)
    (htake : takeOperands op.format operands = some (value, data, rest)) :
    decode (be32 h ++ operands) = .reservedBits rest := by
  simp [decode_be32, hop, htake, hzero]

theorem decode_command (hop : headerOp h = op.code) (hzero : reservedZero op h = true)
    (htake : takeOperands op.format operands = some (value, data, rest)) :
    decode (be32 h ++ operands) = .command (op.instr h value data) rest := by
  simp [decode_be32, hop, htake, hzero]

end

/-! ## The decoder on the encoder's bytes -/

/-- The laws of `Laws.HeaderFits`, for every instruction. -/
theorem headerFits (i : Instr) : Laws.HeaderFits.Statement i := by
  cases i with
  | reset => exact Laws.HeaderFits.reset
  | writeKey index value => exact Laws.HeaderFits.writeKey index value
  | loadKey bits => exact Laws.HeaderFits.loadKey bits
  | zeroKey => exact Laws.HeaderFits.zeroKey
  | startMessage enc => exact Laws.HeaderFits.startMessage enc
  | pushData lw data => exact Laws.HeaderFits.pushData lw data
  | endAad => exact Laws.HeaderFits.endAad
  | endPayload => exact Laws.HeaderFits.endPayload
  | readStatus => exact Laws.HeaderFits.readStatus
  | readKey index => exact Laws.HeaderFits.readKey index
  | readTag index => exact Laws.HeaderFits.readTag index
  | readIv index => exact Laws.HeaderFits.readIv index
  | snapshot => exact Laws.HeaderFits.snapshot
  | restore record => exact Laws.HeaderFits.restore record

/-- The encoder's bytes decode to the instruction, whatever follows them (R111 to R114). -/
theorem decode_encode {i : Instr} (hwf : i.wellFormed = true) (rest : List Byte) :
    decode (encode i ++ rest) = .command i rest := by
  obtain ⟨hop, hzero, hoperands⟩ := headerFits i hwf
  obtain ⟨value, data, htake, hinstr⟩ := hoperands rest
  rw [encode, List.append_assoc, decode_command hop hzero htake, hinstr]

/-! ## Operands of a longer stream -/

theorem takeWord_extend {bs rest : List Byte} {w : Word} (h : takeWord bs = some (w, rest)) (more : List Byte) :
    takeWord (bs ++ more) = some (w, rest ++ more) := by
  rw [takeWord_eq_some h, List.append_assoc, takeWord_be32]

theorem takeBytes_extend {n : Nat} {bs data rest : List Byte} (h : takeBytes n bs = some (data, rest))
    (more : List Byte) : takeBytes n (bs ++ more) = some (data, rest ++ more) := by
  obtain ⟨rfl, rfl⟩ := takeBytes_eq_some h
  rw [List.append_assoc, takeBytes_append]

/-- Operands that are there stay the same when the stream goes on behind them. -/
theorem takeOperands_extend {f : Format} {bs data rest : List Byte} {value : Word}
    (h : takeOperands f bs = some (value, data, rest)) (more : List Byte) :
    takeOperands f (bs ++ more) = some (value, data, rest ++ more) := by
  cases f with
  | f0 | fi | fl | fe => cases h; rfl
  | fw =>
    simp only [takeOperands, Option.map_eq_some_iff] at h ⊢
    obtain ⟨⟨w, tail⟩, hword, heq⟩ := h
    cases heq
    exact ⟨_, takeWord_extend hword more, rfl⟩
  | fd =>
    simp only [takeOperands, Option.bind_eq_some_iff, Option.map_eq_some_iff] at h ⊢
    obtain ⟨⟨len, tail⟩, hword, ⟨bytes, tail'⟩, hbytes, heq⟩ := h
    cases heq
    exact ⟨_, takeWord_extend hword more, _, takeBytes_extend hbytes more, rfl⟩
  | fr =>
    simp only [takeOperands, Option.map_eq_some_iff] at h ⊢
    obtain ⟨⟨bytes, tail⟩, hbytes, heq⟩ := h
    cases heq
    exact ⟨_, takeBytes_extend hbytes more, rfl⟩

/-- A proper beginning of an instruction's operands is no operands: if it were, the whole would leave the missing bytes
over, and it leaves none. -/
theorem takeOperands_take_eq_none {i : Instr} (hwf : i.wellFormed = true) {m : Nat} (hm : m < i.operandBytes.length) :
    takeOperands i.op.format (i.operandBytes.take m) = none := by
  obtain ⟨_, _, hoperands⟩ := headerFits i hwf
  obtain ⟨_, _, hwhole, _⟩ := hoperands []
  rw [List.append_nil] at hwhole
  cases hcut : takeOperands i.op.format (i.operandBytes.take m) with
  | none => rfl
  | some answer =>
    obtain ⟨value, data, rest⟩ := answer
    have hlonger := takeOperands_extend hcut (i.operandBytes.drop m)
    rw [List.take_append_drop, hwhole] at hlonger
    simp only [Option.some.injEq, Prod.mk.injEq] at hlonger
    obtain ⟨_, _, hleft⟩ := hlonger
    have hdrop := List.drop_eq_nil_iff.mp (List.append_eq_nil_iff.mp hleft.symm).2
    omega

/-- A well-formed command cut short after its first byte is truncated, in its header or in its operands (R117). -/
theorem decode_take_encode {i : Instr} {n : Nat} (hwf : i.wellFormed = true) (hpos : 0 < n)
    (hn : n < (encode i).length) : decode ((encode i).take n) = .truncated := by
  have hlen : (encode i).length = 4 + i.operandBytes.length := by simp [encode]
  rcases Nat.lt_or_ge n 4 with hshort | hheader
  · apply decode_of_length_lt
    · exact List.ne_nil_of_length_pos (by rw [List.length_take]; omega)
    · rw [List.length_take]; omega
  · have hsplit : (encode i).take n = be32 i.header ++ i.operandBytes.take (n - 4) := by
      rw [encode, List.take_append, be32_length, List.take_of_length_le (by simpa using hheader)]
    obtain ⟨hop, _⟩ := headerFits i hwf
    rw [hsplit]
    exact decode_of_takeOperands_none hop (takeOperands_take_eq_none hwf (by omega))

end Sys2Proof

namespace Sys2Proof.Machine

open Sys2Proof

/-! ## The step on a command it does not run -/

/-- A header the decoder turns away ends with ProtocolViolation (R115, R116). -/
theorem step_rejected {s : State} {rest : List Byte}
    (h : decode s.input = .reservedBits rest ∨ decode s.input = .unassignedOpcode rest) :
    step s = .next { s with
      st := { s.st with lastStatus := .protocolViolation }
      input := rest
      response := ⟨.protocolViolation, [], 0, []⟩ } := by
  rcases h with h | h <;> (rw [step, fetch, h]; rfl)

theorem step_truncated {s : State} (h : decode s.input = .truncated) : step s = .refused .truncatedCommand := by
  rw [step, fetch, h]

/-- Settles O5: the bits the statement lists are the format's mask without its OP byte. -/
theorem reservedBitsRejected : Obligations.ReservedBitsRejected := by
  intro s op h value data operands rest hop hset htake hinput
  have hzero : reservedZero op h = false := reservedZero_eq_false (by cases op.format <;> rfl) hset
  exact step_rejected (.inl (hinput ▸ decode_reserved hop hzero htake))

/-- Settles O6: the decoder finds the cut, in the header or in the operands. -/
theorem truncatedCommandRefused : Obligations.TruncatedCommandRefused := by
  intro s i n hwf hpos hn hinput
  exact step_truncated (hinput ▸ decode_take_encode hwf hpos hn)

/-- Settles O3: the first seven examples are the encodings of their operations, and the last sets a reserved bit. -/
theorem headerExamplesDecode : Obligations.HeaderExamplesDecode :=
  ⟨decode_encode (i := .writeKey 3 0xFEFFE992) rfl [],
    decode_encode (i := .loadKey 256) rfl [],
    decode_encode (i := .loadKey 100) rfl [],
    decode_encode (i := .startMessage true) rfl [],
    decode_encode (i := .startMessage false) rfl [],
    decode_encode (i := .pushData 1 [0x01, 0x02, 0x03, 0x04, 0x05]) rfl [],
    decode_encode (i := .readTag 2) rfl [],
    decode_reserved (op := .endAad) (h := 0x00000406) (operands := []) rfl rfl rfl⟩

/-- Settles O4: no row has an OP byte of 0x0E or more. -/
theorem unassignedOpcodesRejected : Obligations.UnassignedOpcodesRejected := by
  intro s h rest hop hinput
  exact step_rejected (.inr (hinput ▸ decode_unassigned (Op.ofCode_eq_none hop) rest))

end Sys2Proof.Machine


/-! PROOFS. The block cipher (41_block_cipher.md): the words of the key schedule, the S-box, the round transformations on the
bytes `s[r][c]`, `encrypt_block` round by round, and that it is a bijection of the block. -/

namespace Sys2Proof.Machine

open Sys2Proof

/-! ## The key schedule -/

/-- The word that R155 adds to `w[i-Nk]` to make `w[i]`, from `w[i-1]`. -/
def scheduleTerm (nk i : Nat) (t : Word) : Word :=
  if i % nk = 0 then subWord (rotWord t) ^^^ rcon (i / nk)
  else if nk = 8 ∧ i % nk = 4 then subWord t
  else t

/-- The recurrence of R155, on a list of words `w[0], w[1], …` as far as it goes. -/
def ScheduleRecurrence (nk : Nat) (ws : List Word) : Prop :=
  ∀ i, nk ≤ i → i < ws.length → ws.getD i 0 = ws.getD (i - nk) 0 ^^^ scheduleTerm nk i (ws.getD (i - 1) 0)

/-- The words after `n` steps of the key expansion, in schedule order. -/
def expandedWords (nk : Nat) (key : List Word) (n : Nat) : List Word :=
  ((List.range' nk n).foldl (expandStep nk) (key.take nk).reverse).reverse

theorem scheduleWords_eq_expandedWords (nk : Nat) (key : List Word) :
    scheduleWords nk key = expandedWords nk key (4 * (nk + 7) - nk) := rfl

/-- A step of the key expansion puts one word after the words it has. -/
theorem expandStep_reverse {nk i : Nat} {ws : List Word} (hnk : 0 < nk) (hi : nk ≤ i) (hlen : ws.length = i) :
    (expandStep nk ws.reverse i).reverse = ws ++ [ws.getD (i - nk) 0 ^^^ scheduleTerm nk i (ws.getD (i - 1) 0)] := by
  have hlast : ws.reverse.headD 0 = ws.getD (i - 1) 0 := by
    rw [List.headD_eq_head?_getD, List.head?_reverse, List.getLast?_eq_getElem?, hlen, List.getD_eq_getElem?_getD]
  have hback : ws.reverse.getD (nk - 1) 0 = ws.getD (i - nk) 0 := by
    rw [List.getD_eq_getElem?_getD, List.getElem?_reverse (by omega), List.getD_eq_getElem?_getD, hlen]
    congr 2
    omega
  rw [expandStep, hlast, hback, List.reverse_cons, List.reverse_reverse]
  rfl

/-- The recurrence goes on when the word it asks for is put behind. -/
theorem ScheduleRecurrence.concat {nk : Nat} {ws : List Word} (h : ScheduleRecurrence nk ws) (hnk : 0 < nk) :
    ScheduleRecurrence nk
      (ws ++ [ws.getD (ws.length - nk) 0 ^^^ scheduleTerm nk ws.length (ws.getD (ws.length - 1) 0)]) := by
  intro i hi hlt
  rw [List.length_append, List.length_singleton] at hlt
  rw [List.getD_append _ _ _ (i - nk) (by omega), List.getD_append _ _ _ (i - 1) (by omega)]
  rcases Nat.lt_or_eq_of_le (Nat.le_of_lt_succ hlt) with hold | rfl
  · rw [List.getD_append _ _ _ i hold]
    exact h i hi hold
  · rw [List.getD_append_right _ _ _ _ le_rfl, Nat.sub_self]
    rfl

section
variable {nk : Nat} {key : List Word} (hnk : 0 < nk) (hkey : nk ≤ key.length)
include hnk hkey

/-- The expansion goes on from the key words by the recurrence. -/
theorem expandedWords_spec (n : Nat) :
    (expandedWords nk key n).length = nk + n ∧ (expandedWords nk key n).take nk = key.take nk ∧
    ScheduleRecurrence nk (expandedWords nk key n) := by
  induction n with
  | zero =>
    have hstart : expandedWords nk key 0 = key.take nk := List.reverse_reverse _
    have hlen : (key.take nk).length = nk := List.length_take_of_le hkey
    rw [hstart]
    exact ⟨hlen, by rw [List.take_take, Nat.min_self], fun i hi hlt => absurd (hlen ▸ hlt) (Nat.not_lt.mpr hi)⟩
  | succ n ih =>
    obtain ⟨hlen, htake, hrec⟩ := ih
    have hstep : expandedWords nk key (n + 1) =
        (expandStep nk (expandedWords nk key n).reverse (nk + n)).reverse := by
      rw [expandedWords, List.range'_1_concat, List.foldl_concat, expandedWords, List.reverse_reverse]
    rw [hstep, expandStep_reverse hnk (Nat.le_add_right nk n) hlen, ← hlen]
    refine ⟨?_, ?_, hrec.concat hnk⟩
    · rw [List.length_append, List.length_singleton, hlen, Nat.add_assoc]
    · rw [List.take_append_of_le_length (by omega), htake]

theorem scheduleWords_length : (scheduleWords nk key).length = 4 * (nk + 7) := by
  obtain ⟨hlen, _⟩ := expandedWords_spec hnk hkey (4 * (nk + 7) - nk)
  rw [scheduleWords_eq_expandedWords, hlen]
  omega

theorem scheduleWords_getD_key {i : Nat} (hi : i < nk) : (scheduleWords nk key).getD i 0 = key.getD i 0 := by
  obtain ⟨_, htake, _⟩ := expandedWords_spec hnk hkey (4 * (nk + 7) - nk)
  rw [scheduleWords_eq_expandedWords]
  have hword := congrArg (·[i]?.getD 0) htake
  simpa only [List.getElem?_take_of_lt hi, ← List.getD_eq_getElem?_getD] using hword

theorem scheduleWords_recurrence : ScheduleRecurrence nk (scheduleWords nk key) := by
  obtain ⟨_, _, hrec⟩ := expandedWords_spec hnk hkey (4 * (nk + 7) - nk)
  exact hrec

end

/-- A valid key length has 4, 6 or 8 key words (R152). -/
theorem KeyLen.nk_bounds {len : KeyLen} (h : len ≠ .unset) : 0 < len.nk ∧ len.nk ≤ 8 := by
  cases len with
  | unset => exact absurd rfl h
  | k128 | k192 | k256 => decide

theorem expandKey_eq {len : KeyLen} (h : len ≠ .unset) (key : Vector Word 8) :
    expandKey key len = padWords 60 (scheduleWords len.nk key.toList) := by
  cases len with
  | unset => exact absurd rfl h
  | k128 | k192 | k256 => rfl

/-- Settles O16: below word 60 the words are those of the list, which holds 4·(Nr+1) of them. -/
theorem expandKeyRecurrence : Obligations.ExpandKeyRecurrence := by
  intro key len hset w
  obtain ⟨hpos, hle⟩ := KeyLen.nk_bounds hset
  have hkey : len.nk ≤ key.toList.length := by rw [Vector.length_toList]; exact hle
  have hcount : 4 * (len.nr + 1) = 4 * (len.nk + 7) := by rw [KeyLen.nr]; omega
  have hlen := scheduleWords_length hpos hkey
  have hw : ∀ i, i < 60 → w i = (scheduleWords len.nk key.toList).getD i 0 := by
    intro i hi
    simp only [w, expandKey_eq hset]
    rw [List.getD_eq_getElem _ _ (by simpa using hi), Vector.getElem_toList, padWords_getElem]
  refine ⟨fun i hi => ?_, fun i hi hlt => ?_, fun i hge hi => ?_⟩
  · rw [hw i (by omega), scheduleWords_getD_key hpos hkey hi]
  · rw [hw i (by omega), hw (i - len.nk) (by omega), hw (i - 1) (by omega)]
    exact scheduleWords_recurrence hpos hkey i hi (by omega)
  · rw [hw i hi, List.getD_eq_default _ _ (by omega)]

/-! ## GF(2^8) and the S-box -/

/-- The table is the formula, on all 256 bytes (R145). -/
theorem sbox_eq_sboxFormula : ∀ a : Byte, sbox a = sboxFormula a := by decide +kernel

/-- The power a^254 is the inverse, on all 255 bytes that have one (R143). -/
theorem gmul8_ginv8 : ∀ a : Byte, a ≠ 0 → gmul8 a (ginv8 a) = 1 := by decide +kernel

/-- Settles O47: the formula is the statement's with `ginv8 a` for b. -/
theorem sboxIsItsFormula : Obligations.SboxIsItsFormula :=
  ⟨sbox_eq_sboxFormula, by decide, gmul8_ginv8⟩

/-- The matrix entries of MixColumns (R149). -/
theorem gmul8_two : ∀ a : Byte, gmul8 2 a = xtime a := by decide +kernel

theorem gmul8_three : ∀ a : Byte, gmul8 3 a = xtime a ^^^ a := by decide +kernel

/-- Multiplication by x is linear. -/
theorem xtime_xor (a b : Byte) : xtime (a ^^^ b) = xtime a ^^^ xtime b := by
  have hcarry : (if (a ^^^ b).getLsbD 7 then 0x1B else 0 : Byte) =
      (if a.getLsbD 7 then 0x1B else 0) ^^^ (if b.getLsbD 7 then 0x1B else 0) := by
    rw [BitVec.getLsbD_xor]
    cases a.getLsbD 7 <;> cases b.getLsbD 7 <;> rfl
  rw [xtime, BitVec.shiftLeft_xor_distrib, hcarry, xtime, xtime]
  ac_rfl

/-- The inverse of the S-box: its formula without the constant solved for `ginv8 a`, and that inverted. -/
def sboxInverse (b : Byte) : Byte :=
  ginv8 (b.rotateLeft 1 ^^^ b.rotateLeft 3 ^^^ b.rotateLeft 6 ^^^ 0x05)

theorem sboxInverse_sbox : ∀ a : Byte, sboxInverse (sbox a) = a := by decide +kernel

theorem sbox_injective : Function.Injective sbox := Function.LeftInverse.injective sboxInverse_sbox

/-! ## Words and blocks as bytes -/

theorem extractLsb'_extractLsb' {w : Nat} (x : BitVec w) {s n t m : Nat} (h : t + m ≤ n) :
    (x.extractLsb' s n).extractLsb' t m = x.extractLsb' (s + t) m := by
  ext i hi
  simp only [BitVec.getElem_extractLsb', BitVec.getLsbD_extractLsb', decide_eq_true (by omega : t + i < n),
    Bool.true_and, Nat.add_assoc]

/-- A word is its four bytes. -/
theorem word_wordByte (w : Word) : word (wordByte w 0) (wordByte w 1) (wordByte w 2) (wordByte w 3) = w := by
  simp only [word, wordByte]
  iterate 3 rw [BitVec.extractLsb'_append_extractLsb'_eq_extractLsb' (by rfl)]
  exact BitVec.extractLsb'_eq_self

theorem word_ext {v w : Word} (h : ∀ r : Fin 4, wordByte v r.val = wordByte w r.val) : v = w := by
  have h0 : wordByte v 0 = wordByte w 0 := h 0
  have h1 : wordByte v 1 = wordByte w 1 := h 1
  have h2 : wordByte v 2 = wordByte w 2 := h 2
  have h3 : wordByte v 3 = wordByte w 3 := h 3
  rw [← word_wordByte v, h0, h1, h2, h3, word_wordByte]

/-- The words of a block made of four words. -/
theorem extractLsb'_four_words (w0 w1 w2 w3 : Word) :
    (w0 ++ w1 ++ w2 ++ w3).extractLsb' 96 32 = w0 ∧ (w0 ++ w1 ++ w2 ++ w3).extractLsb' 64 32 = w1 ∧
    (w0 ++ w1 ++ w2 ++ w3).extractLsb' 32 32 = w2 ∧ (w0 ++ w1 ++ w2 ++ w3).extractLsb' 0 32 = w3 := by
  simp (disch := decide) only [BitVec.extractLsb'_append_eq_of_le, BitVec.extractLsb'_append_eq_of_add_le,
    BitVec.extractLsb'_eq_self, Nat.reduceSub, and_self]

theorem wordByte_subWord (w : Word) (r : Fin 4) : wordByte (subWord w) r.val = sbox (wordByte w r.val) := by
  match r with
  | 0 | 1 | 2 | 3 => simp [subWord, wordByte_word]

theorem subWord_injective : Function.Injective subWord := by
  intro v w h
  apply word_ext
  intro r
  apply sbox_injective
  rw [← wordByte_subWord, h, wordByte_subWord]

/-! ## MixColumns on a column -/

/-- A row of MixColumns, from its own byte and the three below it, in turn (R149). -/
def mixRow (a b c d : Byte) : Byte := xtime a ^^^ (xtime b ^^^ b) ^^^ c ^^^ d

/-- What mixing twice makes of a byte: it adds the sum of the byte and the one two rows on, times `x^2`. -/
def mixRowTwice (a c : Byte) : Byte := a ^^^ xtime (xtime (a ^^^ c))

theorem byte_xor_left_comm (a b c : Byte) : a ^^^ (b ^^^ c) = b ^^^ (a ^^^ c) := by ac_rfl

theorem mixRow_mixRow (a b c d : Byte) :
    mixRow (mixRow a b c d) (mixRow b c d a) (mixRow c d a b) (mixRow d a b c) = mixRowTwice a c := by
  simp only [mixRow, mixRowTwice, xtime_xor, BitVec.xor_assoc, BitVec.xor_comm, byte_xor_left_comm, xor_cancel_left]

/-- The sum of two bytes two rows apart is kept by mixing twice, so mixing twice more adds the same again. -/
theorem mixRowTwice_mixRowTwice (a c : Byte) : mixRowTwice (mixRowTwice a c) (mixRowTwice c a) = a := by
  have hsum : mixRowTwice a c ^^^ mixRowTwice c a = a ^^^ c := by
    rw [mixRowTwice, mixRowTwice, BitVec.xor_comm c a, BitVec.xor_assoc, BitVec.xor_comm c (xtime _), xor_cancel_left]
  rw [mixRowTwice, hsum, mixRowTwice, xor_cancel_right]

theorem wordByte_mixColumn (w : Word) (r : Fin 4) :
    let a : Fin 4 → Byte := fun i => wordByte w i.val
    wordByte (mixColumn w) r.val = mixRow (a r) (a (r + 1)) (a (r + 2)) (a (r + 3)) := by
  match r with
  | 0 | 1 | 2 | 3 => simp [mixColumn, mixRow, wordByte_word] <;> ac_rfl

theorem wordByte_mixColumn_mixColumn (w : Word) (r : Fin 4) :
    let a : Fin 4 → Byte := fun i => wordByte w i.val
    wordByte (mixColumn (mixColumn w)) r.val = mixRowTwice (a r) (a (r + 2)) := by
  simp only [wordByte_mixColumn]
  match r with
  | 0 | 1 | 2 | 3 => exact mixRow_mixRow ..

theorem mixColumn_four_times (w : Word) : mixColumn (mixColumn (mixColumn (mixColumn w))) = w := by
  apply word_ext
  intro r
  have hturn : r + 2 + 2 = r := by revert r; decide
  simp only [wordByte_mixColumn_mixColumn, hturn]
  exact mixRowTwice_mixRowTwice ..

theorem mixColumn_injective : Function.Injective mixColumn :=
  Function.LeftInverse.injective (g := mixColumn^[3]) mixColumn_four_times

/-! ## The cipher state -/

theorem unloadState_loadState (b : Block) : unloadState (loadState b) = b := by
  simp only [unloadState, loadState]
  iterate 3 rw [BitVec.extractLsb'_append_extractLsb'_eq_extractLsb' (by rfl)]
  exact BitVec.extractLsb'_eq_self

theorem loadState_unloadState (s : CipherState) : loadState (unloadState s) = s := by
  obtain ⟨h0, h1, h2, h3⟩ := extractLsb'_four_words s.c0 s.c1 s.c2 s.c3
  exact (CipherState.mk.injEq ..).mpr ⟨h0, h1, h2, h3⟩

theorem stateColumn_ext {s t : CipherState} (h : ∀ c, stateColumn s c = stateColumn t c) : s = t :=
  (CipherState.mk.injEq ..).mpr ⟨h 0, h 1, h 2, h 3⟩

theorem stateByte_ext {s t : CipherState} (h : ∀ r c, stateByte s r c = stateByte t r c) : s = t :=
  stateColumn_ext fun c => word_ext fun r => h r c

theorem stateColumn_loadState (b : Block) (c : Fin 4) :
    stateColumn (loadState b) c = b.extractLsb' (96 - 32 * c.val) 32 := by
  match c with
  | 0 | 1 | 2 | 3 => rfl

theorem stateColumn_subBytes (s : CipherState) (c : Fin 4) : stateColumn (subBytes s) c = subWord (stateColumn s c) := by
  match c with
  | 0 | 1 | 2 | 3 => rfl

theorem stateColumn_mixColumns (s : CipherState) (c : Fin 4) :
    stateColumn (mixColumns s) c = mixColumn (stateColumn s c) := by
  match c with
  | 0 | 1 | 2 | 3 => rfl

theorem stateColumn_addRoundKey (rk : Vector Word 60) (s : CipherState) (rnd : Nat) (c : Fin 4) :
    stateColumn (addRoundKey rk s rnd) c = stateColumn s c ^^^ rk.toList.getD (4 * rnd + c.val) 0 := by
  match c with
  | 0 | 1 | 2 | 3 => rfl

theorem stateByte_loadState (b : Block) (r c : Fin 4) :
    stateByte (loadState b) r c = blockByte b (r.val + 4 * c.val) := by
  rw [stateByte, stateColumn_loadState, wordByte, extractLsb'_extractLsb' _ (by omega), blockByte]
  congr 1
  omega

theorem blockByte_unloadState (s : CipherState) (r c : Fin 4) :
    blockByte (unloadState s) (r.val + 4 * c.val) = stateByte s r c := by
  rw [← stateByte_loadState, loadState_unloadState]

theorem stateByte_subBytes (s : CipherState) (r c : Fin 4) : stateByte (subBytes s) r c = sbox (stateByte s r c) := by
  rw [stateByte, stateColumn_subBytes, wordByte_subWord, stateByte]

theorem stateByte_shiftRows (s : CipherState) (r c : Fin 4) : stateByte (shiftRows s) r c = stateByte s r (c + r) := by
  have hcolumn : stateColumn (shiftRows s) c =
      gatherRows (stateColumn s c) (stateColumn s (c + 1)) (stateColumn s (c + 2)) (stateColumn s (c + 3)) := by
    match c with
    | 0 | 1 | 2 | 3 => rfl
  rw [stateByte, hcolumn]
  match r with
  | 0 | 1 | 2 | 3 => simp [gatherRows, wordByte_word, stateByte]

/-- The rows of the matrix of R149. -/
theorem stateByte_mixColumns (s : CipherState) (c : Fin 4) :
    let a : Fin 4 → Byte := fun i => stateByte s i c
    stateByte (mixColumns s) 0 c = gmul8 2 (a 0) ^^^ gmul8 3 (a 1) ^^^ a 2 ^^^ a 3 ∧
    stateByte (mixColumns s) 1 c = a 0 ^^^ gmul8 2 (a 1) ^^^ gmul8 3 (a 2) ^^^ a 3 ∧
    stateByte (mixColumns s) 2 c = a 0 ^^^ a 1 ^^^ gmul8 2 (a 2) ^^^ gmul8 3 (a 3) ∧
    stateByte (mixColumns s) 3 c = gmul8 3 (a 0) ^^^ a 1 ^^^ a 2 ^^^ gmul8 2 (a 3) := by
  simp only [stateByte, stateColumn_mixColumns, gmul8_two, gmul8_three]
  simp [mixColumn, wordByte_word]

theorem stateByte_addRoundKey (rk : Vector Word 60) (s : CipherState) (rnd : Nat) (r c : Fin 4) :
    stateByte (addRoundKey rk s rnd) r c = stateByte s r c ^^^ wordByte (rk.toList.getD (4 * rnd + c.val) 0) r.val := by
  rw [stateByte, stateColumn_addRoundKey, wordByte_xor, stateByte]

/-- Settles O58, transformation by transformation. -/
theorem roundTransformations : Obligations.RoundTransformations := by
  refine ⟨stateByte_loadState, fun s rk r c => ?_⟩
  obtain ⟨hrow0, hrow1, hrow2, hrow3⟩ := stateByte_mixColumns s c
  refine ⟨blockByte_unloadState s r c, stateByte_subBytes s r c, stateByte_shiftRows s r c,
    ⟨hrow0, hrow1, hrow2, hrow3, gmul8_two _, gmul8_three _⟩, fun rnd h => ?_⟩
  rw [stateByte_addRoundKey]
  simp [h]

/-! ## Round by round -/

/-- The cipher state after round `n` (R160), `n` at most Nr - 1. -/
def roundState (rk : Vector Word 60) (b : Block) : Nat → CipherState
  | 0 => addRoundKey rk (loadState b) 0
  | n + 1 => cipherRound rk (roundState rk b n) (n + 1)

theorem foldl_cipherRound (rk : Vector Word 60) (b : Block) (n : Nat) :
    (List.range' 1 n).foldl (cipherRound rk) (addRoundKey rk (loadState b) 0) = roundState rk b n := by
  induction n with
  | zero => rfl
  | succ n ih => rw [List.range'_1_concat, List.foldl_concat, ih, Nat.add_comm 1 n]; rfl

theorem encryptBlock_eq (rk : Vector Word 60) (nr : Nat) (b : Block) :
    encryptBlock rk nr b = unloadState (addRoundKey rk (shiftRows (subBytes (roundState rk b (nr - 1)))) nr) := by
  rw [encryptBlock, foldl_cipherRound]

/-- Settles O59 with the bytes of `roundState`. -/
theorem encryptBlockRounds : Obligations.EncryptBlockRounds := by
  intro rk nr b _
  refine ⟨fun n => stateByte (roundState rk b n), fun r c => ?_, fun n _ c => ?_, fun r c => ?_⟩
  · simp only [roundState, stateByte_addRoundKey, stateByte_loadState]
  · obtain ⟨hrow0, hrow1, hrow2, hrow3⟩ := stateByte_mixColumns (shiftRows (subBytes (roundState rk b n))) c
    simp only [roundState, cipherRound, stateByte_addRoundKey, hrow0, hrow1, hrow2, hrow3, stateByte_shiftRows,
      stateByte_subBytes, and_self]
  · rw [encryptBlock_eq, blockByte_unloadState, stateByte_addRoundKey, stateByte_shiftRows, stateByte_subBytes]

/-! ## Every part of a round is injective -/

/-- A transformation that acts on each column by an injective function is injective. -/
theorem injective_of_columns {f : CipherState → CipherState} {g : Fin 4 → Word → Word}
    (hf : ∀ s c, stateColumn (f s) c = g c (stateColumn s c)) (hg : ∀ c, Function.Injective (g c)) :
    Function.Injective f := by
  intro s t h
  apply stateColumn_ext
  intro c
  apply hg c
  rw [← hf, h, hf]

theorem subBytes_injective : Function.Injective subBytes :=
  injective_of_columns stateColumn_subBytes fun _ => subWord_injective

theorem mixColumns_injective : Function.Injective mixColumns :=
  injective_of_columns stateColumn_mixColumns fun _ => mixColumn_injective

theorem addRoundKey_injective (rk : Vector Word 60) (rnd : Nat) : Function.Injective fun s => addRoundKey rk s rnd :=
  injective_of_columns (g := fun c w => w ^^^ rk.toList.getD (4 * rnd + c.val) 0)
    (fun s c => stateColumn_addRoundKey rk s rnd c) fun _ _ _ h => (BitVec.xor_left_inj _).mp h

/-- Four rotations by `r` places bring row `r` back. -/
theorem shiftRows_four_times (s : CipherState) : shiftRows (shiftRows (shiftRows (shiftRows s))) = s := by
  apply stateByte_ext
  intro r c
  have hturn : ∀ r c : Fin 4, c + r + r + r + r = c := by decide
  simp only [stateByte_shiftRows, hturn]

theorem shiftRows_injective : Function.Injective shiftRows :=
  Function.LeftInverse.injective (g := shiftRows^[3]) shiftRows_four_times

theorem loadState_injective : Function.Injective loadState := Function.LeftInverse.injective unloadState_loadState

theorem unloadState_injective : Function.Injective unloadState := Function.LeftInverse.injective loadState_unloadState

theorem finalRound_injective (rk : Vector Word 60) (rnd : Nat) :
    Function.Injective fun s => addRoundKey rk (shiftRows (subBytes s)) rnd :=
  (addRoundKey_injective rk rnd).comp (shiftRows_injective.comp subBytes_injective)

theorem cipherRound_injective (rk : Vector Word 60) (rnd : Nat) : Function.Injective fun s => cipherRound rk s rnd :=
  (addRoundKey_injective rk rnd).comp (mixColumns_injective.comp (shiftRows_injective.comp subBytes_injective))

theorem roundState_injective (rk : Vector Word 60) (n : Nat) : Function.Injective fun b => roundState rk b n := by
  induction n with
  | zero => exact (addRoundKey_injective rk 0).comp loadState_injective
  | succ n ih => exact (cipherRound_injective rk (n + 1)).comp ih

theorem encryptBlock_injective (rk : Vector Word 60) (nr : Nat) : Function.Injective (encryptBlock rk nr) := by
  intro b b' h
  rw [encryptBlock_eq, encryptBlock_eq] at h
  exact roundState_injective rk (nr - 1) (finalRound_injective rk nr (unloadState_injective h))

/-- Settles O48: the blocks are finitely many, so an injective function of the block is onto. -/
theorem encryptBlockBijective : Obligations.EncryptBlockBijective := by
  intro rk nr
  have hfinite : Finite Block := Finite.of_equiv _ (BitVec.equivFin (m := 128)).symm.toEquiv
  exact Finite.injective_iff_bijective.mp (encryptBlock_injective rk nr)

end Sys2Proof.Machine


/-! PROOFS. The GHASH multiplier (42_ghash.md R191, R192). `gf128_mul x y` is the sum of `x^i · y` over the coefficients `i`
set in `x`, so it commutes with every linear map that commutes with multiplication by x (`MulXLinear.map_gf128Mul`). The map
`gf128_mul z` is such a map, and `2^127` is the one on the right: this makes the product commutative and associative,
whatever the reduction constant is. -/

namespace Sys2Proof.Machine

/-! ## Multiplication by x -/

/-- Multiplication by x is a shift and, for a set top coefficient, the reduction (R191). -/
theorem mulX_eq_xor (v : Block) : mulX v = v >>> 1 ^^^ if v.getLsbD 0 then ghashR else 0 := by
  rw [mulX]
  split
  · rfl
  · exact (BitVec.xor_zero ..).symm

/-- Multiplication by x is linear. -/
theorem mulX_xor (a b : Block) : mulX (a ^^^ b) = mulX a ^^^ mulX b := by
  have hreduction : (if (a ^^^ b).getLsbD 0 then ghashR else 0) =
      (if a.getLsbD 0 then ghashR else 0) ^^^ (if b.getLsbD 0 then ghashR else 0) := by
    rw [BitVec.getLsbD_xor]
    cases a.getLsbD 0 <;> cases b.getLsbD 0 <;> rfl
  rw [mulX_eq_xor, BitVec.ushiftRight_xor_distrib, hreduction, mulX_eq_xor, mulX_eq_xor]
  ac_rfl

/-- Below the reduction, multiplication by x takes the power `x^(126 - k)` to the next one. -/
theorem mulX_one_shiftLeft_succ {k : Nat} (hk : k < 127) : mulX (1#128 <<< (k + 1)) = 1#128 <<< k := by
  have hlow : (1#128 <<< (k + 1)).getLsbD 0 = false := by simp
  rw [mulX, hlow, if_neg Bool.false_ne_true, ← BitVec.twoPow_eq, ← BitVec.twoPow_eq]
  apply BitVec.eq_of_getLsbD_eq
  intro j hj
  rw [BitVec.getLsbD_ushiftRight, BitVec.getLsbD_twoPow, BitVec.getLsbD_twoPow, Bool.eq_iff_iff]
  simp only [Bool.and_eq_true, decide_eq_true_eq]
  omega

/-- `x^i · 1` is the power `x^i`: bit `127 - i` of the block (R190). -/
theorem mulX_iterate_one {i : Nat} (hi : i ≤ 127) : mulX^[i] (1#128 <<< 127) = 1#128 <<< (127 - i) := by
  induction i with
  | zero => rfl
  | succ i ih =>
    have hpower : 127 - i = 127 - (i + 1) + 1 := by omega
    rw [Function.iterate_succ_apply', ih (by omega), hpower, mulX_one_shiftLeft_succ (by omega)]

/-! ## The product as a sum -/

/-- The term of the product that coefficient `i` of `x` gives: `x^i · y` where it is set. -/
def gf128Term (x y : Block) (i : Nat) : Block := if x.getLsbD (127 - i) then mulX^[i] y else 0

/-- The sum of the first `n` terms: `Z` after `n` iterations of R191. -/
def gf128Sum (x y : Block) : Nat → Block
  | 0 => 0
  | n + 1 => gf128Sum x y n ^^^ gf128Term x y n

/-- `Z` and `V` after `n` iterations. -/
theorem foldl_gf128Step (x y : Block) (n : Nat) :
    (List.range n).foldl (gf128Step x) (0, y) = (gf128Sum x y n, mulX^[n] y) := by
  induction n with
  | zero => rfl
  | succ n ih =>
    rw [List.range_succ, List.foldl_append, ih, Function.iterate_succ_apply', gf128Sum, gf128Term]
    cases hbit : x.getLsbD (127 - n) <;> simp [gf128Step, hbit]

theorem gf128Mul_eq_sum (x y : Block) : gf128Mul x y = gf128Sum x y 128 := by
  rw [gf128Mul, foldl_gf128Step]

/-! ## Linear maps that commute with multiplication by x -/

/-- A map of blocks that keeps sums and multiplication by x. -/
structure MulXLinear (f : Block → Block) : Prop where
  map_xor : ∀ a b, f (a ^^^ b) = f a ^^^ f b
  map_mulX : ∀ a, f (mulX a) = mulX (f a)

theorem MulXLinear.map_zero {f : Block → Block} (hf : MulXLinear f) : f 0 = 0 := by
  have h := hf.map_xor 0 0
  rwa [BitVec.xor_self, BitVec.xor_self] at h

theorem MulXLinear.map_gf128Term {f : Block → Block} (hf : MulXLinear f) (x y : Block) (i : Nat) :
    f (gf128Term x y i) = gf128Term x (f y) i := by
  have hpower : f (mulX^[i] y) = mulX^[i] (f y) := (Function.Semiconj.iterate_right hf.map_mulX i) y
  rw [gf128Term, gf128Term, apply_ite f, hpower, hf.map_zero]

/-- Such a map passes through the second factor. -/
theorem MulXLinear.map_gf128Mul {f : Block → Block} (hf : MulXLinear f) (x y : Block) :
    f (gf128Mul x y) = gf128Mul x (f y) := by
  have hsum (n : Nat) : f (gf128Sum x y n) = gf128Sum x (f y) n := by
    induction n with
    | zero => exact hf.map_zero
    | succ n ih => rw [gf128Sum, hf.map_xor, ih, hf.map_gf128Term, gf128Sum]
  rw [gf128Mul_eq_sum, hsum, gf128Mul_eq_sum]

theorem mulXLinear_mulX : MulXLinear mulX := ⟨mulX_xor, fun _ => rfl⟩

theorem mulX_iterate_xor (i : Nat) (a b : Block) : mulX^[i] (a ^^^ b) = mulX^[i] a ^^^ mulX^[i] b :=
  (Function.Semiconj₂.iterate mulX_xor i) a b

theorem gf128Term_xor (x y z : Block) (i : Nat) : gf128Term x (y ^^^ z) i = gf128Term x y i ^^^ gf128Term x z i := by
  cases hbit : x.getLsbD (127 - i) <;> simp [gf128Term, hbit, mulX_iterate_xor]

/-- The product distributes over exclusive-or in its second factor. -/
theorem gf128Mul_xor_right (x y z : Block) : gf128Mul x (y ^^^ z) = gf128Mul x y ^^^ gf128Mul x z := by
  have hsum (n : Nat) : gf128Sum x (y ^^^ z) n = gf128Sum x y n ^^^ gf128Sum x z n := by
    induction n with
    | zero => exact (BitVec.xor_self (x := (0 : Block))).symm
    | succ n ih =>
      rw [gf128Sum, ih, gf128Term_xor, gf128Sum, gf128Sum]
      ac_rfl
  simp only [gf128Mul_eq_sum, hsum]

theorem gf128Mul_mulX_right (x y : Block) : gf128Mul x (mulX y) = mulX (gf128Mul x y) :=
  (mulXLinear_mulX.map_gf128Mul x y).symm

theorem mulXLinear_gf128Mul (x : Block) : MulXLinear (gf128Mul x) := ⟨gf128Mul_xor_right x, gf128Mul_mulX_right x⟩

theorem gf128Mul_left_comm (x y z : Block) : gf128Mul x (gf128Mul y z) = gf128Mul y (gf128Mul x z) :=
  (mulXLinear_gf128Mul x).map_gf128Mul y z

/-! ## The one -/

/-- Term `i` of `x · 1` holds coefficient `i` of `x` and nothing else. -/
theorem getLsbD_gf128Term_one (x : Block) {i j : Nat} (hi : i ≤ 127) :
    (gf128Term x (1#128 <<< 127) i).getLsbD j = (x.getLsbD j && decide (j = 127 - i)) := by
  have hpower : (mulX^[i] (1#128 <<< 127)).getLsbD j = decide (j = 127 - i) := by
    rw [mulX_iterate_one hi, ← BitVec.twoPow_eq, BitVec.getLsbD_twoPow, decide_eq_true (by omega), Bool.true_and,
      decide_eq_decide]
    exact eq_comm
  rw [gf128Term, apply_ite (BitVec.getLsbD · j), hpower]
  by_cases hj : j = 127 - i
  · subst hj
    simp
  · simp [hj]

/-- The first `n` terms of `x · 1` hold the first `n` coefficients of `x`, its `n` highest bits. -/
theorem getLsbD_gf128Sum_one (x : Block) {n j : Nat} (hn : n ≤ 128) :
    (gf128Sum x (1#128 <<< 127) n).getLsbD j = (x.getLsbD j && decide (128 ≤ j + n)) := by
  induction n with
  | zero =>
    have hbound : x.getLsbD j = true → j < 128 := BitVec.lt_of_getLsbD
    simpa [gf128Sum] using hbound
  | succ n ih =>
    have hnew : (decide (128 ≤ j + n) ^^ decide (j = 127 - n)) = decide (128 ≤ j + (n + 1)) := by
      by_cases hj : j = 127 - n
      · rw [decide_eq_false (by omega), decide_eq_true hj, decide_eq_true (by omega), Bool.false_xor]
      · rw [decide_eq_false hj, Bool.xor_false, decide_eq_decide]
        omega
    rw [gf128Sum, BitVec.getLsbD_xor, ih (by omega), getLsbD_gf128Term_one x (by omega), ← Bool.and_xor_distrib_left,
      hnew]

theorem gf128Mul_one (x : Block) : gf128Mul x (1#128 <<< 127) = x := by
  apply BitVec.eq_of_getLsbD_eq
  intro j hj
  rw [gf128Mul_eq_sum, getLsbD_gf128Sum_one x le_rfl, decide_eq_true (Nat.le_add_left 128 j), Bool.and_true]

/-! ## The ring laws -/

theorem gf128Mul_comm (x y : Block) : gf128Mul x y = gf128Mul y x := by
  calc gf128Mul x y = gf128Mul x (gf128Mul y (1#128 <<< 127)) := by rw [gf128Mul_one]
    _ = gf128Mul y (gf128Mul x (1#128 <<< 127)) := gf128Mul_left_comm ..
    _ = gf128Mul y x := by rw [gf128Mul_one]

theorem gf128Mul_assoc (x y z : Block) : gf128Mul (gf128Mul x y) z = gf128Mul x (gf128Mul y z) := by
  calc gf128Mul (gf128Mul x y) z = gf128Mul z (gf128Mul x y) := gf128Mul_comm ..
    _ = gf128Mul x (gf128Mul z y) := gf128Mul_left_comm ..
    _ = gf128Mul x (gf128Mul y z) := by rw [gf128Mul_comm z y]

theorem gf128Mul_xor_left (x y z : Block) : gf128Mul (x ^^^ y) z = gf128Mul x z ^^^ gf128Mul y z := by
  rw [gf128Mul_comm, gf128Mul_xor_right, gf128Mul_comm z, gf128Mul_comm z]

theorem one_gf128Mul (x : Block) : gf128Mul (1#128 <<< 127) x = x := by rw [gf128Mul_comm, gf128Mul_one]

theorem gf128Mul_zero (x : Block) : gf128Mul x 0 = 0 := (mulXLinear_gf128Mul x).map_zero

theorem zero_gf128Mul (x : Block) : gf128Mul 0 x = 0 := by rw [gf128Mul_comm, gf128Mul_zero]

/-- The block of the polynomial x multiplies by x. -/
theorem gf128Mul_x (x : Block) : gf128Mul x (1#128 <<< 126) = mulX x := by
  rw [← mulX_one_shiftLeft_succ (by omega), gf128Mul_mulX_right, gf128Mul_one]

/-- Settles O49: linear in the second factor term by term, in the first by commutativity; the two powers are one
multiplication by x each, without and with the reduction. -/
theorem gf128MulIsBilinear : Obligations.Gf128MulIsBilinear := by
  have hsquare : gf128Mul (1#128 <<< 126) (1#128 <<< 126) = 1#128 <<< 125 := by
    rw [gf128Mul_x, mulX_one_shiftLeft_succ (by omega)]
  have hreduce : gf128Mul 1 (1#128 <<< 126) = 0xE1000000000000000000000000000000 := by
    rw [gf128Mul_x]
    rfl
  exact ⟨gf128Mul_xor_left, gf128Mul_xor_right,
    fun x => ⟨gf128Mul_one x, one_gf128Mul x, gf128Mul_zero x, zero_gf128Mul x⟩, hsquare, hreduce⟩

/-- Settles O50: both laws come from exchanging two factors in front of a third. -/
theorem gf128MulCommutesAndAssociates : Obligations.Gf128MulCommutesAndAssociates :=
  ⟨gf128Mul_comm, gf128Mul_assoc⟩

end Sys2Proof.Machine


/-! PROOFS. The GCM context (43_gcm_context.md): the counter, chunks, and standard GCM. `Engine.GcmProgress` says how far a
record has come in a message: what its X and HBUF have hashed (`Engine.Hashed`), which keystream bytes it has used
(`Engine.KeystreamAt`) and what it has counted. Each function of the context moves it on, and the tag of `gcm_finish` is read
off it. -/

namespace Sys2Proof.Machine

open Sys2Proof

/-! ## The counter -/

/-- Settles O51: in the concatenation the upper 96 bits are the quotient by 2^32 and the low 32 bits a sum modulo 2^32. -/
theorem inc32Rule : Obligations.Inc32Rule := by
  intro y
  have hlow : (y.extractLsb' 0 32 + 1).toNat = (y.toNat % 2 ^ 32 + 1) % 2 ^ 32 := by simp
  have hhigh : (y.extractLsb' 32 96).toNat = y.toNat / 2 ^ 32 := by
    rw [BitVec.extractLsb'_toNat, Nat.shiftRight_eq_div_pow]
    exact Nat.mod_eq_of_lt (by omega)
  rw [inc32, BitVec.toNat_append, ← Nat.shiftLeft_add_eq_or_of_lt (y.extractLsb' 0 32 + 1).isLt, Nat.shiftLeft_eq,
    hlow, hhigh]

/-! ## Cutting into chunks -/

/-- Another AAD_LEN and CT_LEN: fields that absorbing a byte neither reads nor writes. -/
def Engine.withLengths (st : Engine) (aadLen ctLen : BitVec 64) : Engine := { st with aadLen := aadLen, ctLen := ctLen }

theorem absorbByte_withLengths (st : Engine) (a c : BitVec 64) (b : Byte) :
    absorbByte (st.withLengths a c) b = (absorbByte st b).withLengths a c := by
  have hbuf : (st.withLengths a c).hbuf = st.hbuf := rfl
  unfold absorbByte
  rw [hbuf]
  split <;> rfl

theorem foldl_absorbByte_withLengths (bs : List Byte) (st : Engine) (a c : BitVec 64) :
    bs.foldl absorbByte (st.withLengths a c) = (bs.foldl absorbByte st).withLengths a c := by
  induction bs generalizing st with
  | nil => rfl
  | cons b bs ih => rw [List.foldl_cons, absorbByte_withLengths, ih]; rfl

theorem refillKeystream_withLengths (st : Engine) (a c : BitVec 64) :
    refillKeystream (st.withLengths a c) = (refillKeystream st).withLengths a c := by
  have hkpos : (st.withLengths a c).kpos = st.kpos := rfl
  unfold refillKeystream
  rw [hkpos]
  split <;> rfl

theorem payloadOut_withLengths (st : Engine) (a c : BitVec 64) (b : Byte) :
    payloadOut (st.withLengths a c) b = payloadOut st b := by
  rw [payloadOut, payloadOut, refillKeystream_withLengths]
  rfl

theorem payloadByte_withLengths (st : Engine) (a c : BitVec 64) (b : Byte) :
    (payloadByte (st.withLengths a c, []) b).1 = (payloadByte (st, []) b).1.withLengths a c := by
  rw [payloadByte_eq, payloadByte_eq, payloadOut_withLengths, refillKeystream_withLengths]
  exact absorbByte_withLengths { refillKeystream st with kpos := (refillKeystream st).kpos + 1 } a c _

theorem payload_foldl_withLengths (bs : List Byte) (st : Engine) (a c : BitVec 64) :
    bs.foldl payloadByte (st.withLengths a c, []) =
      ((bs.foldl payloadByte (st, [])).1.withLengths a c, (bs.foldl payloadByte (st, [])).2) := by
  induction bs generalizing st with
  | nil => rfl
  | cons b bs ih =>
    rw [payloadByte_foldl_cons, payloadByte_foldl_cons b bs st, payloadByte_withLengths, ih, payloadOut_withLengths]

/-- `gcm_aad` absorbs the bytes and then counts them. -/
theorem gcmAad_eq (ch : List Byte) (st : Engine) :
    gcmAad ch st = (ch.foldl absorbByte st).withLengths (st.aadLen + BitVec.ofNat 64 ch.length) st.ctLen := by
  unfold gcmAad
  rw [foldl_absorbByte_frame]
  rfl

/-- `gcm_payload` transforms the bytes and then counts them. -/
theorem gcmPayload_eq (ch : List Byte) (st : Engine) :
    gcmPayload ch st =
      ((ch.foldl payloadByte (st, [])).1.withLengths st.aadLen (st.ctLen + BitVec.ofNat 64 ch.length),
        (ch.foldl payloadByte (st, [])).2) := by
  simp only [gcmPayload]
  rw [payload_foldl_frame]
  rfl

theorem ofNat_length_append (n : BitVec 64) (a b : List Byte) :
    n + BitVec.ofNat 64 (a ++ b).length = n + BitVec.ofNat 64 a.length + BitVec.ofNat 64 b.length := by
  rw [List.length_append, BitVec.ofNat_add, BitVec.add_assoc]

/-- AAD in two chunks is AAD in one (43_gcm_context.md R223). -/
theorem gcmAad_append (a b : List Byte) (st : Engine) : gcmAad (a ++ b) st = gcmAad b (gcmAad a st) := by
  rw [gcmAad_eq b, gcmAad_eq a, foldl_absorbByte_withLengths, gcmAad_eq, List.foldl_append, ofNat_length_append]
  rfl

/-- Payload in two chunks is payload in one, the outputs in order (43_gcm_context.md R223). -/
theorem gcmPayload_append (a b : List Byte) (st : Engine) :
    gcmPayload (a ++ b) st =
      ((gcmPayload b (gcmPayload a st).1).1, (gcmPayload a st).2 ++ (gcmPayload b (gcmPayload a st).1).2) := by
  rw [gcmPayload_eq b, gcmPayload_eq a, payload_foldl_withLengths, gcmPayload_eq, List.foldl_append,
    payloadByte_foldl b, ofNat_length_append]
  rfl

/-- Settles O52: bytes are absorbed one by one, the counts are only added up, and no byte reads them. -/
theorem chunkingDoesNotMatter : Obligations.ChunkingDoesNotMatter := by
  intro a b st
  rw [gcmPayload_append]
  exact ⟨gcmAad_append a b st, rfl, rfl⟩

/-! ## GHASH of a string in parts -/

/-- The first `n` blocks of a string hash the same whatever follows them. -/
theorem ghashBlocks_append_left (h : Block) {n : Nat} {a : List Byte} (b : List Byte) (x : Block) (hn : 16 * n ≤ a.length) :
    ghashBlocks h n (a ++ b) x = ghashBlocks h n a x := by
  induction n generalizing a x with
  | zero => rfl
  | succ n ih =>
    rw [ghashBlocks, ghashBlocks, List.take_append_of_le_length (by omega), List.drop_append_of_le_length (by omega)]
    exact ih _ (by rw [List.length_drop]; omega)

theorem ghashBlocks_add (h : Block) (m n : Nat) (s : List Byte) (x : Block) :
    ghashBlocks h (m + n) s x = ghashBlocks h n (s.drop (16 * m)) (ghashBlocks h m s x) := by
  induction m generalizing s x with
  | zero => simp [ghashBlocks]
  | succ m ih =>
    rw [show m + 1 + n = m + n + 1 by omega, ghashBlocks, ghashBlocks, ih, List.drop_drop,
      show 16 + 16 * m = 16 * (m + 1) by omega]

/-- A string of whole blocks is hashed before what follows it. -/
theorem ghash_append (h : Block) {a : List Byte} (b : List Byte) (ha : a.length % 16 = 0) :
    ghash h (a ++ b) = ghashBlocks h (b.length / 16) b (ghash h a) := by
  have hblocks : (a ++ b).length / 16 = a.length / 16 + b.length / 16 := by rw [List.length_append]; omega
  have hwhole : 16 * (a.length / 16) = a.length := by omega
  rw [ghash, hblocks, ghashBlocks_add, ghashBlocks_append_left h b 0 hwhole.le, hwhole, List.drop_left]
  rfl

/-- One more block is one more GHASH step. -/
theorem ghash_append_block (h : Block) {a b : List Byte} (ha : a.length % 16 = 0) (hb : b.length = 16) :
    ghash h (a ++ b) = gf128Mul (ghash h a ^^^ blockOf b) h := by
  rw [ghash_append h b ha, hb, show 16 / 16 = 0 + 1 from rfl, ghashBlocks, List.take_of_length_le hb.le]
  rfl

/-- The whole blocks of a string. -/
def wholeBlocks (s : List Byte) : List Byte := s.take (16 * (s.length / 16))

/-- The bytes of a string after its last whole block. -/
def partialBlock (s : List Byte) : List Byte := s.drop (16 * (s.length / 16))

theorem wholeBlocks_append_partialBlock (s : List Byte) : wholeBlocks s ++ partialBlock s = s := List.take_append_drop _ s

theorem wholeBlocks_length_mod (s : List Byte) : (wholeBlocks s).length % 16 = 0 := by
  rw [wholeBlocks, List.length_take_of_le (by omega)]
  omega

theorem partialBlock_length (s : List Byte) : (partialBlock s).length = s.length % 16 := by
  rw [partialBlock, List.length_drop]
  omega

theorem partialBlock_eq_nil_iff (s : List Byte) : partialBlock s = [] ↔ s.length % 16 = 0 := by
  rw [← List.length_eq_zero_iff, partialBlock_length]

theorem partialBlock_append {a : List Byte} (b : List Byte) (ha : a.length % 16 = 0) :
    partialBlock (a ++ b) = partialBlock b := by
  have hwhole : 16 * ((a ++ b).length / 16) = a.length + 16 * (b.length / 16) := by rw [List.length_append]; omega
  rw [partialBlock, hwhole, ← List.drop_drop, List.drop_left]
  rfl

/-- GHASH of a string covers its whole blocks only. -/
theorem ghash_wholeBlocks (h : Block) (s : List Byte) : ghash h (wholeBlocks s) = ghash h s := by
  have hnone : (partialBlock s).length / 16 = 0 := by rw [partialBlock_length]; omega
  conv_rhs => rw [← wholeBlocks_append_partialBlock s, ghash_append h _ (wholeBlocks_length_mod s), hnone]
  rfl

theorem padBlocks_length_mod (s : List Byte) : (padBlocks s).length % 16 = 0 := by
  rw [padBlocks, List.length_append, List.length_replicate]
  omega

theorem padBlocks_of_whole {s : List Byte} (hs : s.length % 16 = 0) : padBlocks s = s := by
  simp [padBlocks, hs]

/-- Padding fills the partial block. -/
theorem padBlocks_of_partial {s : List Byte} (hs : s.length % 16 ≠ 0) :
    padBlocks s = wholeBlocks s ++ zeroFill 16 (partialBlock s) := by
  rw [zeroFill, ← List.append_assoc, wholeBlocks_append_partialBlock, partialBlock_length, padBlocks,
    Nat.mod_eq_of_lt (by omega : 16 - s.length % 16 < 16)]

theorem padBlocks_append {a : List Byte} (b : List Byte) (ha : a.length % 16 = 0) :
    padBlocks (a ++ b) = a ++ padBlocks b := by
  rw [padBlocks, padBlocks, List.append_assoc, List.length_append, show (a.length + b.length) % 16 = b.length % 16 by omega]

/-! ## What the record has hashed -/

/-- The record has hashed the string `s` under its subkey: X is the GHASH of the whole blocks, HBUF holds the rest. -/
structure Engine.Hashed (st : Engine) (s : List Byte) : Prop where
  x_eq : st.x = ghash st.h s
  hbuf_eq : st.hbuf = partialBlock s

theorem Engine.Hashed.absorb {st : Engine} {s : List Byte} (h : st.Hashed s) (bs : List Byte) :
    (bs.foldl absorbByte st).Hashed (s ++ bs) := by
  have hshort : st.hbuf.length ≤ 15 := by rw [h.hbuf_eq, partialBlock_length]; omega
  have hsplit : s ++ bs = wholeBlocks s ++ (partialBlock s ++ bs) := by
    rw [← List.append_assoc, wholeBlocks_append_partialBlock]
  rw [foldl_absorbByte_eq bs st hshort]
  constructor
  · show ghashBlocks st.h _ _ st.x = ghash st.h (s ++ bs)
    rw [hsplit, ghash_append _ _ (wholeBlocks_length_mod s), ghash_wholeBlocks, h.x_eq, h.hbuf_eq]
  · show List.drop _ (st.hbuf ++ bs) = partialBlock (s ++ bs)
    rw [hsplit, partialBlock_append _ (wholeBlocks_length_mod s), h.hbuf_eq]
    rfl

/-- `gcm_close_hash` pads what has been hashed (43_gcm_context.md R218). -/
theorem Engine.Hashed.closeHash {st : Engine} {s : List Byte} (h : st.Hashed s) :
    (gcmCloseHash st).Hashed (padBlocks s) := by
  rw [gcmCloseHash_frame]
  constructor
  · show (gcmCloseHash st).x = ghash st.h (padBlocks s)
    rw [gcmCloseHash_x, h.hbuf_eq, h.x_eq]
    split
    · rename_i hnone
      rw [padBlocks_of_whole ((partialBlock_eq_nil_iff s).mp hnone)]
    · rename_i hpart
      rw [padBlocks_of_partial (mt (partialBlock_eq_nil_iff s).mpr hpart),
        ghash_append_block _ (wholeBlocks_length_mod s), ghash_wholeBlocks]
      exact zeroFill_length _ _ (by rw [partialBlock_length]; omega)
  · exact ((partialBlock_eq_nil_iff _).mpr (padBlocks_length_mod s)).symm

/-! ## The length block -/

/-- The big-endian value of two strings is the value of each, side by side. -/
theorem ofNat_beNat_append {m n : Nat} {as bs : List Byte} (hm : 8 * as.length = m) (hn : 8 * bs.length = n) :
    BitVec.ofNat (m + n) (beNat (as ++ bs)) = BitVec.ofNat m (beNat as) ++ BitVec.ofNat n (beNat bs) := by
  subst hm hn
  have hpow : ∀ k, 256 ^ k = 2 ^ (8 * k) := fun k => (pow_mul 2 8 k).symm
  have has : beNat as < 2 ^ (8 * as.length) := by rw [← hpow]; exact beNat_lt as
  have hbs : beNat bs < 2 ^ (8 * bs.length) := by rw [← hpow]; exact beNat_lt bs
  have hsum : beNat as * 2 ^ (8 * bs.length) + beNat bs < 2 ^ (8 * as.length + 8 * bs.length) := by
    rw [pow_add]
    nlinarith
  apply BitVec.eq_of_toNat_eq
  rw [beNat_append, hpow, BitVec.toNat_append, BitVec.toNat_ofNat, BitVec.toNat_ofNat, BitVec.toNat_ofNat,
    Nat.mod_eq_of_lt has, Nat.mod_eq_of_lt hbs, Nat.mod_eq_of_lt hsum, ← Nat.shiftLeft_add_eq_or_of_lt hbs,
    Nat.shiftLeft_eq]

/-- The length block of two byte counts is the block of the two bit lengths (43_gcm_context.md R224, R225). -/
theorem lengthBlock_eq_blockOf (a c : Nat) :
    lengthBlock (BitVec.ofNat 64 a) (BitVec.ofNat 64 c) =
      blockOf (be64 (BitVec.ofNat 64 (8 * a)) ++ be64 (BitVec.ofNat 64 (8 * c))) := by
  have hparts := ofNat_beNat_append (m := 64) (n := 64)
    (as := be64 (BitVec.ofNat 64 (8 * a))) (bs := be64 (BitVec.ofNat 64 (8 * c))) (by simp) (by simp)
  rw [be64_value, be64_value] at hparts
  have hbits : ∀ k, 8 * BitVec.ofNat 64 k = BitVec.ofNat 64 (8 * k) := fun k => (BitVec.ofNat_mul 8 k).symm
  rw [lengthBlock, hbits, hbits]
  exact hparts.symm

/-! ## The keystream -/

/-- The record has used the first `n` keystream bytes of the counter block `j0` under `cipher`: the counter has been
incremented once for each block begun, and KPOS is the place in the last of them (43_gcm_context.md R219, R220). -/
structure Engine.KeystreamAt (st : Engine) (cipher : Block → Block) (j0 : Block) (n : Nat) : Prop where
  cipher_eq : encryptE st = cipher
  y_eq : st.y = inc32^[(n + 15) / 16] j0
  kpos_eq : 16 * ((n + 15) / 16) + st.kpos.val = n + 16
  ks_eq : st.kpos ≠ 16 → st.ks = cipher st.y

section

variable {st : Engine} {cipher : Block → Block} {j0 : Block} {n : Nat}

/-- After a refill KS is the block of keystream byte `n`, and KPOS its place in it. -/
theorem Engine.KeystreamAt.refill (h : st.KeystreamAt cipher j0 n) :
    (refillKeystream st).y = inc32^[n / 16 + 1] j0 ∧ (refillKeystream st).kpos.val = n % 16 ∧
      (refillKeystream st).ks = cipher (inc32^[n / 16 + 1] j0) := by
  have hkpos := h.kpos_eq
  unfold refillKeystream
  split
  · rename_i hused
    have hval : st.kpos.val = 16 := congrArg Fin.val hused
    have hy : inc32 st.y = inc32^[n / 16 + 1] j0 := by
      rw [h.y_eq, show (n + 15) / 16 = n / 16 by omega, Function.iterate_succ_apply']
    exact ⟨hy, show 0 = n % 16 by omega, by rw [h.cipher_eq, hy]⟩
  · rename_i hleft
    have hval : st.kpos.val ≠ 16 := fun e => hleft (Fin.ext e)
    have hlt := st.kpos.isLt
    have hy : st.y = inc32^[n / 16 + 1] j0 := by rw [h.y_eq, show (n + 15) / 16 = n / 16 + 1 by omega]
    exact ⟨hy, by omega, by rw [h.ks_eq hleft, hy]⟩

theorem Engine.KeystreamAt.payloadOut_eq (h : st.KeystreamAt cipher j0 n) (b : Byte) :
    payloadOut st b = b ^^^ keystreamByte cipher j0 n := by
  obtain ⟨_, hkpos, hks⟩ := h.refill
  rw [payloadOut, hkpos, hks, keystreamByte]

theorem Engine.KeystreamAt.payloadByte (h : st.KeystreamAt cipher j0 n) (b : Byte) :
    (payloadByte (st, []) b).1.KeystreamAt cipher j0 (n + 1) := by
  obtain ⟨hy, hkpos, hks⟩ := h.refill
  have hblock : (n + 1 + 15) / 16 = n / 16 + 1 := by omega
  rw [payloadByte_frame]
  constructor
  · exact h.cipher_eq
  · rw [hblock]
    exact hy
  · have hnext : ((refillKeystream st).kpos + 1).val = n % 16 + 1 := by
      rw [Fin.val_add, hkpos]
      exact Nat.mod_eq_of_lt (by omega)
    rw [hblock, hnext]
    omega
  · intro _
    rw [hks, hy]

/-- The output of a payload is the payload XOR the keystream from byte `n` on. -/
theorem Engine.KeystreamAt.payload_out (bs : List Byte) (h : st.KeystreamAt cipher j0 n) :
    (bs.foldl Machine.payloadByte (st, [])).2 = bs.mapIdx (fun i b => b ^^^ keystreamByte cipher j0 (n + i)) := by
  induction bs generalizing st n with
  | nil => rfl
  | cons b bs ih =>
    rw [payloadByte_foldl_cons, ih (h.payloadByte b), h.payloadOut_eq, List.mapIdx_cons]
    simp only [Nat.add_zero, Nat.add_assoc, Nat.add_comm 1]

theorem Engine.KeystreamAt.payload (bs : List Byte) (h : st.KeystreamAt cipher j0 n) :
    (bs.foldl Machine.payloadByte (st, [])).1.KeystreamAt cipher j0 (n + bs.length) := by
  induction bs generalizing st n with
  | nil => exact h
  | cons b bs ih =>
    rw [payloadByte_foldl_cons, List.length_cons, Nat.add_comm bs.length, ← Nat.add_assoc]
    exact ih (h.payloadByte b)

end

/-- The ciphertext bytes of a payload: the output in encrypt mode, the input in decrypt mode (43_gcm_context.md R221). -/
def ciphertext (encrypt : Bool) (input output : List Byte) : List Byte := if encrypt then output else input

theorem ciphertext_cons (encrypt : Bool) (b o : Byte) (input output : List Byte) :
    ciphertext encrypt (b :: input) (o :: output) = (if encrypt then o else b) :: ciphertext encrypt input output := by
  cases encrypt <;> rfl

theorem ciphertext_length {encrypt : Bool} {input output : List Byte} (h : output.length = input.length) :
    (ciphertext encrypt input output).length = input.length := by
  cases encrypt
  · rfl
  · exact h

/-- One payload byte hashes its ciphertext byte. -/
theorem Engine.Hashed.payloadByte {st : Engine} {s : List Byte} (h : st.Hashed s) (b : Byte) :
    (payloadByte (st, []) b).1.Hashed (s ++ [if st.encrypt then payloadOut st b else b]) := by
  have hrefilled : { refillKeystream st with kpos := (refillKeystream st).kpos + 1 }.Hashed s := by
    rw [refillKeystream_frame]
    exact ⟨h.x_eq, h.hbuf_eq⟩
  rw [payloadByte_eq]
  exact hrefilled.absorb [_]

/-- A payload hashes its ciphertext bytes. -/
theorem Engine.Hashed.payload {st : Engine} {s : List Byte} (h : st.Hashed s) (bs : List Byte) :
    (bs.foldl Machine.payloadByte (st, [])).1.Hashed
      (s ++ ciphertext st.encrypt bs (bs.foldl Machine.payloadByte (st, [])).2) := by
  induction bs generalizing st s with
  | nil => simpa [ciphertext] using h
  | cons b bs ih =>
    have hrest := ih (h.payloadByte b)
    have hmode : (Machine.payloadByte (st, []) b).1.encrypt = st.encrypt := by rw [payloadByte_frame]
    rw [hmode, List.append_assoc, List.singleton_append] at hrest
    rw [payloadByte_foldl_cons, ciphertext_cons]
    exact hrest

/-! ## The whole context -/

/-- How far the record has come in a message under the cipher `cipher` and the counter block `j0`: it has hashed the string
`s`, counted `a` bytes of AAD, and transformed `n` bytes of payload. -/
structure Engine.GcmProgress (st : Engine) (cipher : Block → Block) (j0 : Block) (s : List Byte) (a n : Nat) : Prop where
  keyValid : st.msgKeyValid = true
  h_eq : st.h = cipher 0
  ej0_eq : st.ej0 = cipher j0
  hashed : st.Hashed s
  aadLen_eq : st.aadLen = BitVec.ofNat 64 a
  ctLen_eq : st.ctLen = BitVec.ofNat 64 n
  keystream : st.KeystreamAt cipher j0 n

theorem gcmBegin_progress (st : Engine) : (gcmBegin st).GcmProgress (encryptE st) (counterBlock0 st.iv) [] 0 0 where
  keyValid := rfl
  h_eq := rfl
  ej0_eq := rfl
  hashed := ⟨rfl, rfl⟩
  aadLen_eq := rfl
  ctLen_eq := rfl
  keystream := ⟨rfl, rfl, rfl, fun h => absurd rfl h⟩

section

variable {st : Engine} {cipher : Block → Block} {j0 : Block} {s : List Byte} {a n : Nat}

theorem Engine.GcmProgress.aad (h : st.GcmProgress cipher j0 s a n) (ch : List Byte) :
    (gcmAad ch st).GcmProgress cipher j0 (s ++ ch) (a + ch.length) n := by
  have hhash := h.hashed.absorb ch
  rw [foldl_absorbByte_frame] at hhash
  rw [gcmAad_frame]
  exact { h with
    hashed := ⟨hhash.x_eq, hhash.hbuf_eq⟩
    aadLen_eq := by rw [h.aadLen_eq, BitVec.ofNat_add]
    keystream := { h.keystream with } }

theorem Engine.GcmProgress.closeHash (h : st.GcmProgress cipher j0 s a n) :
    (gcmCloseHash st).GcmProgress cipher j0 (padBlocks s) a n := by
  have hhash := h.hashed.closeHash
  rw [gcmCloseHash_frame] at hhash ⊢
  exact { h with
    hashed := hhash
    keystream := { h.keystream with } }

/-- The output of `gcm_payload` is its input XOR the keystream (43_gcm_context.md R227). -/
theorem Engine.GcmProgress.payload_out (h : st.GcmProgress cipher j0 s a 0) (ch : List Byte) :
    (gcmPayload ch st).2 = counterMode cipher j0 ch := by
  rw [gcmPayload_eq, counterMode]
  simpa only [Nat.zero_add] using h.keystream.payload_out ch

theorem Engine.GcmProgress.payload (h : st.GcmProgress cipher j0 s a n) (ch : List Byte) :
    (gcmPayload ch st).1.GcmProgress cipher j0 (s ++ ciphertext st.encrypt ch (gcmPayload ch st).2) a (n + ch.length) := by
  have hhash := h.hashed.payload ch
  have hkeystream := h.keystream.payload ch
  rw [gcmPayload_eq]
  rw [payload_foldl_frame] at hhash hkeystream ⊢
  exact { h with
    hashed := ⟨hhash.x_eq, hhash.hbuf_eq⟩
    ctLen_eq := by rw [h.ctLen_eq, BitVec.ofNat_add]; rfl
    keystream := { hkeystream with } }

/-- The tag covers what has been hashed, padded, and the two bit lengths (43_gcm_context.md R224). -/
theorem Engine.GcmProgress.finish_tag (h : st.GcmProgress cipher j0 s a n) :
    (gcmFinish st).2 = cipher j0 ^^^ ghash (cipher 0)
      (padBlocks s ++ (be64 (BitVec.ofNat 64 (8 * a)) ++ be64 (BitVec.ofNat 64 (8 * n)))) := by
  have hclosed : (gcmCloseHash st).x = ghash (cipher 0) (padBlocks s) := by
    rw [h.closeHash.hashed.x_eq, h.closeHash.h_eq]
  rw [gcmFinish_tag, gcmFinish_x, hclosed, h.h_eq, h.ej0_eq, h.aadLen_eq, h.ctLen_eq, lengthBlock_eq_blockOf,
    ghash_append_block _ (padBlocks_length_mod s) (by simp), BitVec.xor_comm]

end

@[simp] theorem counterMode_length (cipher : Block → Block) (j0 : Block) (bs : List Byte) :
    (counterMode cipher j0 bs).length = bs.length := List.length_mapIdx

/-- The tag of a message whose AAD and ciphertext have been absorbed is the GCM tag (43_gcm_context.md R227). -/
theorem Engine.GcmProgress.gcmTag_eq {st : Engine} {cipher : Block → Block} {j0 : Block} {aad ct : List Byte}
    (h : st.GcmProgress cipher j0 (padBlocks aad ++ ct) aad.length ct.length) :
    (gcmFinish st).2 = gcmTag cipher j0 aad ct := by
  rw [h.finish_tag, padBlocks_append _ (padBlocks_length_mod aad), gcmTag, ghashInput]
  simp only [List.append_assoc]

/-- Settles O53: each function of the context moves `Engine.GcmProgress` on, and `gcm_finish` answers the tag it names. -/
theorem contextComputesGcm : Obligations.ContextComputesGcm := by
  intro st aad p begun paid cipher j0
  have hclosed : (gcmCloseHash (gcmAad aad begun)).GcmProgress cipher j0 (padBlocks aad) aad.length 0 := by
    simpa only [List.nil_append, Nat.zero_add] using ((gcmBegin_progress st).aad aad).closeHash
  have hmode : (gcmCloseHash (gcmAad aad begun)).encrypt = st.encrypt := by
    rw [gcmCloseHash_frame, gcmAad_frame]
    rfl
  have hout : paid.2 = counterMode cipher j0 p := hclosed.payload_out p
  have hpaid := hclosed.payload p
  rw [hmode, hout, Nat.zero_add, ← ciphertext_length (encrypt := st.encrypt) (counterMode_length cipher j0 p)] at hpaid
  exact ⟨hout, hpaid.gcmTag_eq⟩

end Sys2Proof.Machine


/-! PROOFS. Whole messages (43_gcm_context.md R227, R228; 45_stream_processor.md R318): what each operation of a well-formed
host sequence answers in its phase, and the sequences put together. `State.InMessage` is the state between two operations of
a message. -/

namespace Sys2Proof.Machine

open Sys2Proof

/-! ## Counter mode and blocks of words -/

/-- Counter mode undoes itself (43_gcm_context.md R228). -/
theorem counterMode_counterMode (cipher : Block → Block) (j0 : Block) (bs : List Byte) :
    counterMode cipher j0 (counterMode cipher j0 bs) = bs := by
  apply List.ext_getElem
  · rw [counterMode_length, counterMode_length]
  · intro i _ _
    simp only [counterMode, List.getElem_mapIdx, BitVec.xor_assoc, BitVec.xor_self, BitVec.xor_zero]

/-- A block made of the words of a block is that block. -/
theorem wordsBlock_blockWords (b : Block) : wordsBlock (blockWords b) = b := by
  show b.extractLsb' 96 32 ++ b.extractLsb' 64 32 ++ b.extractLsb' 32 32 ++ b.extractLsb' 0 32 = b
  iterate 3 rw [BitVec.extractLsb'_append_extractLsb'_eq_extractLsb' (by rfl)]
  exact BitVec.extractLsb'_eq_self

section

variable {c0 c1 c2 c3 : List Byte}

/-- The value of sixteen bytes is the values of their four words, side by side. -/
theorem blockOf_four_words (h0 : c0.length = 4) (h1 : c1.length = 4) (h2 : c2.length = 4) (h3 : c3.length = 4) :
    blockOf (c0 ++ c1 ++ c2 ++ c3) = wordOf c0 ++ wordOf c1 ++ wordOf c2 ++ wordOf c3 := by
  have h01 := ofNat_beNat_append (m := 32) (n := 32) (as := c0) (bs := c1) (by omega) (by omega)
  have h012 := ofNat_beNat_append (m := 64) (n := 32) (as := c0 ++ c1) (bs := c2) (by simp; omega) (by omega)
  have h0123 := ofNat_beNat_append (m := 96) (n := 32) (as := c0 ++ c1 ++ c2) (bs := c3) (by simp; omega) (by omega)
  exact h0123.trans (by rw [h012, h01]; rfl)

theorem blockOf_be32_words (v : Vector Word 4) : blockOf (v.toList.flatMap be32) = wordsBlock v := by
  have hwords : v.toList.flatMap be32 = be32 v[0] ++ be32 v[1] ++ be32 v[2] ++ be32 v[3] := by
    have hv : v.toList = [v[0], v[1], v[2], v[3]] := by
      apply List.ext_getElem
      · simp
      · intro i hi _
        have hlt : i < 4 := by simpa using hi
        interval_cases i <;> rfl
    simp [hv]
  rw [hwords, blockOf_four_words (be32_length _) (be32_length _) (be32_length _) (be32_length _), wordsBlock]
  simp only [wordOf_be32]

/-- A string of a word or more is a word and the rest. -/
theorem exists_word_append {bs : List Byte} {n : Nat} (h : bs.length = 4 + n) :
    ∃ c rest, c.length = 4 ∧ rest.length = n ∧ bs = c ++ rest :=
  ⟨bs.take 4, bs.drop 4, List.length_take_of_le (by omega), by rw [List.length_drop]; omega,
    (List.take_append_drop 4 bs).symm⟩

theorem chunkWord_of_word (h : c0.length = 4) : chunkWord c0 = wordOf c0 := by
  simp [chunkWord, zeroFill, h]

theorem splitWords_word (h : c0.length = 4) : splitWords c0 = ([c0], []) := by
  match c0, h with
  | [_, _, _, _], _ => rfl

theorem splitWords_four_words (h0 : c0.length = 4) (h1 : c1.length = 4) (h2 : c2.length = 4) (h3 : c3.length = 4) :
    splitWords (c0 ++ c1 ++ c2 ++ c3) = ([c0, c1, c2, c3], []) := by
  rw [splitWords_append c3 (by simp; omega), splitWords_append c2 (by simp; omega), splitWords_append c1 (by omega),
    splitWords_word h0, splitWords_word h1, splitWords_word h2, splitWords_word h3]
  rfl

/-! ## Committing the chunks of one phase -/

variable {p : Push}

theorem commitChunks_cons_of_ok {q : Push} {c : List Byte} (h : commitChunk p c = .ok q) (cs : List (List Byte)) :
    commitChunks (c :: cs) p = commitChunks cs q := by
  rw [commitChunks_cons, h, Except.bind]

theorem commitChunk_iv {k : Fin 4} (hp : p.st.phase = .iv k) (hk : k.val < 3) (c : List Byte) :
    commitChunk p c =
      .ok { p with st := { p.st with iv := p.st.iv.set k.val (chunkWord c) k.isLt, phase := .iv (k + 1) } } := by
  simp only [commitChunk, hp, commitIv]
  exact if_pos hk

theorem commitChunk_iv3 (hp : p.st.phase = .iv 3) (hloaded : p.st.keyLoaded = true) (c : List Byte) :
    commitChunk p c =
      .ok { p with st := { gcmBegin { p.st with iv := p.st.iv.set 3 (chunkWord c) } with phase := .aad } } := by
  simp only [commitChunk, hp, commitIv]
  exact if_pos hloaded

theorem commitChunk_aad (hp : p.st.phase = .aad) (c : List Byte) :
    commitChunk p c = .ok { p with st := gcmAad c p.st } := by
  simp only [commitChunk, hp]

theorem commitChunk_payload (hp : p.st.phase = .payload) (c : List Byte) :
    commitChunk p c = .ok { p with st := (gcmPayload c p.st).1, out := p.out ++ (gcmPayload c p.st).2 } := by
  simp only [commitChunk, hp]

theorem commitChunk_tag {k : Fin 4} (hp : p.st.phase = .tag k) (hk : k.val < 3) (c : List Byte) :
    commitChunk p c =
      .ok { p with st := { p.st with tag := p.st.tag.set k.val (chunkWord c) k.isLt, phase := .tag (k + 1) } } := by
  simp only [commitChunk, hp, commitTag]
  rw [if_pos hk]

theorem commitChunk_tag3 (hp : p.st.phase = .tag 3) (c : List Byte) :
    commitChunk p c = .ok (finishDecrypt { p with st := { p.st with tag := p.st.tag.set 3 (chunkWord c) } }) := by
  simp only [commitChunk, hp, commitTag]
  rfl

theorem set_four_words (v : Vector Word 4) (w0 w1 w2 w3 : Word) :
    (((v.set 0 w0).set 1 w1).set 2 w2).set 3 w3 = #v[w0, w1, w2, w3] := by
  ext i hi
  interval_cases i <;> simp

/-- The four IV words begin the GCM context (45_stream_processor.md R285). -/
theorem commitChunks_iv (hp : p.st.phase = .iv 0) (hloaded : p.st.keyLoaded = true) :
    commitChunks [c0, c1, c2, c3] p = .ok { p with
      st := { gcmBegin { p.st with
        iv := #v[chunkWord c0, chunkWord c1, chunkWord c2, chunkWord c3]
        phase := .iv 3 } with phase := .aad } } := by
  rw [← set_four_words p.st.iv, commitChunks_cons_of_ok (commitChunk_iv hp (by decide) c0),
    commitChunks_cons_of_ok (commitChunk_iv (k := 1) rfl (by decide) c1),
    commitChunks_cons_of_ok (commitChunk_iv (k := 2) rfl (by decide) c2)]
  exact Eq.trans (commitChunks_cons_of_ok (commitChunk_iv3 rfl (by exact hloaded) c3) []) rfl

/-- The record with its expected tag complete, right before `finish_decrypt`. -/
def Engine.withExpectedTag (st : Engine) (tag : Vector Word 4) : Engine := { st with tag := tag, phase := .tag 3 }

/-- The four words of the expected tag finish a decrypt message (45_stream_processor.md R289). -/
theorem commitChunks_tag (hp : p.st.phase = .tag 0) :
    commitChunks [c0, c1, c2, c3] p = .ok (finishDecrypt { p with
      st := p.st.withExpectedTag #v[chunkWord c0, chunkWord c1, chunkWord c2, chunkWord c3] }) := by
  rw [← set_four_words p.st.tag, commitChunks_cons_of_ok (commitChunk_tag hp (by decide) c0),
    commitChunks_cons_of_ok (commitChunk_tag (k := 1) rfl (by decide) c1),
    commitChunks_cons_of_ok (commitChunk_tag (k := 2) rfl (by decide) c2),
    commitChunks_cons_of_ok (commitChunk_tag3 rfl c3)]
  rfl

theorem finishDecrypt_tagOk (p : Push) :
    (finishDecrypt p).st.tagOk = decide (wordsBlock p.st.tag = (gcmFinish p.st).2) := by
  rw [finishDecrypt, beq_eq_decide, decide_eq_decide]
  exact eq_comm

theorem finishDecrypt_status (p : Push) :
    (finishDecrypt p).status = if wordsBlock p.st.tag = (gcmFinish p.st).2 then .ok else .authenticationFailed := by
  simp only [finishDecrypt, beq_iff_eq, eq_comm (a := (gcmFinish p.st).2)]

theorem gcmAad_nil (st : Engine) : gcmAad [] st = st := by
  rw [gcmAad_frame]
  simp

theorem gcmPayload_nil (st : Engine) : gcmPayload [] st = (st, []) := by
  simp [gcmPayload]

theorem commitChunks_aad {cs : List (List Byte)} (hp : p.st.phase = .aad) :
    commitChunks cs p = .ok { p with st := gcmAad cs.flatten p.st } := by
  induction cs generalizing p with
  | nil => rw [commitChunks_nil, List.flatten_nil, gcmAad_nil]
  | cons c cs ih =>
    have hnext : (gcmAad c p.st).phase = .aad := by rw [gcmAad_frame]; exact hp
    rw [commitChunks_cons_of_ok (commitChunk_aad hp c), ih hnext, List.flatten_cons, gcmAad_append]

theorem commitChunks_payload {cs : List (List Byte)} (hp : p.st.phase = .payload) :
    commitChunks cs p =
      .ok { p with st := (gcmPayload cs.flatten p.st).1, out := p.out ++ (gcmPayload cs.flatten p.st).2 } := by
  induction cs generalizing p with
  | nil => rw [commitChunks_nil, List.flatten_nil, gcmPayload_nil, List.append_nil]
  | cons c cs ih =>
    have hnext : (gcmPayload c p.st).1.phase = .payload := by rw [gcmPayload_frame]; exact hp
    rw [commitChunks_cons_of_ok (commitChunk_payload hp c), ih hnext, List.flatten_cons, gcmPayload_append,
      List.append_assoc]

end

/-! ## A push in one phase -/

section

variable {lw : BitVec 2} {data c rest : List Byte} {st : Engine}

theorem pushEntryCheck_eq_ok (hp : st.phase ≠ .idle) (hm : markerAgrees lw (st.wbuf ++ data).length = true)
    (hkey : st.phase.usesKey = true → st.msgKeyValid = true) : pushEntryCheck lw data st = .ok := by
  rw [pushEntryCheck, if_neg hp, hm, if_neg (by simp)]
  split
  · exact keyCheck_eq_ok.mpr (hkey ‹_›)
  · rfl

/-- A push in phase AAD, however it cuts the stream (45_stream_processor.md R286). -/
theorem pushData_aad (hp : st.phase = .aad) (hvalid : st.msgKeyValid = true) (hcut : Cuts lw (st.wbuf ++ data) c rest) :
    pushData lw data st =
      .ok { st := { gcmAad c st with wbuf := rest, done := false }, out := [], status := .ok, done := false } := by
  obtain ⟨hchunks, hrest, hmarker⟩ := hcut.chunks
  have hphase : (gcmAad c st).phase ≠ .idle := by rw [gcmAad_frame]; simp [hp]
  rw [pushData_of_checks (pushEntryCheck_eq_ok (by simp [hp]) hmarker fun _ => hvalid), commitChunks_aad hp, hchunks,
    hrest]
  exact closePush_ok (.inr hphase)

/-- A push in phase PAYLOAD, however it cuts the stream (45_stream_processor.md R287). -/
theorem pushData_payload (hp : st.phase = .payload) (hvalid : st.msgKeyValid = true)
    (hcut : Cuts lw (st.wbuf ++ data) c rest) :
    pushData lw data st = .ok {
      st := { (gcmPayload c st).1 with wbuf := rest, done := false }
      out := (gcmPayload c st).2
      status := .ok
      done := false } := by
  obtain ⟨hchunks, hrest, hmarker⟩ := hcut.chunks
  have hphase : (gcmPayload c st).1.phase ≠ .idle := by rw [gcmPayload_frame]; simp [hp]
  rw [pushData_of_checks (pushEntryCheck_eq_ok (by simp [hp]) hmarker fun _ => hvalid), commitChunks_payload hp, hchunks,
    hrest]
  exact closePush_ok (.inr hphase)

/-- The last call of an open phase commits all its bytes when it carries the byte count modulo 4 as its marker
(45_stream_processor.md R318). -/
theorem cuts_all (data : List Byte) : Cuts (BitVec.ofNat 2 data.length) data data [] := by
  have hlw : (BitVec.ofNat 2 data.length).toNat = data.length % 4 := BitVec.toNat_ofNat ..
  refine ⟨(List.append_nil data).symm, ?_⟩
  by_cases hwhole : data.length % 4 = 0
  · exact .inl ⟨BitVec.eq_of_toNat_eq (by rw [hlw, hwhole]; rfl), hwhole, Nat.zero_lt_succ 3⟩
  · exact .inr ⟨fun h => hwhole (by rw [← hlw, h]; rfl), hlw.symm, rfl⟩

variable {c0 c1 c2 c3 : List Byte}

/-- A push of four words commits them one by one. -/
theorem pushData_four_words (h0 : c0.length = 4) (h1 : c1.length = 4) (h2 : c2.length = 4) (h3 : c3.length = 4)
    (hw : st.wbuf = []) (hp : st.phase ≠ .idle) (hkey : st.phase.usesKey = true → st.msgKeyValid = true) :
    pushData 0 (c0 ++ c1 ++ c2 ++ c3) st = (commitChunks [c0, c1, c2, c3] (Push.start st)).bind (closePush []) := by
  rw [pushData_of_checks (pushEntryCheck_eq_ok hp rfl hkey), hw, List.nil_append, committedChunks_none,
    uncommittedBytes_none, splitWords_four_words h0 h1 h2 h3]

end

/-! ## The operations of a message -/

/-- A state between two operations of a message: in the phase `ph`, with no word under assembly, in the mode `encrypt`, under
a loaded key, and so far along in the GCM context. -/
structure State.InMessage (s : State) (ph : Phase) (encrypt : Bool) (cipher : Block → Block) (j0 : Block)
    (hashed : List Byte) (a n : Nat) : Prop where
  phase_eq : s.st.phase = ph
  wbuf_eq : s.st.wbuf = []
  encrypt_eq : s.st.encrypt = encrypt
  keyLoaded : s.st.keyLoaded = true
  progress : s.st.GcmProgress cipher j0 hashed a n

/-- The context reads neither the phase, the tag words, WBUF nor DONE and LAST_STATUS. -/
theorem Engine.GcmProgress.withMessageFields {st : Engine} {cipher : Block → Block} {j0 : Block} {s : List Byte} {a n : Nat}
    (h : st.GcmProgress cipher j0 s a n) (phase : Phase) (tag : Vector Word 4) (wbuf : List Byte) (done : Bool)
    (lastStatus : Status) :
    { st with phase := phase, tag := tag, wbuf := wbuf, done := done, lastStatus := lastStatus }.GcmProgress
      cipher j0 s a n :=
  { h with
    hashed := { h.hashed with }
    keystream := { h.keystream with } }

theorem exec_pushData_ok {lw : BitVec 2} {data : List Byte} {s : State} {q : Push} (h : pushData lw data s.st = .ok q) :
    exec (.pushData lw data) s =
      .next { s with st := { q.st with lastStatus := q.status }, response := ⟨q.status, q.out, 0, []⟩ } := by
  simp only [exec, execPushData, h, finish]

theorem endCheck_eq_ok {ph : Phase} {st : Engine} (hp : st.phase = ph) (hw : st.wbuf = []) (hv : st.msgKeyValid = true) :
    endCheck ph st = .ok := by
  rw [endCheck, if_neg (by simp [hp]), if_neg (by simp [hw])]
  exact keyCheck_eq_ok.mpr hv

/-- The sixteen IV bytes, of which the first twelve are the nonce, begin the context. -/
theorem exec_pushIv {s : State} {nonce last : List Byte} (hnonce : nonce.length = 12) (hlast : last.length = 4)
    (hp : s.st.phase = .iv 0) (hw : s.st.wbuf = []) (hloaded : s.st.keyLoaded = true) :
    ∃ t, exec (.pushData 0 (nonce ++ last)) s = .next t ∧ t.response.out = [] ∧
      t.InMessage .aad s.st.encrypt (encryptE s.st) (blockOf (nonce ++ [0, 0, 0, 1])) [] 0 0 := by
  obtain ⟨c0, nonce', h0, hnonce', rfl⟩ := exists_word_append (n := 8) hnonce
  obtain ⟨c1, c2, h1, h2, rfl⟩ := exists_word_append (n := 4) hnonce'
  have hj0 : blockOf (c0 ++ (c1 ++ c2) ++ [0, 0, 0, 1]) =
      counterBlock0 #v[chunkWord c0, chunkWord c1, chunkWord c2, chunkWord last] := by
    rw [← List.append_assoc, blockOf_four_words h0 h1 h2 rfl, chunkWord_of_word h0, chunkWord_of_word h1,
      chunkWord_of_word h2]
    rfl
  have hpush := pushData_four_words h0 h1 h2 hlast hw (by simp [hp]) (by simp [hp, Phase.usesKey])
  rw [commitChunks_iv hp hloaded, Except.bind, closePush_ok (.inl rfl), List.append_assoc c0] at hpush
  refine ⟨_, exec_pushData_ok hpush, rfl, ⟨rfl, rfl, rfl, hloaded, ?_⟩⟩
  rw [hj0]
  exact (gcmBegin_progress _).withMessageFields _ _ _ _ _

section

variable {s : State} {encrypt : Bool} {cipher : Block → Block} {j0 : Block} {hashed : List Byte} {a n : Nat}

/-- The AAD in one call. -/
theorem State.InMessage.pushAad (h : s.InMessage .aad encrypt cipher j0 hashed a n) (aad : List Byte) :
    ∃ t, exec (.pushData (BitVec.ofNat 2 aad.length) aad) s = .next t ∧ t.response.out = [] ∧
      t.InMessage .aad encrypt cipher j0 (hashed ++ aad) (a + aad.length) n := by
  have hcut : Cuts (BitVec.ofNat 2 aad.length) (s.st.wbuf ++ aad) aad [] := by rw [h.wbuf_eq]; exact cuts_all aad
  have hkey := gcmAad_sameKeyAndMode aad s.st
  have hphase : (gcmAad aad s.st).phase = .aad := by rw [gcmAad_frame]; exact h.phase_eq
  exact ⟨_, exec_pushData_ok (pushData_aad h.phase_eq h.progress.keyValid hcut), rfl, hphase, rfl,
    hkey.encrypt.trans h.encrypt_eq, hkey.keyLoaded.trans h.keyLoaded, (h.progress.aad aad).withMessageFields _ _ _ _ _⟩

theorem gcmCloseHash_sameKeyAndMode (st : Engine) : (gcmCloseHash st).SameKeyAndMode st := by
  rw [gcmCloseHash_frame]
  exact ⟨rfl, rfl, rfl, rfl, rfl, rfl, rfl⟩

/-- END_AAD pads the AAD and enters PAYLOAD. -/
theorem State.InMessage.endAad (h : s.InMessage .aad encrypt cipher j0 hashed a n) :
    ∃ t, exec .endAad s = .next t ∧ t.response.out = [] ∧
      t.InMessage .payload encrypt cipher j0 (padBlocks hashed) a n := by
  have hcheck : endCheck .aad s.st = .ok := endCheck_eq_ok h.phase_eq h.wbuf_eq h.progress.keyValid
  have hkey := gcmCloseHash_sameKeyAndMode s.st
  have hwbuf : (gcmCloseHash s.st).wbuf = [] := by rw [gcmCloseHash_frame]; exact h.wbuf_eq
  exact ⟨_, if_neg (by simp [hcheck]), rfl, rfl, hwbuf, hkey.encrypt.trans h.encrypt_eq, hkey.keyLoaded.trans h.keyLoaded,
    h.progress.closeHash.withMessageFields _ _ _ _ _⟩

/-- The payload in one call. -/
theorem State.InMessage.pushPayload (h : s.InMessage .payload encrypt cipher j0 hashed a 0) (p : List Byte) :
    ∃ t, exec (.pushData (BitVec.ofNat 2 p.length) p) s = .next t ∧ t.response.out = counterMode cipher j0 p ∧
      t.InMessage .payload encrypt cipher j0 (hashed ++ ciphertext encrypt p (counterMode cipher j0 p)) a p.length := by
  have hcut : Cuts (BitVec.ofNat 2 p.length) (s.st.wbuf ++ p) p [] := by rw [h.wbuf_eq]; exact cuts_all p
  have hkey := gcmPayload_sameKeyAndMode p s.st
  have hphase : (gcmPayload p s.st).1.phase = .payload := by rw [gcmPayload_frame]; exact h.phase_eq
  have hprogress := h.progress.payload p
  rw [h.progress.payload_out p, h.encrypt_eq, Nat.zero_add] at hprogress
  exact ⟨_, exec_pushData_ok (pushData_payload h.phase_eq h.progress.keyValid hcut), h.progress.payload_out p, hphase, rfl,
    hkey.encrypt.trans h.encrypt_eq, hkey.keyLoaded.trans h.keyLoaded, hprogress.withMessageFields _ _ _ _ _⟩

/-- END_PAYLOAD in encrypt mode completes the message and leaves the GCM tag (45_stream_processor.md R312). -/
theorem State.InMessage.endPayload_encrypt {aad ct : List Byte}
    (h : s.InMessage .payload true cipher j0 (padBlocks aad ++ ct) aad.length ct.length) :
    ∃ t, exec .endPayload s = .next t ∧ t.response.out = [] ∧ t.response.status = .ok ∧ t.st.phase = .idle ∧
      t.st.done = true ∧ wordsBlock t.st.tag = gcmTag cipher j0 aad ct ∧ t.st.keyLoaded = true ∧
      encryptE t.st = cipher := by
  have hcheck : endCheck .payload s.st = .ok := endCheck_eq_ok h.phase_eq h.wbuf_eq h.progress.keyValid
  refine ⟨_, if_neg (by simp [hcheck]), rfl, rfl, ?_⟩
  rw [payloadClosed_encrypt h.encrypt_eq, finishEncrypt_frame]
  refine ⟨rfl, rfl, ?_, h.keyLoaded, h.progress.keystream.cipher_eq⟩
  rw [← h.progress.gcmTag_eq]
  exact wordsBlock_blockWords _

/-- END_PAYLOAD in decrypt mode waits for the expected tag (45_stream_processor.md R313). -/
theorem State.InMessage.endPayload_decrypt (h : s.InMessage .payload false cipher j0 hashed a n) :
    ∃ t, exec .endPayload s = .next t ∧ t.response.out = [] ∧ t.InMessage (.tag 0) false cipher j0 hashed a n := by
  have hcheck : endCheck .payload s.st = .ok := endCheck_eq_ok h.phase_eq h.wbuf_eq h.progress.keyValid
  refine ⟨_, if_neg (by simp [hcheck]), rfl, ?_⟩
  rw [payloadClosed_decrypt h.encrypt_eq]
  exact ⟨rfl, h.wbuf_eq, h.encrypt_eq, h.keyLoaded, h.progress.withMessageFields _ _ _ _ _⟩

/-- The sixteen tag bytes complete a decrypt message with the verdict on them (45_stream_processor.md R304, R305). -/
theorem State.InMessage.pushTag {aad ct tag : List Byte}
    (h : s.InMessage (.tag 0) false cipher j0 (padBlocks aad ++ ct) aad.length ct.length) (htag : tag.length = 16) :
    ∃ t, exec (.pushData 0 tag) s = .next t ∧ t.response.out = [] ∧ t.st.phase = .idle ∧ t.st.done = true ∧
      t.st.tagOk = decide (blockOf tag = gcmTag cipher j0 aad ct) ∧
      t.response.status = (if blockOf tag = gcmTag cipher j0 aad ct then .ok else .authenticationFailed) := by
  obtain ⟨c0, r1, h0, hr1, rfl⟩ := exists_word_append (n := 12) htag
  obtain ⟨c1, r2, h1, hr2, rfl⟩ := exists_word_append (n := 8) hr1
  obtain ⟨c2, c3, h2, h3, rfl⟩ := exists_word_append (n := 4) hr2
  have hexpected : wordsBlock #v[chunkWord c0, chunkWord c1, chunkWord c2, chunkWord c3] =
      blockOf (c0 ++ (c1 ++ (c2 ++ c3))) := by
    rw [← List.append_assoc, ← List.append_assoc, blockOf_four_words h0 h1 h2 h3, chunkWord_of_word h0,
      chunkWord_of_word h1, chunkWord_of_word h2, chunkWord_of_word h3]
    rfl
  have hpush := pushData_four_words h0 h1 h2 h3 h.wbuf_eq (by simp [h.phase_eq]) fun _ => h.progress.keyValid
  rw [commitChunks_tag h.phase_eq, Except.bind, closePush_ok (.inl rfl), List.append_assoc, List.append_assoc] at hpush
  have hcomputed :
      (gcmFinish (s.st.withExpectedTag #v[chunkWord c0, chunkWord c1, chunkWord c2, chunkWord c3])).2 =
        gcmTag cipher j0 aad ct :=
    (h.progress.withMessageFields (.tag 3) _ s.st.wbuf s.st.done s.st.lastStatus).gcmTag_eq
  rw [← hexpected, ← hcomputed]
  exact ⟨_, exec_pushData_ok hpush, rfl, rfl, rfl, finishDecrypt_tagOk _, finishDecrypt_status _⟩

end

/-! ## Running a sequence -/

theorem runOps_nil (s : State) : runOps [] s = some (s, []) := rfl

theorem runOps_cons {i : Instr} {is : List Instr} {s t u : State} {out : List Byte} (h : exec i s = .next t)
    (hrest : runOps is t = some (u, out)) : runOps (i :: is) s = some (u, t.response.out ++ out) := by
  simp [runOps, h, hrest]

theorem runOps_append {is js : List Instr} {s t u : State} {out1 out2 : List Byte} (h1 : runOps is s = some (t, out1))
    (h2 : runOps js t = some (u, out2)) : runOps (is ++ js) s = some (u, out1 ++ out2) := by
  induction is generalizing s out1 with
  | nil =>
    obtain ⟨rfl, rfl⟩ : s = t ∧ [] = out1 := by simpa [runOps] using h1
    exact h2
  | cons i is ih =>
    cases hi : exec i s with
    | next v =>
      simp only [runOps, hi] at h1
      obtain ⟨⟨t', out⟩, hrest, hout⟩ := Option.map_eq_some_iff.mp h1
      obtain ⟨rfl, rfl⟩ := Prod.mk.inj hout
      rw [List.cons_append, runOps_cons hi (ih hrest), List.append_assoc]
    | fault => simp [runOps, hi] at h1
    | refused => simp [runOps, hi] at h1

/-- A message up to its payload, the same in both modes. -/
def messageBody (encrypt : Bool) (nonce last aad p : List Byte) : List Instr :=
  [.startMessage encrypt, .pushData 0 (nonce ++ last), .pushData (BitVec.ofNat 2 aad.length) aad, .endAad,
    .pushData (BitVec.ofNat 2 p.length) p]

/-- The body of a message outputs its payload in counter mode, from any state with a loaded key. -/
theorem runOps_messageBody {s : State} {nonce last : List Byte} (encrypt : Bool) (aad p : List Byte)
    (hloaded : s.st.keyLoaded = true) (hnonce : nonce.length = 12) (hlast : last.length = 4) :
    let cipher := encryptE s.st
    let j0 := blockOf (nonce ++ [0, 0, 0, 1])
    ∃ t, runOps (messageBody encrypt nonce last aad p) s = some (t, counterMode cipher j0 p) ∧
      t.InMessage .payload encrypt cipher j0 (padBlocks aad ++ ciphertext encrypt p (counterMode cipher j0 p))
        aad.length p.length := by
  intro cipher j0
  obtain ⟨s1, hstart, hout1, hphase, hwbuf, hmode, hkey, hcipher⟩ : ∃ t, exec (.startMessage encrypt) s = .next t ∧
      t.response.out = [] ∧ t.st.phase = .iv 0 ∧ t.st.wbuf = [] ∧ t.st.encrypt = encrypt ∧
      t.st.keyLoaded = s.st.keyLoaded ∧ encryptE t.st = cipher := ⟨_, rfl, rfl, rfl, rfl, rfl, rfl, rfl⟩
  obtain ⟨s2, hiv, hout2, hs2⟩ := exec_pushIv hnonce hlast hphase hwbuf (hkey.trans hloaded)
  rw [hmode, hcipher] at hs2
  obtain ⟨s3, haad, hout3, hs3⟩ := hs2.pushAad aad
  obtain ⟨s4, hend, hout4, hs4⟩ := hs3.endAad
  obtain ⟨s5, hpayload, hout5, hs5⟩ := hs4.pushPayload p
  rw [List.nil_append, Nat.zero_add] at hs5
  refine ⟨s5, ?_, hs5⟩
  have hrun := runOps_cons hstart (runOps_cons hiv (runOps_cons haad (runOps_cons hend
    (runOps_cons hpayload (runOps_nil s5)))))
  rw [hout1, hout2, hout3, hout4, hout5, List.append_nil] at hrun
  exact hrun

/-! ## Whole messages -/

/-- An encrypt message, with what a later message under the same key needs of the state it leaves. -/
theorem runOps_encryptMessage {s : State} {nonce last : List Byte} (aad p : List Byte)
    (hloaded : s.st.keyLoaded = true) (hnonce : nonce.length = 12) (hlast : last.length = 4) :
    let cipher := encryptE s.st
    let j0 := blockOf (nonce ++ [0, 0, 0, 1])
    let c := counterMode cipher j0 p
    ∃ t, runOps (messageBody true nonce last aad p ++ [.endPayload]) s = some (t, c) ∧
      t.response.status = .ok ∧ t.st.phase = .idle ∧ t.st.done = true ∧ wordsBlock t.st.tag = gcmTag cipher j0 aad c ∧
      t.st.keyLoaded = true ∧ encryptE t.st = cipher := by
  intro cipher j0 c
  obtain ⟨t, hbody, ht⟩ := runOps_messageBody true aad p hloaded hnonce hlast
  rw [← counterMode_length cipher j0 p] at ht
  obtain ⟨u, hend, hout, hspec⟩ := State.InMessage.endPayload_encrypt (ct := c) ht
  refine ⟨u, ?_, hspec⟩
  rw [runOps_append hbody (runOps_cons hend (runOps_nil u)), hout, List.append_nil, List.append_nil]

/-- Settles O54: the sequence of operations is the body of a message and END_PAYLOAD. -/
theorem encryptMessageComputesGcm : Obligations.EncryptMessageComputesGcm := by
  intro s nonce last aad p hloaded hnonce hlast cipher j0 c
  obtain ⟨t, hrun, hstatus, hphase, hdone, htag, _, _⟩ := runOps_encryptMessage aad p hloaded hnonce hlast
  exact ⟨t, hrun, hstatus, hphase, hdone, htag⟩

/-- Settles O55: the body of a message, END_PAYLOAD, which waits for the tag, and the tag, which completes the message. -/
theorem decryptMessageChecksGcm : Obligations.DecryptMessageChecksGcm := by
  intro s nonce last aad c tag hloaded hnonce hlast htag cipher j0
  obtain ⟨t, hbody, ht⟩ := runOps_messageBody false aad c hloaded hnonce hlast
  obtain ⟨u, hend, hout, hu⟩ := ht.endPayload_decrypt
  obtain ⟨v, hpush, hout', hspec⟩ := State.InMessage.pushTag (ct := c) hu htag
  refine ⟨v, ?_, hspec⟩
  have hrun := runOps_append hbody (runOps_cons hend (runOps_cons hpush (runOps_nil v)))
  rw [hout, hout', List.append_nil, List.append_nil, List.append_nil] at hrun
  exact hrun

/-- Settles O56: encrypting leaves the key and the GCM tag of the ciphertext, so the decrypt message of O55 finds the tag
right, and its counter mode undoes the first. -/
theorem decryptUndoesEncrypt : Obligations.DecryptUndoesEncrypt := by
  intro s nonce last aad p hloaded hnonce hlast
  obtain ⟨t, hencrypt, _, _, _, htag, hloaded', hcipher⟩ := runOps_encryptMessage aad p hloaded hnonce hlast
  have hbytes : (t.st.tag.toList.flatMap be32).length = 16 := by simp
  obtain ⟨u, hdecrypt, _, _, htagOk, hstatus⟩ := decryptMessageChecksGcm t nonce last aad
    (counterMode (encryptE s.st) (blockOf (nonce ++ [0, 0, 0, 1])) p) _ hloaded' hnonce hlast hbytes
  rw [blockOf_be32_words, htag, hcipher] at htagOk hstatus
  rw [hcipher, counterMode_counterMode] at hdecrypt
  exact ⟨t, u, _, hencrypt, counterMode_length .., hdecrypt, by rw [hstatus, if_pos rfl],
    by rw [htagOk, decide_eq_true rfl]⟩

end Sys2Proof.Machine


/-! PROOFS. The key store (44_key_store.md): what WRITE_KEY, LOAD_KEY, ZERO_KEY and READ_KEY answer, and that no stream
operation reads key material while no key is loaded. -/

namespace Sys2Proof.Machine

open Sys2Proof

/-! ## Other key material -/

section

variable (key activeKey : Vector Word 8) (keyLen : KeyLen) (rk : Vector Word 60)

/-- The record of `State.withKeyMaterial`. -/
def Engine.withKeyMaterial (st : Engine) : Engine :=
  { st with key := key, activeKey := activeKey, keyLen := keyLen, rk := rk }

/-- A working copy of PUSH_DATA under other key material. -/
def Push.withKeyMaterial (p : Push) : Push := { p with st := p.st.withKeyMaterial key activeKey keyLen rk }

/-- An end of an operation that does not depend on the key material. -/
theorem finish_withKeyMaterial {s t : State} {st : Engine} {r : Response} (h : finish s st r = .next t) :
    finish (s.withKeyMaterial key activeKey keyLen rk) (st.withKeyMaterial key activeKey keyLen rk) r =
      .next (t.withKeyMaterial key activeKey keyLen rk) := by
  rw [finish_next h]
  rfl

theorem fail_withKeyMaterial {s t : State} {e : Status} (h : fail s e = .next t) :
    fail (s.withKeyMaterial key activeKey keyLen rk) e = .next (t.withKeyMaterial key activeKey keyLen rk) :=
  finish_withKeyMaterial key activeKey keyLen rk h

/-! ## A push without a loaded key -/

/-- Without a loaded key a chunk of the IV is stored as a word or, at IV3, refused before `gcm_begin`
(45_stream_processor.md R285); either way the key material is not read. -/
theorem commitChunk_withKeyMaterial {p : Push} (hiv : p.st.phase.isIv = true) (hloaded : p.st.keyLoaded = false)
    (c : List Byte) :
    commitChunk (p.withKeyMaterial key activeKey keyLen rk) c =
      (commitChunk p c).map (·.withKeyMaterial key activeKey keyLen rk) := by
  have hphase : (p.withKeyMaterial key activeKey keyLen rk).st.phase = p.st.phase := rfl
  have hkey : (p.withKeyMaterial key activeKey keyLen rk).st.keyLoaded = p.st.keyLoaded := rfl
  cases hp : p.st.phase with
  | iv k =>
    simp only [commitChunk, hphase, hp, commitIv, hkey, hloaded]
    split <;> rfl
  | idle | aad | payload | tag => simp [hp, Phase.isIv] at hiv

/-- Without a loaded key no chunk leads out of the IV phases. -/
theorem commitChunk_isIv {p q : Push} {c : List Byte} (hiv : p.st.phase.isIv = true) (hloaded : p.st.keyLoaded = false)
    (h : commitChunk p c = .ok q) : q.st.phase.isIv = true := by
  rcases commitChunk_ok h with ⟨k, _, _, rfl⟩ | ⟨_, hl, _⟩ | ⟨hp, _⟩ | ⟨hp, _⟩ | ⟨k, hp, _, _⟩ | ⟨hp, _⟩
  · rfl
  · exact absurd (hloaded.symm.trans hl) nofun
  all_goals simp [hp, Phase.isIv] at hiv

theorem commitChunks_withKeyMaterial (cs : List (List Byte)) {p : Push} (hiv : p.st.phase.isIv = true)
    (hloaded : p.st.keyLoaded = false) :
    commitChunks cs (p.withKeyMaterial key activeKey keyLen rk) =
      (commitChunks cs p).map (·.withKeyMaterial key activeKey keyLen rk) := by
  induction cs generalizing p with
  | nil => rfl
  | cons c cs ih =>
    rw [commitChunks_cons, commitChunks_cons, commitChunk_withKeyMaterial _ _ _ _ hiv hloaded]
    cases hc : commitChunk p c with
    | error e => rfl
    | ok q => exact ih (commitChunk_isIv hiv hloaded hc) ((commitChunk_sameKeyAndMode hc).keyLoaded.trans hloaded)

theorem closePush_withKeyMaterial (rest : List Byte) (p : Push) :
    closePush rest (p.withKeyMaterial key activeKey keyLen rk) =
      (closePush rest p).map (·.withKeyMaterial key activeKey keyLen rk) := by
  have hphase : (p.withKeyMaterial key activeKey keyLen rk).st.phase = p.st.phase := rfl
  simp only [closePush, hphase]
  split <;> rfl

/-- In a phase that uses the key, a push that passes its entry checks has a valid message key (45_stream_processor.md R293). -/
theorem msgKeyValid_of_pushEntryCheck {lw : BitVec 2} {data : List Byte} {st : Engine}
    (h : pushEntryCheck lw data st = .ok) (huses : st.phase.usesKey = true) : st.msgKeyValid = true := by
  apply keyCheck_eq_ok.mp
  simp only [pushEntryCheck, huses, if_true] at h
  split at h
  · cases h -- the phase
  · split at h
    · cases h -- the marker
    · exact h

/-- Without a valid message key a push passes its entry checks only in the IV phases (45_stream_processor.md R291, R293). -/
theorem isIv_of_pushEntryCheck {lw : BitVec 2} {data : List Byte} {st : Engine} (hvalid : st.msgKeyValid = false)
    (h : pushEntryCheck lw data st = .ok) : st.phase.isIv = true := by
  cases hp : st.phase with
  | iv k => rfl
  | idle => exact absurd hp (phase_ne_idle_of_pushEntryCheck h)
  | aad | payload | tag =>
    have hv := msgKeyValid_of_pushEntryCheck h (by rw [hp]; rfl)
    exact absurd (hvalid.symm.trans hv) nofun

/-- A push without a loaded key does not read the key material: its entry checks never do, and past them it stays in the IV
phases. -/
theorem pushData_withKeyMaterial (lw : BitVec 2) (data : List Byte) {st : Engine} (hloaded : st.keyLoaded = false)
    (hvalid : st.msgKeyValid = false) :
    pushData lw data (st.withKeyMaterial key activeKey keyLen rk) =
      (pushData lw data st).map (·.withKeyMaterial key activeKey keyLen rk) := by
  have hsame : pushEntryCheck lw data (st.withKeyMaterial key activeKey keyLen rk) = pushEntryCheck lw data st := rfl
  have hwbuf : (st.withKeyMaterial key activeKey keyLen rk).wbuf = st.wbuf := rfl
  by_cases hcheck : pushEntryCheck lw data st = .ok
  · have hchunks : commitChunks (committedChunks lw (st.wbuf ++ data))
        (Push.start (st.withKeyMaterial key activeKey keyLen rk)) = _ :=
      commitChunks_withKeyMaterial key activeKey keyLen rk _ (p := Push.start st) (isIv_of_pushEntryCheck hvalid hcheck)
        hloaded
    rw [pushData_of_checks hcheck, pushData_of_checks (hsame.trans hcheck), hwbuf, hchunks]
    cases commitChunks (committedChunks lw (st.wbuf ++ data)) (Push.start st) with
    | error e => rfl
    | ok p => exact closePush_withKeyMaterial key activeKey keyLen rk _ p
  · rw [pushData, pushData, hsame, if_pos hcheck, if_pos hcheck]
    rfl

/-! ## The stream operations without a loaded key -/

theorem exec_pushData_withKeyMaterial {lw : BitVec 2} {data : List Byte} {s t : State} (hloaded : s.st.keyLoaded = false)
    (hvalid : s.st.msgKeyValid = false) (h : exec (.pushData lw data) s = .next t) :
    exec (.pushData lw data) (s.withKeyMaterial key activeKey keyLen rk) =
      .next (t.withKeyMaterial key activeKey keyLen rk) := by
  have hpush : pushData lw data (s.withKeyMaterial key activeKey keyLen rk).st = _ :=
    pushData_withKeyMaterial key activeKey keyLen rk lw data hloaded hvalid
  simp only [exec, execPushData, hpush] at h ⊢
  cases hq : pushData lw data s.st with
  | error e => rw [hq] at h; exact fail_withKeyMaterial key activeKey keyLen rk h
  | ok q => rw [hq] at h; exact finish_withKeyMaterial key activeKey keyLen rk h

/-- END_AAD and END_PAYLOAD are turned away while the message key is not valid (45_stream_processor.md R307, R310). -/
theorem endCheck_ne_ok {ph : Phase} {st : Engine} (hvalid : st.msgKeyValid = false) : endCheck ph st ≠ .ok := by
  rcases endCheck_cases (ph := ph) (st := st) with ⟨_, _, _, hv⟩ | h | h
  · exact absurd (hvalid.symm.trans hv) nofun
  · simp [h]
  · simp [h]

theorem exec_endAad_invalid {s : State} (hvalid : s.st.msgKeyValid = false) :
    exec .endAad s = fail s (endCheck .aad s.st) := if_pos (endCheck_ne_ok hvalid)

theorem exec_endPayload_invalid {s : State} (hvalid : s.st.msgKeyValid = false) :
    exec .endPayload s = fail s (endCheck .payload s.st) := if_pos (endCheck_ne_ok hvalid)

end

/-- Settles O20: by the invariant the message key is not valid either, so END_AAD and END_PAYLOAD are turned away and
PUSH_DATA stays in the IV phases; START_MESSAGE never reads a key. -/
theorem unloadedKeyIsNeverUsed : Obligations.UnloadedKeyIsNeverUsed := by
  intro i s t key activeKey keyLen rk hinv hloaded hstream h
  have hvalid : s.st.msgKeyValid = false := by
    by_contra hv
    exact absurd (hloaded.symm.trans (hinv.valid_loaded (Bool.eq_true_of_not_eq_false hv))) nofun
  rcases hstream with ⟨enc, rfl⟩ | ⟨lw, data, rfl⟩ | rfl | rfl
  · exact finish_withKeyMaterial key activeKey keyLen rk h
  · exact exec_pushData_withKeyMaterial key activeKey keyLen rk hloaded hvalid h
  · rw [exec_endAad_invalid hvalid] at h
    have hend := exec_endAad_invalid (s := s.withKeyMaterial key activeKey keyLen rk) hvalid
    exact hend.trans (fail_withKeyMaterial key activeKey keyLen rk h)
  · rw [exec_endPayload_invalid hvalid] at h
    have hend := exec_endPayload_invalid (s := s.withKeyMaterial key activeKey keyLen rk) hvalid
    exact hend.trans (fail_withKeyMaterial key activeKey keyLen rk h)

/-! ## Registers -/

theorem readRegister_of_lt {n : Nat} (s : State) (regs : Vector Word n) {index : BitVec 8} (h : index.toNat < n) :
    readRegister s regs (registerIndex n index) = finish s s.st (valueResponse regs[index.toNat]) := by
  rw [registerIndex_of_lt h]
  rfl

theorem readRegister_of_le {n : Nat} (s : State) (regs : Vector Word n) {index : BitVec 8} (h : n ≤ index.toNat) :
    readRegister s regs (registerIndex n index) = fail s .protocolViolation := by
  rw [registerIndex_of_le h]
  rfl

/-- Settles O14, for an index of a key register and for one out of range. -/
theorem writeKeyResult : Obligations.WriteKeyResult := by
  refine ⟨⟨rfl, rfl, fun _ _ _ => rfl⟩, fun index value s => ⟨fun h => ?_, fun h => ?_⟩⟩
  · rw [exec, execWriteKey, registerIndex_of_lt h]
    rfl
  · rw [exec, execWriteKey, registerIndex_of_le h]
    rfl

/-- Settles O18: READ_KEY is a register read of the key registers. -/
theorem readKeyResult : Obligations.ReadKeyResult :=
  ⟨⟨rfl, rfl, fun _ _ _ => rfl⟩, fun _ s => ⟨readRegister_of_lt s s.st.key, readRegister_of_le s s.st.key⟩⟩

/-! ## Loading and wiping -/

/-- The active key of a load, from the bit length the host gives (44_key_store.md R252). -/
theorem activeWords_eq_ofFn (key : Vector Word 8) (len : KeyLen) :
    activeWords key len = Vector.ofFn (fun j => if j.val < len.bits / 32 then key[j] else 0) := by
  ext1 j hj
  rw [activeWords_getElem, Vector.getElem_ofFn]
  rfl

/-- An invalid length is refused before KEY_ZEROED is looked at (44_key_store.md R255). -/
theorem exec_loadKey_invalid {bits : BitVec 16} (s : State) (h : KeyLen.ofOperand bits = none) :
    exec (.loadKey bits) s = finish s (unloadedKey s.st) (statusResponse .invalidKeyLength) := by
  rw [exec, execLoadKey, h]

theorem exec_loadKey_zeroed {bits : BitVec 16} {len : KeyLen} {s : State} (h : KeyLen.ofOperand bits = some len)
    (hz : s.st.keyZeroed = true) : exec (.loadKey bits) s = fail s .keyNotLoaded := by
  rw [exec, execLoadKey, h]
  exact if_pos hz

theorem exec_loadKey_loaded {bits : BitVec 16} {len : KeyLen} {s : State} (h : KeyLen.ofOperand bits = some len)
    (hz : s.st.keyZeroed = false) : exec (.loadKey bits) s = finish s (loadedKey len s.st) (statusResponse .ok) := by
  rw [exec, execLoadKey, h]
  exact if_neg (by simp [hz])

/-- Settles O15, by the length operand and KEY_ZEROED. -/
theorem loadKeyResult : Obligations.LoadKeyResult := by
  refine ⟨⟨rfl, rfl, fun _ _ _ => rfl⟩, fun bits s => ⟨fun h1 h2 h3 => ?_, fun len hlen hbits => ?_⟩⟩
  · exact exec_loadKey_invalid s (KeyLen.ofOperand_eq_none h1 h2 h3)
  · have hoperand : KeyLen.ofOperand bits = some len := KeyLen.ofOperand_eq_some.mpr ⟨hlen, hbits⟩
    refine ⟨exec_loadKey_zeroed hoperand, fun hz => ?_⟩
    rw [exec_loadKey_loaded hoperand hz, hbits, ← activeWords_eq_ofFn]
    rfl

/-- Settles O17: ZERO_KEY has no check, so it always ends in `zeroedKey`. -/
theorem zeroKeyResult : Obligations.ZeroKeyResult :=
  ⟨⟨rfl, rfl, fun _ _ _ => rfl⟩, fun _ => rfl⟩

theorem KeyLen.toNat_ofNat_bits (len : KeyLen) : (BitVec.ofNat 16 len.bits).toNat = len.bits := by
  cases len <;> rfl

/-- Settles O19: ZERO_KEY leaves the key registers 0 and KEY_ZEROED set, which READ_KEY and LOAD_KEY then find. -/
theorem wipedKeyReadsZero : Obligations.WipedKeyReadsZero := by
  intro s
  obtain ⟨_, hzero⟩ := zeroKeyResult
  obtain ⟨_, hread⟩ := readKeyResult
  obtain ⟨_, hload⟩ := loadKeyResult
  refine ⟨_, hzero s, fun index hindex => ?_, fun len hlen => ?_⟩
  · obtain ⟨hinRange, _⟩ := hread index _
    exact ⟨_, hinRange hindex, by simp⟩
  · obtain ⟨_, hvalidLength⟩ := hload (BitVec.ofNat 16 len.bits) _
    obtain ⟨hzeroed, _⟩ := hvalidLength len hlen len.toNat_ofNat_bits
    exact ⟨_, hzeroed rfl, rfl, rfl⟩

end Sys2Proof.Machine


/-! PROOFS. The stream processor (45_stream_processor.md): how a PUSH_DATA ends, by its entry checks and by the phase it
starts in; that pushes move forward and may be joined; and the results of the other stream operations. -/

namespace Sys2Proof.Machine

open Sys2Proof

/-! ## The entry checks of a push -/

section

variable {lw : BitVec 2} {data c rest : List Byte} {st : Engine}

theorem markerAgrees_iff {n : Nat} : markerAgrees lw n = true ↔ (lw ≠ 0 → n % 4 = lw.toNat) := by
  simp [markerAgrees, or_iff_not_imp_left]

theorem pushEntryCheck_idle (h : st.phase = .idle) : pushEntryCheck lw data st = .protocolViolation := if_pos h

theorem pushEntryCheck_marker (h : markerAgrees lw (st.wbuf ++ data).length = false) :
    pushEntryCheck lw data st = .protocolViolation := by
  rw [pushEntryCheck, h]
  split <;> rfl

/-- Past the marker check, in a phase that uses the key, the entry check is the key check (R293). -/
theorem pushEntryCheck_usesKey (hp : st.phase.usesKey = true) (hm : markerAgrees lw (st.wbuf ++ data).length = true) :
    pushEntryCheck lw data st = keyCheck st := by
  have hidle : st.phase ≠ .idle := fun h => by simp [h, Phase.usesKey] at hp
  rw [pushEntryCheck, if_neg hidle, hm, if_pos hp]
  rfl

/-! ## How a push ends -/

theorem exec_pushData_error {s : State} {e : Status} (h : pushData lw data s.st = .error e) :
    exec (.pushData lw data) s = fail s e := by
  simp only [exec, execPushData, h]

/-- A push turned away on entry ends with the status of the check. -/
theorem exec_pushData_refused {s : State} {e : Status} (h : pushEntryCheck lw data s.st = e) (he : e ≠ .ok) :
    exec (.pushData lw data) s = fail s e := by
  subst h
  exact exec_pushData_error (if_pos he)

/-- All that a push does when its status is not fatal. -/
theorem exec_pushData_nonfatal {s t : State} (h : exec (.pushData lw data) s = .next t)
    (hstatus : t.response.status.fatal = false) :
    ∃ q, pushData lw data s.st = .ok q ∧
      t = { s with st := { q.st with lastStatus := q.status }, response := ⟨q.status, q.out, 0, []⟩ } := by
  rcases exec_cases _ s t h with ⟨e, rfl | rfl, rfl, _⟩ | heffect
  · cases hstatus
  · cases hstatus
  · exact heffect

/-- A push that commits one chunk. -/
theorem pushData_single (hp : st.phase ≠ .idle) (hkey : st.phase.usesKey = true → st.msgKeyValid = true)
    (hcut : Cuts lw (st.wbuf ++ data) c rest) (h0 : 0 < c.length) (h4 : c.length ≤ 4) :
    pushData lw data st = (commitChunk (Push.start st) c).bind (closePush rest) := by
  obtain ⟨_, hrest, hmarker⟩ := hcut.chunks
  rw [pushData_of_checks (pushEntryCheck_eq_ok hp hmarker hkey), hcut.single h0 h4, hrest, commitChunks_cons]
  cases commitChunk (Push.start st) c <;> rfl

/-- A push whose one chunk is committed, with nothing left over or the message still open. -/
theorem pushData_single_ok {q : Push} (hpush : pushData lw data st = (commitChunk (Push.start st) c).bind (closePush rest))
    (hq : commitChunk (Push.start st) c = .ok q) (hend : rest = [] ∨ q.st.phase ≠ .idle) :
    pushData lw data st = .ok { q with st := { q.st with wbuf := rest, done := q.done } } := by
  rw [hpush, hq, Except.bind, closePush_ok hend]

end

/-- Settles O23: the phase is the first of the entry checks. -/
theorem pushInIdleRefused : Obligations.PushInIdleRefused :=
  fun _ _ _ hidle => exec_pushData_refused (pushEntryCheck_idle hidle) nofun

/-- Settles O24: the marker check, for a marker that disagrees and for none. -/
theorem pushMarkerChecked : Obligations.PushMarkerChecked := by
  refine ⟨⟨rfl, rfl, fun _ _ _ => rfl⟩, fun lw data s hlw hmod => ?_, fun data st hp hkey => ?_⟩
  · have hmarker : markerAgrees lw (s.st.wbuf ++ data).length = false := by
      rw [← Bool.not_eq_true, markerAgrees_iff, List.length_append]
      exact fun hagrees => hmod (hagrees hlw)
    exact exec_pushData_refused (pushEntryCheck_marker hmarker) nofun
  · exact pushEntryCheck_eq_ok hp rfl fun huses => keyCheck_eq_ok.mp (hkey huses)

/-- Settles O25: the key check on entry, and the call whose bytes complete no word, which commits nothing. -/
theorem pushChecksTheKeyOnEntry : Obligations.PushChecksTheKeyOnEntry := by
  refine ⟨fun lw data s huses hkey hmod => ?_, fun data s hp hkey hshort => ?_⟩
  · have hmarker : markerAgrees lw (s.st.wbuf ++ data).length = true := by
      rwa [markerAgrees_iff, List.length_append]
    exact exec_pushData_refused (pushEntryCheck_usesKey huses hmarker) hkey
  · have hcheck : pushEntryCheck 0 data s.st = .ok :=
      pushEntryCheck_eq_ok hp rfl fun huses => keyCheck_eq_ok.mp (hkey huses)
    have hpush := pushData_of_checks hcheck
    rw [committedChunks_none, uncommittedBytes_none, splitWords_short hshort, commitChunks_nil, Except.bind,
      closePush_ok (.inr hp)] at hpush
    exact exec_pushData_ok hpush

/-! ## Pushes in the IV phases -/

theorem commitChunk_iv3_unloaded {p : Push} (hp : p.st.phase = .iv 3) (hloaded : p.st.keyLoaded = false) (c : List Byte) :
    commitChunk p c = .error .keyNotLoaded := by
  simp only [commitChunk, hp, commitIv, hloaded]
  rfl

/-- Settles O26, at IV0 to IV2 and at IV3 with a key and without one. -/
theorem pushIvWord : Obligations.PushIvWord := by
  intro lw data c rest k s hp hcut h0 h4 iv j0
  have hpush := pushData_single (by simp [hp]) (by simp [hp, Phase.usesKey]) hcut h0 h4
  refine ⟨fun hk => ?_, ?_, ?_⟩
  · exact exec_pushData_ok (pushData_single_ok hpush (commitChunk_iv hp hk c) (.inr nofun))
  · rintro rfl hloaded
    exact exec_pushData_ok (pushData_single_ok hpush (commitChunk_iv3 hp hloaded c) (.inr nofun))
  · rintro rfl hloaded
    rw [commitChunk_iv3_unloaded (p := Push.start s.st) hp hloaded] at hpush
    exact exec_pushData_error hpush

theorem committedChunks_length (lw : BitVec 2) (s : List Byte) :
    (committedChunks lw s).length = s.length / 4 + if lw = 0 then 0 else 1 := by
  unfold committedChunks
  split <;> simp [splitWords_count]

/-- The index of the next quota phase (R280). -/
theorem phaseIndex_succ {k : Fin 4} (h : k.val < 3) : (k + 1).val = k.val + 1 := Fin.val_add_one_of_lt h

/-- Without a loaded key, enough chunks to reach IV3 fail there (R285). -/
theorem commitChunks_iv_unloaded {cs : List (List Byte)} {p : Push} {k : Fin 4} (hp : p.st.phase = .iv k)
    (hloaded : p.st.keyLoaded = false) (hlen : 4 - k.val ≤ cs.length) :
    commitChunks cs p = .error .keyNotLoaded := by
  induction cs generalizing p k with
  | nil => simp only [List.length_nil] at hlen; omega
  | cons c cs ih =>
    rw [List.length_cons] at hlen
    by_cases hk : k.val < 3
    · have hsucc := phaseIndex_succ hk
      rw [commitChunks_cons_of_ok (commitChunk_iv hp hk c)]
      exact ih (k := k + 1) rfl hloaded (by omega)
    · obtain rfl : k = 3 := by omega
      rw [commitChunks_cons, commitChunk_iv3_unloaded hp hloaded]
      rfl

/-- Settles O57: the chunks are counted, and the first at IV3 fails the call. -/
theorem pushReachingIv3NeedsAKey : Obligations.PushReachingIv3NeedsAKey := by
  intro lw data k s hp hloaded hmod hcount
  rw [← List.length_append] at hmod hcount
  have hcheck : pushEntryCheck lw data s.st = .ok :=
    pushEntryCheck_eq_ok (by simp [hp]) (markerAgrees_iff.mpr hmod) (by simp [hp, Phase.usesKey])
  have hpush := pushData_of_checks hcheck
  rw [commitChunks_iv_unloaded (p := Push.start s.st) hp hloaded (by rwa [committedChunks_length])] at hpush
  exact exec_pushData_error hpush

/-! ## Pushes in the open phases -/

/-- Settles O27, from the push in phase AAD. -/
theorem pushAad : Obligations.PushAad := by
  intro lw data c rest s hp hvalid hcut
  have hphase : (gcmAad c s.st).phase = .aad := by rw [gcmAad_frame]; exact hp
  rw [exec_pushData_ok (pushData_aad hp hvalid hcut), ← hphase]

/-- Settles O28, from the push in phase PAYLOAD. -/
theorem pushPayload : Obligations.PushPayload := by
  intro lw data c rest s hp hvalid hcut
  have hphase : (gcmPayload c s.st).1.phase = .payload := by rw [gcmPayload_frame]; exact hp
  refine ⟨gcmPayload_length c s.st, ?_⟩
  rw [exec_pushData_ok (pushData_payload hp hvalid hcut), ← hphase]

/-! ## Pushes in the TAG phases -/

/-- `gcm_finish` neither reads nor writes TAG. -/
theorem gcmFinish_withTag (st : Engine) (tag : Vector Word 4) :
    gcmFinish { st with tag := tag } = ({ (gcmFinish st).1 with tag := tag }, (gcmFinish st).2) := by
  simp only [gcmFinish, gcmCloseHash]
  split <;> rfl

/-- `finish_decrypt`, with its verdict as a proposition (R304, R305). -/
theorem finishDecrypt_eq (p : Push) : finishDecrypt p = {
    st := { (gcmFinish p.st).1 with
      tagOk := decide ((gcmFinish p.st).2 = wordsBlock p.st.tag)
      phase := .idle }
    out := p.out
    status := if (gcmFinish p.st).2 = wordsBlock p.st.tag then .ok else .authenticationFailed
    done := true } := by
  simp only [finishDecrypt, beq_eq_decide, decide_eq_true_eq]

/-- Settles O29, at TAG0 to TAG2 and at TAG3. -/
theorem pushTagWord : Obligations.PushTagWord := by
  intro lw data c rest k s hp hvalid hcut h0 h4 tag expected
  have hpush := pushData_single (by simp [hp]) (fun _ => hvalid) hcut h0 h4
  refine ⟨fun hk => ?_, ?_⟩
  · exact exec_pushData_ok (pushData_single_ok hpush (commitChunk_tag hp hk c) (.inr nofun))
  · rintro rfl rfl status
    have hdone := pushData_single_ok hpush (commitChunk_tag3 hp c) (.inl rfl)
    simp only [finishDecrypt_eq, Push.start, gcmFinish_withTag] at hdone
    exact exec_pushData_ok hdone

/-- Chunks that fill the expected tag complete the message, and a chunk more fails (R288). -/
theorem commitChunks_tag_filled {cs : List (List Byte)} {p : Push} {k : Fin 4} (hp : p.st.phase = .tag k)
    (hlen : 4 - k.val ≤ cs.length) :
    commitChunks cs p = .error .protocolViolation ∨
    (cs.length = 4 - k.val ∧ ∃ q, commitChunks cs p = .ok q ∧ q.st.phase = .idle) := by
  induction cs generalizing p k with
  | nil => simp only [List.length_nil] at hlen; omega
  | cons c cs ih =>
    rw [List.length_cons] at hlen ⊢
    by_cases hk : k.val < 3
    · have hsucc := phaseIndex_succ hk
      rw [commitChunks_cons_of_ok (commitChunk_tag hp hk c)]
      refine (ih (k := k + 1) rfl (by omega)).imp_right fun ⟨hcount, hcompletes⟩ => ⟨by omega, hcompletes⟩
    · obtain rfl : k = 3 := by omega
      rw [commitChunks_cons_of_ok (commitChunk_tag3 hp c)]
      cases cs with
      | nil => exact .inr ⟨rfl, _, rfl, rfl⟩
      | cons => exact .inl rfl

/-- Settles O30: either a committed chunk or the bytes left over come after the message has completed. -/
theorem pushPastTheTagRefused : Obligations.PushPastTheTagRefused := by
  intro lw data k s hp hvalid hmod hlong
  rw [← List.length_append] at hmod hlong
  have hcheck : pushEntryCheck lw data s.st = .ok :=
    pushEntryCheck_eq_ok (by simp [hp]) (markerAgrees_iff.mpr hmod) fun _ => hvalid
  have hpush := pushData_of_checks hcheck
  have hcount := committedChunks_length lw (s.st.wbuf ++ data)
  have hrest := uncommittedBytes_length lw (s.st.wbuf ++ data)
  rcases commitChunks_tag_filled (cs := committedChunks lw (s.st.wbuf ++ data)) (p := Push.start s.st) hp
    (by omega) with herror | ⟨hfilled, q, hq, hidle⟩
  · rw [herror] at hpush
    exact exec_pushData_error hpush
  · have hleft : uncommittedBytes lw (s.st.wbuf ++ data) ≠ [] := by
      rw [← List.length_pos_iff_ne_nil]
      by_cases hlw : lw = 0
      · rw [if_pos hlw] at hcount hrest
        omega
      · rw [if_neg hlw] at hcount
        omega
    rw [hq, Except.bind, closePush_error hleft hidle] at hpush
    exact exec_pushData_error hpush

/-! ## The moves of a push -/

/-- The moves of PUSH_DATA in the phase machine (R280): none, or forward through the IV phases to AAD, or forward through
the TAG phases to IDLE. -/
inductive Phase.PushMove : Phase → Phase → Prop
  | stay (ph : Phase) : PushMove ph ph
  | nextIv {k k' : Fin 4} (h : k < k') : PushMove (.iv k) (.iv k')
  | toAad (k : Fin 4) : PushMove (.iv k) .aad
  | nextTag {k k' : Fin 4} (h : k < k') : PushMove (.tag k) (.tag k')
  | toIdle (k : Fin 4) : PushMove (.tag k) .idle

theorem Phase.PushMove.trans {a b c : Phase} (hab : a.PushMove b) (hbc : b.PushMove c) : a.PushMove c := by
  cases hab with
  | stay => exact hbc
  | nextIv h =>
    cases hbc with
    | stay => exact .nextIv h
    | nextIv h' => exact .nextIv (h.trans h')
    | toAad => exact .toAad _
  | nextTag h =>
    cases hbc with
    | stay => exact .nextTag h
    | nextTag h' => exact .nextTag (h.trans h')
    | toIdle => exact .toIdle _
  | toAad => cases hbc; exact .toAad _
  | toIdle => cases hbc; exact .toIdle _

theorem lt_phaseIndex_succ {k : Fin 4} (h : k.val < 3) : k < k + 1 := by
  rw [Fin.lt_def, phaseIndex_succ h]
  exact Nat.lt_succ_self _

theorem commitChunk_pushMove {p q : Push} {c : List Byte} (h : commitChunk p c = .ok q) :
    p.st.phase.PushMove q.st.phase := by
  rcases commitChunk_ok h with
    ⟨k, hp, hk, rfl⟩ | ⟨hp, _, rfl⟩ | ⟨_, rfl⟩ | ⟨_, rfl⟩ | ⟨k, hp, hk, rfl⟩ | ⟨hp, rfl⟩
  · rw [hp]; exact .nextIv (lt_phaseIndex_succ hk)
  · rw [hp]; exact .toAad 3
  · rw [gcmAad_frame]; exact .stay _
  · rw [gcmPayload_frame]; exact .stay _
  · rw [hp]; exact .nextTag (lt_phaseIndex_succ hk)
  · rw [hp]; exact .toIdle 3

theorem pushData_pushMove {lw : BitVec 2} {data : List Byte} {st : Engine} {q : Push} (h : pushData lw data st = .ok q) :
    st.phase.PushMove q.st.phase := by
  obtain ⟨_, p, hp, _, rfl⟩ := pushData_ok h
  have hmove : st.phase.PushMove p.st.phase :=
    commitChunks_keeps (P := fun p => st.phase.PushMove p.st.phase)
      (fun _ _ _ hmove hc => hmove.trans (commitChunk_pushMove hc)) (.stay st.phase) hp
  exact hmove

/-- Settles O32: a failed call stays, and a successful one makes a `PushMove`. -/
theorem pushMovesThroughThePhases : Obligations.PushMovesThroughThePhases := by
  intro lw data s t h
  rcases exec_cases _ s t h with ⟨_, _, rfl, _⟩ | ⟨q, hq, rfl⟩
  · exact .inl rfl
  · have hmove := pushData_pushMove hq
    generalize s.st.phase = old, q.st.phase = new at hmove ⊢
    cases hmove with
    | stay => exact .inl rfl
    | nextIv hk => exact .inr (.inl ⟨_, rfl, .inr ⟨_, hk, rfl⟩⟩)
    | toAad => exact .inr (.inl ⟨_, rfl, .inl rfl⟩)
    | nextTag hk => exact .inr (.inr ⟨_, rfl, .inr ⟨_, hk, rfl⟩⟩)
    | toIdle => exact .inr (.inr ⟨_, rfl, .inl rfl⟩)

/-! ## Two pushes as one -/

/-- Cutting a string in two calls: the second starts with what the first left over (R283). -/
theorem splitWords_resume (s d : List Byte) :
    splitWords (s ++ d) =
      ((splitWords s).1 ++ (splitWords ((splitWords s).2 ++ d)).1, (splitWords ((splitWords s).2 ++ d)).2) := by
  induction s using words_induction with
  | short s h => simp [splitWords_short h]
  | step b0 b1 b2 b3 rest ih => simp only [List.cons_append, splitWords_four, ih]

theorem committedChunks_resume (lw : BitVec 2) (s d : List Byte) :
    committedChunks lw (s ++ d) = (splitWords s).1 ++ committedChunks lw ((splitWords s).2 ++ d) := by
  unfold committedChunks
  rw [splitWords_resume]
  split <;> simp

theorem uncommittedBytes_resume (lw : BitVec 2) (s d : List Byte) :
    uncommittedBytes lw (s ++ d) = uncommittedBytes lw ((splitWords s).2 ++ d) := by
  unfold uncommittedBytes
  rw [splitWords_resume]

theorem markerAgrees_resume (lw : BitVec 2) (s d : List Byte) :
    markerAgrees lw (s ++ d).length = markerAgrees lw ((splitWords s).2 ++ d).length := by
  have hmod : (s ++ d).length % 4 = ((splitWords s).2 ++ d).length % 4 := by
    rw [List.length_append, List.length_append, splitWords_tail_length]
    omega
  rw [markerAgrees, markerAgrees, hmod]

/-- While its message is open, the copy of a call has the status OK and is not done (R297). -/
def Push.Open (p : Push) : Prop := p.st.phase ≠ .idle → p.status = .ok ∧ p.done = false

theorem commitChunk_open {p q : Push} {c : List Byte} (hp : p.Open) (h : commitChunk p c = .ok q) : q.Open := by
  intro hq
  rcases commitChunk_ok h with
    ⟨k, hk, _, rfl⟩ | ⟨hk, _, rfl⟩ | ⟨hk, rfl⟩ | ⟨hk, rfl⟩ | ⟨k, hk, _, rfl⟩ | ⟨_, rfl⟩
  case inr.inr.inr.inr.inr => exact absurd rfl hq -- TAG3 completes the message
  all_goals exact hp (by simp [hk])

theorem markerAgrees_of_pushEntryCheck {lw : BitVec 2} {data : List Byte} {st : Engine}
    (h : pushEntryCheck lw data st = .ok) : markerAgrees lw (st.wbuf ++ data).length = true := by
  by_contra hm
  rw [pushEntryCheck_marker (Bool.eq_false_of_not_eq_true hm)] at h
  cases h

/-- A copy whose message is open, as the copy a next call starts with: the fields the commits do not touch differ, and the
output so far stands before the next call's. -/
theorem Push.Open.eq_after_start {p : Push} (hp : p.Open) (hopen : p.st.phase ≠ .idle) (w : List Byte) (d : Bool)
    (l : Status) : p = (Push.start (p.st.withEnd w d l)).after p.st.wbuf p.st.done p.st.lastStatus p.out := by
  obtain ⟨hstatus, hdone⟩ := hp hopen
  obtain ⟨st, out, status, done⟩ := p
  subst hstatus hdone
  simp only [Push.after, Push.start, List.append_nil]
  rfl

theorem closePush_after (rest : List Byte) (p : Push) (w : List Byte) (d : Bool) (l : Status) (out : List Byte) :
    closePush rest (p.after w d l out) = (closePush rest p).map fun r => r.after r.st.wbuf r.st.done l out := by
  have hphase : (p.after w d l out).st.phase = p.st.phase := rfl
  simp only [closePush, hphase]
  split <;> rfl

/-- Going on from an open copy is a call of its own on the record, but for LAST_STATUS and the earlier output. -/
theorem Push.Open.resume {p : Push} (hp : p.Open) (hopen : p.st.phase ≠ .idle) (cs : List (List Byte))
    (rest w : List Byte) (d : Bool) (l : Status) :
    (commitChunks cs p).bind (closePush rest) =
      ((commitChunks cs (Push.start (p.st.withEnd w d l))).bind (closePush rest)).map fun r =>
        r.after r.st.wbuf r.st.done p.st.lastStatus p.out := by
  have hcommits : commitChunks cs p = (commitChunks cs (Push.start (p.st.withEnd w d l))).map fun q =>
      q.after p.st.wbuf p.st.done p.st.lastStatus p.out :=
    (congrArg (commitChunks cs) (hp.eq_after_start hopen w d l)).trans (commitChunks_after ..)
  rw [hcommits]
  cases commitChunks cs (Push.start (p.st.withEnd w d l)) with
  | error e => rfl
  | ok q => exact closePush_after ..

/-- Two successful pushes as one. The first has not completed the message, or the second would be turned away in IDLE; so
the commits of the second go on where those of the first ended. -/
theorem pushData_append {lw : BitVec 2} {d1 d2 : List Byte} {st : Engine} {q r : Push} {l : Status}
    (h1 : pushData 0 d1 st = .ok q) (h2 : pushData lw d2 (q.st.withEnd q.st.wbuf q.st.done l) = .ok r) :
    pushData lw (d1 ++ d2) st = .ok (r.after r.st.wbuf r.st.done q.st.lastStatus q.out) := by
  obtain ⟨hcheck1, p, hp, _, hq⟩ := pushData_ok h1
  have hnext : q.st.withEnd q.st.wbuf q.st.done l = p.st.withEnd (splitWords (st.wbuf ++ d1)).2 p.done l := by
    rw [hq, uncommittedBytes_none]
    rfl
  rw [hnext] at h2
  obtain ⟨hcheck2, _⟩ := pushData_ok h2
  have hopen := phase_ne_idle_of_pushEntryCheck hcheck2
  have hmarker := markerAgrees_of_pushEntryCheck hcheck2
  have hcheck : pushEntryCheck lw (d1 ++ d2) st = .ok := by
    refine pushEntryCheck_eq_ok (phase_ne_idle_of_pushEntryCheck hcheck1) ?_ (msgKeyValid_of_pushEntryCheck hcheck1)
    rw [← List.append_assoc, markerAgrees_resume]
    exact hmarker
  have hpOpen : p.Open := commitChunks_keeps (fun _ _ _ => commitChunk_open) (fun _ => ⟨rfl, rfl⟩) hp
  have hsecond := hpOpen.resume hopen (committedChunks lw ((splitWords (st.wbuf ++ d1)).2 ++ d2))
    (uncommittedBytes lw ((splitWords (st.wbuf ++ d1)).2 ++ d2)) (splitWords (st.wbuf ++ d1)).2 p.done l
  calc pushData lw (d1 ++ d2) st
    _ = (commitChunks (committedChunks lw ((splitWords (st.wbuf ++ d1)).2 ++ d2)) p).bind
          (closePush (uncommittedBytes lw ((splitWords (st.wbuf ++ d1)).2 ++ d2))) := by
        rw [pushData_of_checks hcheck, ← List.append_assoc, committedChunks_resume, uncommittedBytes_resume,
          commitChunks_append, ← committedChunks_none, hp, Except.bind]
    _ = (pushData lw d2 (p.st.withEnd (splitWords (st.wbuf ++ d1)).2 p.done l)).map fun r =>
          r.after r.st.wbuf r.st.done p.st.lastStatus p.out := by
        rw [hsecond, pushData_of_checks hcheck2]
        rfl
    _ = .ok (r.after r.st.wbuf r.st.done q.st.lastStatus q.out) := by
        rw [h2, hq]
        rfl

/-- Settles O31: neither call fails, so both are pushes that `pushData_append` joins. -/
theorem twoPushesAreOne : Obligations.TwoPushesAreOne := by
  intro lw d1 d2 s t u ht hstatus hu hstatus'
  obtain ⟨q, hq, rfl⟩ := exec_pushData_nonfatal ht hstatus
  obtain ⟨r, hr, rfl⟩ := exec_pushData_nonfatal hu hstatus'
  exact exec_pushData_ok (pushData_append hq hr)

/-! ## START_MESSAGE -/

/-- Settles O21: START_MESSAGE has no check, and ENCRYPT is a field with known writers (`fieldsKeepTheirWriters`). -/
theorem startMessageResult : Obligations.StartMessageResult := by
  refine ⟨⟨rfl, rfl, fun _ _ _ => rfl⟩, fun _ _ => rfl, fun i s t h hstart hreset hrestore => ?_⟩
  obtain ⟨_, _, _, hencrypt, _⟩ := fieldsKeepTheirWriters i s t h hreset hrestore
  exact hencrypt hstart

/-! ## The key check -/

/-- Settles O22: the definition, and the key store operations that make the message key invalid. -/
theorem keyCheckOutcomes : Obligations.KeyCheckOutcomes := by
  refine ⟨fun st => ?_, fun s => ⟨⟨_, rfl, rfl, fun index value hindex => ?_⟩, fun hzeroed => ⟨fun bits h1 h2 h3 => ?_,
    fun len hlen => ?_⟩⟩⟩
  · unfold keyCheck
    cases st.keyLoaded <;> rfl
  · rw [exec, execWriteKey, registerIndex_of_lt hindex]
    exact ⟨_, rfl, rfl⟩
  · refine ⟨_, exec_loadKey_invalid s (KeyLen.ofOperand_eq_none h1 h2 h3), ?_⟩
    simp [keyCheck, hzeroed]
  · have hoperand := KeyLen.ofOperand_eq_some.mpr ⟨hlen, len.toNat_ofNat_bits⟩
    refine ⟨_, exec_loadKey_loaded hoperand hzeroed, ?_⟩
    simp [keyCheck]

/-! ## END_AAD and END_PAYLOAD -/

section

variable {ph : Phase} {st : Engine} {s : State}

theorem endCheck_misplaced (h : st.phase ≠ ph ∨ st.wbuf ≠ []) : endCheck ph st = .protocolViolation := by
  unfold endCheck
  by_cases hp : st.phase = ph
  · rw [if_neg (not_not.mpr hp), if_pos (h.resolve_left (not_not.mpr hp))]
  · rw [if_pos hp]

/-- In its phase with WBUF empty, the entry check is the key check. -/
theorem endCheck_eq_keyCheck (hp : st.phase = ph) (hw : st.wbuf = []) : endCheck ph st = keyCheck st := by
  rw [endCheck, if_neg (not_not.mpr hp), if_neg (not_not.mpr hw)]

theorem exec_endAad_ok (h : endCheck .aad s.st = .ok) :
    exec .endAad s = finish s (aadClosed s.st) (statusResponse .ok) := if_neg (not_not.mpr h)

theorem exec_endAad_misplaced (h : s.st.phase ≠ .aad ∨ s.st.wbuf ≠ []) : exec .endAad s = fail s .protocolViolation := by
  rw [exec, execEndAad, endCheck_misplaced h, if_pos nofun]

theorem exec_endPayload_ok (h : endCheck .payload s.st = .ok) :
    exec .endPayload s = finish s (payloadClosed s.st) (statusResponse .ok) := if_neg (not_not.mpr h)

theorem exec_endPayload_encrypt (h : endCheck .payload s.st = .ok) (hencrypt : s.st.encrypt = true) :
    exec .endPayload s = finish s (finishEncrypt s.st) (statusResponse .ok) := by
  rw [exec_endPayload_ok h, payloadClosed_encrypt hencrypt]

theorem exec_endPayload_decrypt (h : endCheck .payload s.st = .ok) (hdecrypt : s.st.encrypt = false) :
    exec .endPayload s = finish s { s.st with phase := .tag 0, done := false } (statusResponse .ok) := by
  rw [exec_endPayload_ok h, payloadClosed_decrypt hdecrypt]

theorem exec_endPayload_misplaced (h : s.st.phase ≠ .payload ∨ s.st.wbuf ≠ []) :
    exec .endPayload s = fail s .protocolViolation := by
  rw [exec, execEndPayload, endCheck_misplaced h, if_pos nofun]

end

/-- Settles O34, by the outcome of the entry check. -/
theorem endAadResult : Obligations.EndAadResult := by
  refine ⟨⟨rfl, rfl, fun _ _ _ => rfl⟩, fun s => ⟨fun hp hw hvalid => ?_, fun hmisplaced => ?_, fun hp hw hinvalid => ?_⟩⟩
  · rw [exec_endAad_ok (endCheck_eq_ok hp hw hvalid), finish, aadClosed, gcmCloseHash]
    rfl
  · exact exec_endAad_misplaced hmisplaced
  · rw [exec_endAad_invalid hinvalid, endCheck_eq_keyCheck hp hw]
    rfl

/-- Settles O35, by the outcome of the entry check and the mode. -/
theorem endPayloadResult : Obligations.EndPayloadResult := by
  refine ⟨⟨rfl, rfl, fun _ _ _ => rfl⟩, fun s => ⟨fun hp hw hvalid hencrypt => ?_, fun hp hw hvalid hdecrypt => ?_,
    fun hmisplaced => ?_, fun hp hw hinvalid => ?_⟩⟩
  · exact exec_endPayload_encrypt (endCheck_eq_ok hp hw hvalid) hencrypt
  · exact exec_endPayload_decrypt (endCheck_eq_ok hp hw hvalid) hdecrypt
  · exact exec_endPayload_misplaced hmisplaced
  · rw [exec_endPayload_invalid hinvalid, endCheck_eq_keyCheck hp hw]
    rfl

/-! ## READ_TAG and READ_IV -/

/-- Settles O36: register reads of the tag and IV words. -/
theorem readTagAndIvResult : Obligations.ReadTagAndIvResult := by
  refine ⟨⟨rfl, rfl, fun _ _ _ => rfl⟩, ⟨rfl, rfl, fun _ _ _ => rfl⟩, fun index s => ⟨fun h => ?_, ?_⟩⟩
  · exact ⟨readRegister_of_lt s s.st.tag h, readRegister_of_lt s s.st.iv h⟩
  · rintro h i (rfl | rfl)
    · exact readRegister_of_le s s.st.tag h
    · exact readRegister_of_le s s.st.iv h

end Sys2Proof.Machine


/-! PROOFS. The control operations (46_control.md): RESET, READ_STATUS and the two ends of RESTORE. -/

namespace Sys2Proof.Machine

open Sys2Proof

/-! ## RESET and READ_STATUS -/

/-- Settles O37: by definition. -/
theorem resetResult : Obligations.ResetResult :=
  ⟨⟨rfl, rfl, fun _ _ _ => rfl⟩, fun _ => rfl⟩

/-- The bits of the status word (10_state.md R58), from bit 0 up. -/
def statusBits (st : Engine) : List Bool :=
  [false, st.done, st.tagOk, st.keyLoaded, st.keyZeroed, inpReady st, st.encrypt, false] ++
  (List.range 4).map st.phase.code.getLsbD ++ (List.range 2).map st.keyLen.code.getLsbD ++ [st.msgKeyValid, false] ++
  (List.range 3).map st.lastStatus.code.getLsbD ++ (List.range 2).map (BitVec.ofNat 2 st.wbuf.length).getLsbD

theorem statusWord_getLsbD (st : Engine) (i : Nat) : (statusWord st).getLsbD i = (statusBits st).getD i false := by
  unfold statusWord
  repeat rw [BitVec.getLsbD_append]
  rcases Nat.lt_or_ge i 21 with hi | hi
  · interval_cases i <;> simp [statusBits, List.range_succ]
  · have hlen : (statusBits st).length = 21 := by simp [statusBits]
    rw [List.getD_eq_default _ _ (by omega)]
    repeat rw [if_neg (by omega)]
    simp

/-- A field of the status word, from its bits. -/
theorem statusWord_extractLsb' {st : Engine} {start n : Nat} {v : BitVec n}
    (h : ∀ i < n, (statusBits st).getD (start + i) false = v.getLsbD i) : (statusWord st).extractLsb' start n = v := by
  apply BitVec.eq_of_getLsbD_eq
  intro i hi
  rw [BitVec.getLsbD_extractLsb', statusWord_getLsbD, h i hi]
  simp [hi]

theorem statusWord_phase (st : Engine) : (statusWord st).extractLsb' 8 4 = st.phase.code :=
  statusWord_extractLsb' fun i hi => by interval_cases i <;> rfl

theorem statusWord_keyLen (st : Engine) : (statusWord st).extractLsb' 12 2 = st.keyLen.code :=
  statusWord_extractLsb' fun i hi => by interval_cases i <;> rfl

theorem statusWord_lastStatus (st : Engine) : (statusWord st).extractLsb' 16 3 = st.lastStatus.code :=
  statusWord_extractLsb' fun i hi => by interval_cases i <;> rfl

theorem statusWord_wbuf (st : Engine) : (statusWord st).extractLsb' 19 2 = BitVec.ofNat 2 st.wbuf.length :=
  statusWord_extractLsb' fun i hi => by interval_cases i <;> rfl

theorem statusWord_unused (st : Engine) : (statusWord st).extractLsb' 21 11 = 0 :=
  statusWord_extractLsb' fun i hi => by interval_cases i <;> rfl

/-- Settles O39: the single bits from `statusWord_getLsbD`, the fields from the lemmas above, each code by its cases. -/
theorem readStatusResult : Obligations.ReadStatusResult := by
  refine ⟨⟨rfl, rfl, fun _ _ _ => rfl⟩, fun s hw => ⟨statusWord s.st, rfl, ?_⟩⟩
  simp only [statusWord_getLsbD, statusWord_phase, statusWord_keyLen, statusWord_lastStatus, statusWord_wbuf,
    statusWord_unused]
  refine ⟨rfl, rfl, rfl, rfl, rfl, ?_, rfl, rfl, ?_, ?_, rfl, rfl, ?_, ?_, trivial⟩
  · simp [statusBits, inpReady, bne, beq_eq_decide]
  · cases s.st.phase <;> simp [Phase.code, BitVec.ofNat_add]
  · cases s.st.keyLen <;> rfl
  · cases s.st.lastStatus <;> rfl
  · rw [BitVec.toNat_ofNat]
    omega

/-! ## How RESTORE ends -/

theorem exec_restore_valid {r : List Byte} (h : recordValid r = true) (s : State) :
    exec (.restore r) s = finish s (rederive (recordEngine r)) (statusResponse .ok) := if_pos h

theorem exec_restore_invalid {r : List Byte} (h : recordValid r = false) (s : State) :
    exec (.restore r) s = fail s .protocolViolation := if_neg (by simp [h])

end Sys2Proof.Machine


/-! PROOFS. A restored state and the state its record was taken from (46_control.md R352). -/

namespace Sys2Proof.Machine

open Sys2Proof

/-! ## A restored state and its original -/

section

variable {a b : Engine}

theorem Engine.Resumes.refl (a : Engine) : a.Resumes a :=
  ⟨rfl, fun _ => rfl, fun _ _ => rfl, fun _ _ => rfl, fun _ _ => rfl, fun _ _ _ => rfl⟩

/-- With no valid message key, only the schedule of a loaded key has to agree. -/
theorem Engine.resumes_of_invalid (hvalid : a.msgKeyValid = false)
    (hpersisted :
      { a with rk := b.rk, h := b.h, j0 := b.j0, ej0 := b.ej0, ks := b.ks, lastStatus := b.lastStatus } = b)
    (hrk : a.keyLoaded = true → a.rk = b.rk) : a.Resumes b where
  persisted := hpersisted
  rk_eq := hrk
  h_eq hv := absurd (hvalid.symm.trans hv) nofun
  j0_eq hv := absurd (hvalid.symm.trans hv) nofun
  ej0_eq hv := absurd (hvalid.symm.trans hv) nofun
  ks_eq hv := absurd (hvalid.symm.trans hv) nofun

/-- What can be computed without RK, H, J0, EJ0, KS and LAST_STATUS is the same in both records. -/
theorem Engine.Resumes.reads_alike {α : Type} {f : Engine → α}
    (hf : ∀ st rk h j0 ej0 ks lastStatus,
      f { st with rk := rk, h := h, j0 := j0, ej0 := ej0, ks := ks, lastStatus := lastStatus } = f st)
    (hab : a.Resumes b) : f b = f a := by
  rw [← hab.persisted]
  exact hf ..

/-- What can be computed without RK, H, J0, EJ0 and KS is the same where LAST_STATUS is. -/
theorem Engine.Resumes.shows_alike {α : Type} {f : Engine → α}
    (hf : ∀ st rk h j0 ej0 ks, f { st with rk := rk, h := h, j0 := j0, ej0 := ej0, ks := ks } = f st)
    (hab : a.Resumes b) (hlast : a.lastStatus = b.lastStatus) : f b = f a := by
  have hpersisted := hab.persisted
  rw [← hlast] at hpersisted
  rw [← hpersisted]
  exact hf ..

/-- LAST_STATUS is free on both sides. -/
theorem Engine.Resumes.withLastStatus (hab : a.Resumes b) (c d : Status) :
    { a with lastStatus := c }.Resumes { b with lastStatus := d } :=
  { hab with persisted := congrArg (fun st : Engine => { st with lastStatus := d }) hab.persisted }

/-- The end of a push: WBUF and DONE. -/
theorem Engine.Resumes.withBuffer (hab : a.Resumes b) (w : List Byte) (d : Bool) :
    { a with wbuf := w, done := d }.Resumes { b with wbuf := w, done := d } :=
  { hab with persisted := congrArg (fun st : Engine => { st with wbuf := w, done := d }) hab.persisted }

end

/-! ## A spent keystream block -/

/-- The record with another keystream block and another LAST_STATUS: all that a restored state may differ in while a
message key is in use. -/
def Engine.withKeystream (st : Engine) (ks : Block) (lastStatus : Status) : Engine :=
  { st with ks := ks, lastStatus := lastStatus }

section

variable (st : Engine) (ks : Block) (l : Status)

theorem absorbByte_withKeystream (b : Byte) :
    absorbByte (st.withKeystream ks l) b = (absorbByte st b).withKeystream ks l := by
  have hbuf : (st.withKeystream ks l).hbuf = st.hbuf := rfl
  unfold absorbByte
  rw [hbuf]
  split <;> rfl

theorem foldl_absorbByte_withKeystream (bs : List Byte) :
    bs.foldl absorbByte (st.withKeystream ks l) = (bs.foldl absorbByte st).withKeystream ks l := by
  induction bs generalizing st with
  | nil => rfl
  | cons b bs ih => rw [List.foldl_cons, absorbByte_withKeystream, ih, List.foldl_cons]

theorem gcmAad_withKeystream (ch : List Byte) :
    gcmAad ch (st.withKeystream ks l) = (gcmAad ch st).withKeystream ks l := by
  unfold gcmAad
  rw [foldl_absorbByte_withKeystream]
  rfl

theorem gcmCloseHash_withKeystream :
    gcmCloseHash (st.withKeystream ks l) = (gcmCloseHash st).withKeystream ks l := by
  have hbuf : (st.withKeystream ks l).hbuf = st.hbuf := rfl
  unfold gcmCloseHash
  rw [hbuf]
  split <;> rfl

theorem gcmFinish_withKeystream :
    gcmFinish (st.withKeystream ks l) = ((gcmFinish st).1.withKeystream ks l, (gcmFinish st).2) := by
  simp only [gcmFinish, gcmCloseHash_withKeystream]
  rfl

variable {st ks}

/-- A refill replaces a spent block; a block with bytes left is the same on both sides. -/
theorem refillKeystream_withKeystream (h : st.kpos ≠ 16 → st.ks = ks) :
    refillKeystream (st.withKeystream ks l) = (refillKeystream st).withKeystream (refillKeystream st).ks l := by
  have hkpos : (st.withKeystream ks l).kpos = st.kpos := rfl
  unfold refillKeystream
  rw [hkpos]
  split
  · rfl
  · rw [h ‹_›]

theorem payloadByte_withKeystream (h : st.kpos ≠ 16 → st.ks = ks) (b : Byte) :
    payloadByte (st.withKeystream ks l, []) b =
      ((payloadByte (st, []) b).1.withKeystream (payloadByte (st, []) b).1.ks l, (payloadByte (st, []) b).2) := by
  have hks : (payloadByte (st, []) b).1.ks = (refillKeystream st).ks := by rw [payloadByte_frame]
  rw [hks, payloadByte_eq, payloadByte_eq]
  simp only [payloadOut, refillKeystream_withKeystream l h]
  exact Prod.ext (absorbByte_withKeystream { refillKeystream st with kpos := (refillKeystream st).kpos + 1 } _ l _) rfl

/-- After the first payload byte the keystream blocks agree; with no payload byte they stay as they were. -/
theorem payload_foldl_withKeystream (h : st.kpos ≠ 16 → st.ks = ks) (bs : List Byte) :
    ∃ ks', ((bs.foldl payloadByte (st, [])).1.kpos ≠ 16 → (bs.foldl payloadByte (st, [])).1.ks = ks') ∧
      bs.foldl payloadByte (st.withKeystream ks l, []) =
        ((bs.foldl payloadByte (st, [])).1.withKeystream ks' l, (bs.foldl payloadByte (st, [])).2) := by
  induction bs generalizing st ks with
  | nil => exact ⟨ks, h, rfl⟩
  | cons b bs ih =>
    have hout : payloadOut (st.withKeystream ks l) b = payloadOut st b := by
      simp only [payloadOut, refillKeystream_withKeystream l h]
      rfl
    obtain ⟨ks', hks', hbs⟩ := ih (st := (payloadByte (st, []) b).1) (fun _ => rfl)
    rw [payloadByte_foldl_cons b bs st, payloadByte_foldl_cons, payloadByte_withKeystream l h, hbs, hout]
    exact ⟨ks', hks', rfl⟩

theorem gcmPayload_withKeystream (h : st.kpos ≠ 16 → st.ks = ks) (ch : List Byte) :
    ∃ ks', ((gcmPayload ch st).1.kpos ≠ 16 → (gcmPayload ch st).1.ks = ks') ∧
      gcmPayload ch (st.withKeystream ks l) = ((gcmPayload ch st).1.withKeystream ks' l, (gcmPayload ch st).2) := by
  obtain ⟨ks', hks', hfold⟩ := payload_foldl_withKeystream l h ch
  refine ⟨ks', hks', ?_⟩
  simp only [gcmPayload, hfold]
  rfl

theorem Engine.resumes_withKeystream (h : st.kpos ≠ 16 → st.ks = ks) : st.Resumes (st.withKeystream ks l) :=
  { Engine.Resumes.refl st with
    persisted := rfl
    ks_eq := fun _ _ => h }

end

section

variable {a b : Engine}

/-- While a message key is in use, two such records differ in a spent keystream block and in LAST_STATUS alone. -/
theorem Engine.Resumes.eq_withKeystream (hab : a.Resumes b) (hloaded : a.keyLoaded = true)
    (hvalid : a.msgKeyValid = true) (hiv : a.phase.isIv = false) : b = a.withKeystream b.ks b.lastStatus := by
  have hpersisted := hab.persisted
  rw [← hab.rk_eq hloaded, ← hab.h_eq hvalid hiv, ← hab.j0_eq hvalid hiv, ← hab.ej0_eq hvalid hiv] at hpersisted
  exact hpersisted.symm

end

/-! ## PUSH_DATA on both -/

/-- A working copy of PUSH_DATA with another keystream block and another LAST_STATUS. -/
def Push.withKeystream (p : Push) (ks : Block) (lastStatus : Status) : Push :=
  { p with st := p.st.withKeystream ks lastStatus }

theorem Push.withKeystream_st (p : Push) (ks : Block) (l : Status) :
    (p.withKeystream ks l).st = p.st.withKeystream ks l := rfl

theorem finishDecrypt_withKeystream (p : Push) (ks : Block) (l : Status) :
    finishDecrypt (p.withKeystream ks l) = (finishDecrypt p).withKeystream ks l := by
  have hfinish : gcmFinish (p.withKeystream ks l).st = _ := gcmFinish_withKeystream p.st ks l
  unfold finishDecrypt
  rw [hfinish]
  rfl

theorem commitTag_withKeystream (k : Fin 4) (c : List Byte) (p : Push) (ks : Block) (l : Status) :
    commitTag k c (p.withKeystream ks l) = (commitTag k c p).withKeystream ks l := by
  simp only [commitTag]
  split
  · rfl
  · exact finishDecrypt_withKeystream { p with st := { p.st with tag := p.st.tag.set k.val (chunkWord c) k.isLt } } ks l

/-- A tag word leaves the key in use and the keystream. -/
theorem commitTag_keeps (k : Fin 4) (c : List Byte) (p : Push) :
    (commitTag k c p).st.keyLoaded = p.st.keyLoaded ∧ (commitTag k c p).st.msgKeyValid = p.st.msgKeyValid ∧
    (commitTag k c p).st.kpos = p.st.kpos ∧ (commitTag k c p).st.ks = p.st.ks := by
  unfold commitTag
  split
  · exact ⟨rfl, rfl, rfl, rfl⟩
  · simp only [finishDecrypt]
    rw [gcmFinish_frame]
    exact ⟨rfl, rfl, rfl, rfl⟩

/-- Two working copies of PUSH_DATA, one from a restored state and one from its original. The message key is valid where
it is used, and then a key is loaded, so that every derived value about to be read is the same in both. -/
structure Push.Resumes (p q : Push) : Prop where
  st : p.st.Resumes q.st
  out_eq : p.out = q.out
  status_eq : p.status = q.status
  done_eq : p.done = q.done
  valid_loaded : p.st.msgKeyValid = true → p.st.keyLoaded = true
  uses_valid : p.st.phase.usesKey = true → p.st.msgKeyValid = true

/-- Two results of a part of PUSH_DATA: the same failure, or working copies that stay alike. -/
inductive PushesAlike : Except Status Push → Except Status Push → Prop
  | error (e : Status) : PushesAlike (.error e) (.error e)
  | ok {p q : Push} (h : p.Resumes q) : PushesAlike (.ok p) (.ok q)

theorem PushesAlike.bind {x y : Except Status Push} {f g : Push → Except Status Push} (hxy : PushesAlike x y)
    (hfg : ∀ p q, p.Resumes q → PushesAlike (f p) (g q)) : PushesAlike (x.bind f) (y.bind g) := by
  cases hxy with
  | error e => exact .error e
  | ok h => exact hfg _ _ h

section

variable {p q : Push}

theorem Push.Resumes.phase_eq (h : p.Resumes q) : q.st.phase = p.st.phase :=
  h.st.reads_alike (f := Engine.phase) fun _ _ _ _ _ _ _ => rfl

theorem Push.Resumes.keyLoaded_eq (h : p.Resumes q) : q.st.keyLoaded = p.st.keyLoaded :=
  h.st.reads_alike (f := Engine.keyLoaded) fun _ _ _ _ _ _ _ => rfl

/-- In a phase that uses the message key, the copies differ in a spent keystream block and in LAST_STATUS alone. -/
theorem Push.Resumes.exists_withKeystream (h : p.Resumes q) (huses : p.st.phase.usesKey = true) :
    ∃ ks l, (p.st.kpos ≠ 16 → p.st.ks = ks) ∧ q = p.withKeystream ks l := by
  have hvalid := h.uses_valid huses
  have hiv : p.st.phase.isIv = false := by
    cases hp : p.st.phase with
    | iv k => simp [hp, Phase.usesKey] at huses
    | idle | aad | payload | tag => rfl
  refine ⟨q.st.ks, q.st.lastStatus, h.st.ks_eq hvalid hiv, ?_⟩
  rw [Push.withKeystream, ← h.st.eq_withKeystream (h.valid_loaded hvalid) hvalid hiv, h.out_eq, h.status_eq, h.done_eq]

/-- Copies under a valid message key that differ in a spent keystream block and in LAST_STATUS. -/
theorem Push.Resumes.of_withKeystream (hp : p.st.msgKeyValid = true) (hloaded : p.st.keyLoaded = true) {ks : Block}
    (hks : p.st.kpos ≠ 16 → p.st.ks = ks) (l : Status) : p.Resumes (p.withKeystream ks l) where
  st := Engine.resumes_withKeystream l hks
  out_eq := rfl
  status_eq := rfl
  done_eq := rfl
  valid_loaded _ := hloaded
  uses_valid _ := hp

/-- Before IV3 a chunk is stored as a word, and no derived value is read. -/
theorem commitChunk_resumes_iv {k : Fin 4} (h : p.Resumes q) (hp : p.st.phase = .iv k) (hk : k.val < 3) (c : List Byte) :
    PushesAlike (commitChunk p c) (commitChunk q c) := by
  rw [commitChunk_iv hp hk, commitChunk_iv (h.phase_eq.trans hp) hk]
  exact .ok { h with
    st := {
      persisted := congrArg
        (fun st : Engine => { st with iv := st.iv.set k.val (chunkWord c) k.isLt, phase := .iv (k + 1) }) h.st.persisted
      rk_eq := h.st.rk_eq
      h_eq := nofun
      j0_eq := nofun
      ej0_eq := nofun
      ks_eq := nofun }
    uses_valid := nofun }

/-- At IV3 both fail without a key, or `gcm_begin` makes the derived values of both from one schedule. -/
theorem commitChunk_resumes_iv3 (h : p.Resumes q) (hp : p.st.phase = .iv 3) (c : List Byte) :
    PushesAlike (commitChunk p c) (commitChunk q c) := by
  have hq : q.st.phase = .iv 3 := h.phase_eq.trans hp
  cases hloaded : p.st.keyLoaded with
  | false =>
    rw [commitChunk_iv3_unloaded hp hloaded, commitChunk_iv3_unloaded hq (h.keyLoaded_eq.trans hloaded)]
    exact .error _
  | true =>
    have hpersisted := h.st.persisted
    rw [← h.st.rk_eq hloaded] at hpersisted
    rw [commitChunk_iv3 hp hloaded, commitChunk_iv3 hq (h.keyLoaded_eq.trans hloaded), ← hpersisted]
    exact .ok { h with
      st := {
        persisted := rfl
        rk_eq := fun _ => rfl
        h_eq := fun _ _ => rfl
        j0_eq := fun _ _ => rfl
        ej0_eq := fun _ _ => rfl
        ks_eq := fun _ _ _ => rfl }
      valid_loaded := fun _ => hloaded
      uses_valid := fun _ => rfl }

theorem commitChunk_resumes_aad (h : p.Resumes q) (hp : p.st.phase = .aad) (c : List Byte) :
    PushesAlike (commitChunk p c) (commitChunk q c) := by
  have huses : p.st.phase.usesKey = true := by rw [hp]; rfl
  have hvalid := h.uses_valid huses
  have hloaded := h.valid_loaded hvalid
  obtain ⟨ks, l, hks, rfl⟩ := h.exists_withKeystream huses
  rw [commitChunk_aad hp, commitChunk_aad (p := p.withKeystream ks l) hp, Push.withKeystream_st, gcmAad_withKeystream]
  refine .ok (Push.Resumes.of_withKeystream ?_ ?_ ?_ l) <;> rw [gcmAad_frame]
  exacts [hvalid, hloaded, hks]

theorem commitChunk_resumes_payload (h : p.Resumes q) (hp : p.st.phase = .payload) (c : List Byte) :
    PushesAlike (commitChunk p c) (commitChunk q c) := by
  have huses : p.st.phase.usesKey = true := by rw [hp]; rfl
  have hvalid := h.uses_valid huses
  have hloaded := h.valid_loaded hvalid
  obtain ⟨ks, l, hks, rfl⟩ := h.exists_withKeystream huses
  obtain ⟨ks', hks', hpayload⟩ := gcmPayload_withKeystream l hks c
  rw [commitChunk_payload hp, commitChunk_payload (p := p.withKeystream ks l) hp, Push.withKeystream_st, hpayload]
  refine .ok (Push.Resumes.of_withKeystream ?_ ?_ hks' l) <;> rw [gcmPayload_frame]
  exacts [hvalid, hloaded]

theorem commitChunk_resumes_tag {k : Fin 4} (h : p.Resumes q) (hp : p.st.phase = .tag k) (c : List Byte) :
    PushesAlike (commitChunk p c) (commitChunk q c) := by
  have huses : p.st.phase.usesKey = true := by rw [hp]; rfl
  have hvalid := h.uses_valid huses
  have hloaded := h.valid_loaded hvalid
  obtain ⟨ks, l, hks, rfl⟩ := h.exists_withKeystream huses
  have htag : ∀ r : Push, r.st.phase = .tag k → commitChunk r c = .ok (commitTag k c r) := fun r hr => by
    simp only [commitChunk, hr]
  obtain ⟨hkeyLoaded, hmsgKeyValid, hkpos, hkeystream⟩ := commitTag_keeps k c p
  rw [htag p hp, htag (p.withKeystream ks l) hp, commitTag_withKeystream]
  refine .ok (Push.Resumes.of_withKeystream (hmsgKeyValid.trans hvalid) (hkeyLoaded.trans hloaded) ?_ l)
  rw [hkpos, hkeystream]
  exact hks

theorem commitChunk_resumes (h : p.Resumes q) (c : List Byte) : PushesAlike (commitChunk p c) (commitChunk q c) := by
  cases hp : p.st.phase with
  | idle =>
    have hq : q.st.phase = .idle := h.phase_eq.trans hp
    simp only [commitChunk, hp, hq]
    exact .error _
  | iv k =>
    by_cases hk : k.val < 3
    · exact commitChunk_resumes_iv h hp hk c
    · obtain rfl : k = 3 := by omega
      exact commitChunk_resumes_iv3 h hp c
  | aad => exact commitChunk_resumes_aad h hp c
  | payload => exact commitChunk_resumes_payload h hp c
  | tag k => exact commitChunk_resumes_tag h hp c

theorem commitChunks_resumes (cs : List (List Byte)) (h : p.Resumes q) :
    PushesAlike (commitChunks cs p) (commitChunks cs q) := by
  induction cs generalizing p q with
  | nil => exact .ok h
  | cons c cs ih =>
    rw [commitChunks_cons, commitChunks_cons]
    exact (commitChunk_resumes h c).bind fun _ _ hnext => ih hnext

theorem closePush_resumes (rest : List Byte) (h : p.Resumes q) :
    PushesAlike (closePush rest p) (closePush rest q) := by
  by_cases hend : rest = [] ∨ p.st.phase ≠ .idle
  · have hend' : rest = [] ∨ q.st.phase ≠ .idle := h.phase_eq ▸ hend
    rw [closePush_ok hend, closePush_ok hend', ← h.done_eq]
    exact .ok { h with st := h.st.withBuffer rest p.done, done_eq := rfl }
  · obtain ⟨hrest, hidle⟩ := not_or.mp hend
    have hidle := not_not.mp hidle
    rw [closePush_error hrest hidle, closePush_error hrest (h.phase_eq.trans hidle)]
    exact .error _

theorem pushData_resumes {a b : Engine} (hab : a.Resumes b) (hvalid : a.msgKeyValid = true → a.keyLoaded = true)
    (lw : BitVec 2) (data : List Byte) : PushesAlike (pushData lw data a) (pushData lw data b) := by
  have hcheck : pushEntryCheck lw data b = pushEntryCheck lw data a := hab.reads_alike fun _ _ _ _ _ _ _ => rfl
  have hwbuf : b.wbuf = a.wbuf := hab.reads_alike (f := Engine.wbuf) fun _ _ _ _ _ _ _ => rfl
  by_cases hok : pushEntryCheck lw data a = .ok
  · have hstart : (Push.start a).Resumes (Push.start b) :=
      ⟨hab, rfl, rfl, rfl, hvalid, msgKeyValid_of_pushEntryCheck hok⟩
    rw [pushData_of_checks hok, pushData_of_checks (hcheck.trans hok), hwbuf]
    exact (commitChunks_resumes _ hstart).bind fun _ _ hend => closePush_resumes _ hend
  · rw [pushData, pushData, hcheck, if_pos hok, if_pos hok]
    exact .error _

end

/-! ## Every operation on both -/

/-- An operation ends with one response from both states, in records that resume each other. -/
def EndAlike (i : Instr) (a b : State) : Prop :=
  ∃ st st' r, exec i a = finish a st r ∧ exec i b = finish b st' r ∧ st.Resumes st'

section

variable {a b : State}

/-- A refused operation writes LAST_STATUS alone. -/
theorem fail_alike {i : Instr} {e : Status} (hab : a.st.Resumes b.st) (ha : exec i a = fail a e)
    (hb : exec i b = fail b e) : EndAlike i a b := ⟨a.st, b.st, _, ha, hb, hab⟩

/-- END_AAD and END_PAYLOAD: the entry check has one outcome, and past it the message key is in use, so the effect `f`
works on records that differ in a spent keystream block. -/
theorem exec_end_alike {i : Instr} {ph : Phase} {f : Engine → Engine} (hab : a.st.Resumes b.st)
    (hloaded : a.st.msgKeyValid = true → a.st.keyLoaded = true) (hiv : ph.isIv = false)
    (hexec : ∀ s, exec i s =
      if endCheck ph s.st ≠ .ok then fail s (endCheck ph s.st) else finish s (f s.st) (statusResponse .ok))
    (hf : ∀ st ks l, f (st.withKeystream ks l) = (f st).withKeystream ks l)
    (hkeeps : ∀ st, (f st).kpos = st.kpos ∧ (f st).ks = st.ks) : EndAlike i a b := by
  have hcheck : endCheck ph b.st = endCheck ph a.st := hab.reads_alike fun _ _ _ _ _ _ _ => rfl
  by_cases hok : endCheck ph a.st = .ok
  · obtain ⟨_, rfl, _, hvalid⟩ := (endCheck_cases (ph := ph) (st := a.st)).resolve_right (by simp [hok])
    obtain ⟨hkpos, hks⟩ := hkeeps a.st
    have hend : f b.st = (f a.st).withKeystream b.st.ks b.st.lastStatus := by
      rw [← hf, ← hab.eq_withKeystream (hloaded hvalid) hvalid hiv]
    refine ⟨f a.st, f b.st, statusResponse .ok, (hexec a).trans (if_neg (not_not.mpr hok)), ?_, ?_⟩
    · rw [hexec b, hcheck, if_neg (not_not.mpr hok)]
    · rw [hend]
      apply Engine.resumes_withKeystream
      rw [hkpos, hks]
      exact hab.ks_eq hvalid hiv
  · refine fail_alike hab ((hexec a).trans (if_pos hok)) ?_
    rw [hexec b, hcheck, if_pos hok]

theorem aadClosed_withKeystream (st : Engine) (ks : Block) (l : Status) :
    aadClosed (st.withKeystream ks l) = (aadClosed st).withKeystream ks l := by
  unfold aadClosed
  rw [gcmCloseHash_withKeystream]
  rfl

theorem payloadClosed_withKeystream (st : Engine) (ks : Block) (l : Status) :
    payloadClosed (st.withKeystream ks l) = (payloadClosed st).withKeystream ks l := by
  have hencrypt : (st.withKeystream ks l).encrypt = st.encrypt := rfl
  unfold payloadClosed
  rw [hencrypt]
  split
  · unfold finishEncrypt
    rw [gcmFinish_withKeystream]
    rfl
  · rfl

theorem exec_pushData_alike (hab : a.st.Resumes b.st) (hloaded : a.st.msgKeyValid = true → a.st.keyLoaded = true)
    (lw : BitVec 2) (data : List Byte) : EndAlike (.pushData lw data) a b := by
  have hpush := pushData_resumes hab hloaded lw data
  generalize hp : pushData lw data a.st = x, hq : pushData lw data b.st = y at hpush
  cases hpush with
  | error e => exact fail_alike hab (exec_pushData_error hp) (exec_pushData_error hq)
  | @ok p q h =>
    refine ⟨p.st, q.st, ⟨p.status, p.out, 0, []⟩, ?_, ?_, h.st⟩
    · simp only [exec, execPushData, hp]
    · simp only [exec, execPushData, hq, h.status_eq, h.out_eq]

theorem readRegister_alike {i : Instr} {n : Nat} {index : Option (Fin n)} {regs : Engine → Vector Word n}
    (hab : a.st.Resumes b.st) (hexec : ∀ s, exec i s = readRegister s (regs s.st) index)
    (hregs : regs b.st = regs a.st) : EndAlike i a b := by
  have hb := hexec b
  rw [hregs] at hb
  cases index with
  | none => exact fail_alike hab (hexec a) hb
  | some k => exact ⟨_, _, _, hexec a, hb, hab⟩

theorem exec_writeKey_alike (hab : a.st.Resumes b.st) (index : BitVec 8) (value : Word) :
    EndAlike (.writeKey index value) a b := by
  cases hindex : registerIndex 8 index with
  | none => refine fail_alike (e := .protocolViolation) hab ?_ ?_ <;> simp only [exec, execWriteKey, hindex]
  | some k =>
    refine ⟨{ a.st with key := a.st.key.set k.val value k.isLt, keyZeroed := false },
      { b.st with key := b.st.key.set k.val value k.isLt, keyZeroed := false }, statusResponse .ok, ?_, ?_,
      { hab with
        persisted := congrArg
          (fun st : Engine => { st with key := st.key.set k.val value k.isLt, keyZeroed := false }) hab.persisted }⟩ <;>
    simp only [exec, execWriteKey, hindex]

theorem exec_loadKey_alike (hab : a.st.Resumes b.st) (bits : BitVec 16) : EndAlike (.loadKey bits) a b := by
  have hzeroed : b.st.keyZeroed = a.st.keyZeroed := hab.reads_alike (f := Engine.keyZeroed) fun _ _ _ _ _ _ _ => rfl
  have hkey : b.st.key = a.st.key := hab.reads_alike (f := Engine.key) fun _ _ _ _ _ _ _ => rfl
  rcases KeyLen.ofOperand_cases bits with ⟨len, hlen, _, _⟩ | hnone
  · cases hz : a.st.keyZeroed with
    | true => exact fail_alike hab (exec_loadKey_zeroed hlen hz) (exec_loadKey_zeroed hlen (hzeroed.trans hz))
    | false =>
      refine ⟨loadedKey len a.st, loadedKey len b.st, statusResponse .ok, exec_loadKey_loaded hlen hz,
        exec_loadKey_loaded hlen (hzeroed.trans hz), Engine.resumes_of_invalid rfl ?_ fun _ => ?_⟩
      · rw [loadedKey_rk, hkey]
        exact congrArg (loadedKey len) hab.persisted
      · rw [loadedKey_rk, loadedKey_rk, hkey]
  · exact ⟨unloadedKey a.st, unloadedKey b.st, statusResponse .invalidKeyLength, exec_loadKey_invalid a hnone,
      exec_loadKey_invalid b hnone,
      Engine.resumes_of_invalid rfl (congrArg unloadedKey hab.persisted) nofun⟩

/-- Every operation but READ_STATUS and SNAPSHOT. -/
theorem exec_endAlike {i : Instr} (hwrites : writesStatus i = true) (hab : a.st.Resumes b.st)
    (hloaded : a.st.msgKeyValid = true → a.st.keyLoaded = true) (hparam : a.keyZeroedAtReset = b.keyZeroedAtReset) :
    EndAlike i a b := by
  cases i with
  | reset => exact ⟨_, Engine.reset a.keyZeroedAtReset, _, rfl, by rw [hparam]; rfl, Engine.Resumes.refl _⟩
  | writeKey index value => exact exec_writeKey_alike hab index value
  | loadKey bits => exact exec_loadKey_alike hab bits
  | zeroKey =>
    exact ⟨zeroedKey a.st, zeroedKey b.st, statusResponse .ok, rfl, rfl,
      Engine.resumes_of_invalid rfl (congrArg zeroedKey hab.persisted) nofun⟩
  | startMessage enc =>
    exact ⟨startedMessage enc a.st, startedMessage enc b.st, statusResponse .ok, rfl, rfl,
      Engine.resumes_of_invalid rfl (congrArg (startedMessage enc) hab.persisted) hab.rk_eq⟩
  | pushData lw data => exact exec_pushData_alike hab hloaded lw data
  | endAad =>
    exact exec_end_alike hab hloaded rfl (fun _ => rfl) aadClosed_withKeystream
      fun st => by rw [aadClosed_frame]; exact ⟨rfl, rfl⟩
  | endPayload =>
    exact exec_end_alike hab hloaded rfl (fun _ => rfl) payloadClosed_withKeystream
      fun st => by rw [payloadClosed_frame]; exact ⟨rfl, rfl⟩
  | readStatus | snapshot => exact absurd hwrites nofun
  | readKey => exact readRegister_alike hab (fun _ => rfl) (hab.reads_alike (f := Engine.key) fun _ _ _ _ _ _ _ => rfl)
  | readTag => exact readRegister_alike hab (fun _ => rfl) (hab.reads_alike (f := Engine.tag) fun _ _ _ _ _ _ _ => rfl)
  | readIv => exact readRegister_alike hab (fun _ => rfl) (hab.reads_alike (f := Engine.iv) fun _ _ _ _ _ _ _ => rfl)
  | restore r =>
    cases hr : recordValid r with
    | true =>
      exact ⟨_, _, _, exec_restore_valid hr a, exec_restore_valid hr b, Engine.Resumes.refl _⟩
    | false => exact fail_alike hab (exec_restore_invalid hr a) (exec_restore_invalid hr b)

end

/-- READ_STATUS and SNAPSHOT read only persisted fields, LAST_STATUS among them. -/
theorem exec_observes_alike {i : Instr} {a b a' b' : State} (hwrites : writesStatus i = false) (hab : a.st.Resumes b.st)
    (ha : exec i a = .next a') (hb : exec i b = .next b') :
    a'.st = a.st ∧ b'.st = b.st ∧ (a.st.lastStatus = b.st.lastStatus → a'.response = b'.response) := by
  cases i with
  | readStatus =>
    obtain ⟨rfl, rfl⟩ := And.intro (observe_next ha) (observe_next hb)
    refine ⟨rfl, rfl, fun hlast => ?_⟩
    exact congrArg valueResponse (hab.shows_alike (fun _ _ _ _ _ _ => rfl) hlast).symm
  | snapshot =>
    obtain ⟨rfl, rfl⟩ := And.intro (observe_next ha) (observe_next hb)
    refine ⟨rfl, rfl, fun hlast => ?_⟩
    exact congrArg (Response.mk .ok [] 0) (hab.shows_alike (fun _ _ _ _ _ _ => rfl) hlast).symm
  | _ => exact absurd hwrites nofun

/-- Settles O44: an operation that writes LAST_STATUS ends alike (`exec_endAlike`), and READ_STATUS and SNAPSHOT show
persisted fields alone. -/
theorem resumedStateAnswersAlike : Obligations.ResumedStateAnswersAlike := by
  intro i a b a' b' ha hb hab hparam hexec hexec'
  cases hwrites : writesStatus i with
  | true =>
    obtain ⟨st, st', r, h, h', hst⟩ := exec_endAlike hwrites hab ha.valid_loaded hparam
    obtain rfl := finish_next (h.symm.trans hexec)
    obtain rfl := finish_next (h'.symm.trans hexec')
    exact ⟨hst.withLastStatus _ _, fun _ => ⟨rfl, rfl⟩⟩
  | false =>
    obtain ⟨hst, hst', hresponse⟩ := exec_observes_alike hwrites hab hexec hexec'
    rw [hst, hst']
    exact ⟨hab, fun h => have hlast := h.resolve_left nofun; ⟨hresponse hlast, hlast⟩⟩

end Sys2Proof.Machine


/-! PROOFS. The snapshot record (46_control.md R346 to R351). -/

namespace Sys2Proof.Machine

open Sys2Proof

/-! ## The fields of the record of a state -/

/-- The fields of R348, one byte string per row of its table. -/
def recordParts (st : Engine) : List (List Byte) :=
  [st.key.toList.flatMap be32, [st.keyLen.code.setWidth 8], [recordFlags st], [st.phase.code.setWidth 8],
   [st.lastStatus.code.setWidth 8], st.activeKey.toList.flatMap be32, st.iv.toList.flatMap be32,
   st.tag.toList.flatMap be32, [BitVec.ofNat 8 st.wbuf.length], zeroFill 3 st.wbuf, be128 st.y, be128 st.x,
   be64 st.aadLen, be64 st.ctLen, [BitVec.ofNat 8 st.hbuf.length], zeroFill 15 st.hbuf, [BitVec.ofNat 8 st.kpos.val]]

/-- The widths of the fields, in bytes. -/
def recordWidths : List Nat := [32, 1, 1, 1, 1, 32, 16, 16, 1, 3, 16, 16, 8, 8, 1, 15, 1]

theorem snapshotRecord_eq_flatten (st : Engine) : snapshotRecord st = (recordParts st).flatten := by
  simp [snapshotRecord, recordParts]

theorem take_drop_eq_recordField (r : List Byte) (offset n : Nat) :
    (r.drop offset).take n = recordField r offset n := rfl

/-- Word `j` of a field that holds the words of an array. -/
theorem recordField_word {n : Nat} {v : Vector Word n} {r : List Byte} {offset : Nat}
    (h : recordField r offset (4 * n) = v.toList.flatMap be32) (j : Nat) (hj : j < n) :
    recordField r (offset + 4 * j) 4 = be32 v[j] := by
  have hword := flatMap_be32_getElem v.toList j (by simpa using hj)
  rw [← h, recordField, List.drop_take, List.drop_drop, List.take_take, Nat.min_eq_left (by omega)] at hword
  simpa [recordField] using hword

/-- A one-byte field that holds a small number. -/
theorem toNat_getD_of_field {r : List Byte} {offset n : Nat} (h : recordField r offset 1 = [BitVec.ofNat 8 n])
    (hn : n < 256) : (r.getD offset 0).toNat = n := by
  rw [getD_of_take_one r offset _ h, BitVec.toNat_ofNat, Nat.mod_eq_of_lt hn]

/-- The bits of the flags byte. -/
theorem recordFlags_bits (st : Engine) :
    (recordFlags st).getLsbD 0 = st.keyLoaded ∧ (recordFlags st).getLsbD 1 = st.keyZeroed ∧
    (recordFlags st).getLsbD 2 = st.encrypt ∧ (recordFlags st).getLsbD 3 = st.tagOk ∧
    (recordFlags st).getLsbD 4 = st.done ∧ (recordFlags st).getLsbD 5 = st.msgKeyValid ∧
    (recordFlags st).getLsbD 6 = false ∧ (recordFlags st).getLsbD 7 = false := by
  unfold recordFlags
  generalize st.keyLoaded = b0, st.keyZeroed = b1, st.encrypt = b2, st.tagOk = b3, st.done = b4, st.msgKeyValid = b5
  revert b0 b1 b2 b3 b4 b5
  decide

section

variable {st : Engine} (hw : st.wbuf.length ≤ 3) (hh : st.hbuf.length ≤ 15)

include hw hh

theorem recordParts_lengths : (recordParts st).map List.length = recordWidths := by
  simp [recordParts, recordWidths, flatMap_be32_length, zeroFill_length _ _ hw, zeroFill_length _ _ hh,
    -List.length_flatMap]

theorem snapshotRecord_length : (snapshotRecord st).length = 169 := by
  rw [snapshotRecord_eq_flatten, List.length_flatten, recordParts_lengths hw hh]
  rfl

/-- Row `i` of the table stands at the sum of the widths before it. -/
theorem recordField_snapshotRecord (i : Fin 17) :
    recordField (snapshotRecord st) (recordWidths.take i).sum (recordWidths.getD i 0) = (recordParts st).getD i [] := by
  have hi : i.val < (recordParts st).length := i.isLt
  have hpart := List.drop_take_succ_flatten_eq_getElem (recordParts st) i hi
  rw [recordParts_lengths hw hh, ← snapshotRecord_eq_flatten, List.drop_take, List.sum_take_succ _ _ (by exact i.isLt),
    Nat.add_sub_cancel_left] at hpart
  rw [List.getD_eq_getElem _ _ hi, ← hpart, List.getD_eq_getElem _ _ (by exact i.isLt)]
  rfl

theorem snapshotRecord_keyLen : (snapshotRecord st).getD 32 0 = st.keyLen.code.setWidth 8 :=
  getD_of_take_one _ _ _ (recordField_snapshotRecord hw hh 1)

theorem snapshotRecord_flags : (snapshotRecord st).getD 33 0 = recordFlags st :=
  getD_of_take_one _ _ _ (recordField_snapshotRecord hw hh 2)

theorem snapshotRecord_phase : (snapshotRecord st).getD 34 0 = st.phase.code.setWidth 8 :=
  getD_of_take_one _ _ _ (recordField_snapshotRecord hw hh 3)

theorem snapshotRecord_lastStatus : (snapshotRecord st).getD 35 0 = st.lastStatus.code.setWidth 8 :=
  getD_of_take_one _ _ _ (recordField_snapshotRecord hw hh 4)

theorem snapshotRecord_wbuf_length : ((snapshotRecord st).getD 100 0).toNat = st.wbuf.length :=
  toNat_getD_of_field (recordField_snapshotRecord hw hh 8) (by omega)

theorem snapshotRecord_wbuf : recordField (snapshotRecord st) 101 3 = zeroFill 3 st.wbuf :=
  recordField_snapshotRecord hw hh 9

theorem snapshotRecord_y : recordField (snapshotRecord st) 104 16 = be128 st.y := recordField_snapshotRecord hw hh 10

theorem snapshotRecord_x : recordField (snapshotRecord st) 120 16 = be128 st.x := recordField_snapshotRecord hw hh 11

theorem snapshotRecord_aadLen : recordField (snapshotRecord st) 136 8 = be64 st.aadLen :=
  recordField_snapshotRecord hw hh 12

theorem snapshotRecord_ctLen : recordField (snapshotRecord st) 144 8 = be64 st.ctLen :=
  recordField_snapshotRecord hw hh 13

theorem snapshotRecord_hbuf_length : ((snapshotRecord st).getD 152 0).toNat = st.hbuf.length :=
  toNat_getD_of_field (recordField_snapshotRecord hw hh 14) (by omega)

theorem snapshotRecord_hbuf : recordField (snapshotRecord st) 153 15 = zeroFill 15 st.hbuf :=
  recordField_snapshotRecord hw hh 15

theorem snapshotRecord_kpos : ((snapshotRecord st).getD 168 0).toNat = st.kpos.val :=
  toNat_getD_of_field (recordField_snapshotRecord hw hh 16) (by omega)

theorem snapshotRecord_keyWords : recordField (snapshotRecord st) 0 32 = st.key.toList.flatMap be32 :=
  recordField_snapshotRecord hw hh 0

theorem snapshotRecord_key (j : Nat) (hj : j < 8) : recordField (snapshotRecord st) (0 + 4 * j) 4 = be32 st.key[j] :=
  recordField_word (n := 8) (offset := 0) (snapshotRecord_keyWords hw hh) j hj

theorem snapshotRecord_activeKeyWords : recordField (snapshotRecord st) 36 32 = st.activeKey.toList.flatMap be32 :=
  recordField_snapshotRecord hw hh 5

theorem snapshotRecord_activeKey (j : Nat) (hj : j < 8) :
    recordField (snapshotRecord st) (36 + 4 * j) 4 = be32 st.activeKey[j] :=
  recordField_word (n := 8) (offset := 36) (snapshotRecord_activeKeyWords hw hh) j hj

theorem snapshotRecord_ivWords : recordField (snapshotRecord st) 68 16 = st.iv.toList.flatMap be32 :=
  recordField_snapshotRecord hw hh 6

theorem snapshotRecord_iv (j : Nat) (hj : j < 4) : recordField (snapshotRecord st) (68 + 4 * j) 4 = be32 st.iv[j] :=
  recordField_word (n := 4) (offset := 68) (snapshotRecord_ivWords hw hh) j hj

theorem snapshotRecord_tagWords : recordField (snapshotRecord st) 84 16 = st.tag.toList.flatMap be32 :=
  recordField_snapshotRecord hw hh 7

theorem snapshotRecord_tag (j : Nat) (hj : j < 4) : recordField (snapshotRecord st) (84 + 4 * j) 4 = be32 st.tag[j] :=
  recordField_word (n := 4) (offset := 84) (snapshotRecord_tagWords hw hh) j hj

end

/-- Settles O40: the rows of R348, one by one. -/
theorem snapshotResult : Obligations.SnapshotResult := by
  refine ⟨⟨rfl, rfl, fun _ _ _ => rfl⟩, fun s hw hh => ⟨snapshotRecord s.st, rfl, snapshotRecord_length hw hh, ?_⟩⟩
  obtain ⟨hkeyLoaded, hkeyZeroed, hencrypt, htagOk, hdone, hvalid, h6, h7⟩ := recordFlags_bits s.st
  simp only [snapshotRecord_flags hw hh, take_drop_eq_recordField]
  refine ⟨fun j hj => ?_, snapshotRecord_keyLen hw hh, hkeyLoaded, hkeyZeroed, hencrypt, htagOk, hdone, hvalid, h6, h7,
    snapshotRecord_phase hw hh, snapshotRecord_lastStatus hw hh, snapshotRecord_activeKey hw hh, snapshotRecord_iv hw hh,
    snapshotRecord_tag hw hh, snapshotRecord_wbuf_length hw hh, snapshotRecord_wbuf hw hh, snapshotRecord_y hw hh,
    snapshotRecord_x hw hh, snapshotRecord_aadLen hw hh, snapshotRecord_ctLen hw hh, snapshotRecord_hbuf_length hw hh,
    snapshotRecord_hbuf hw hh, snapshotRecord_kpos hw hh⟩
  simpa using snapshotRecord_key hw hh j hj

/-! ## Validity -/

/-- Conditions 1 to 6 of R350, on a record of the right length. -/
theorem recordFormValid_iff {r : List Byte} (hr : r.length = 169) :
    recordFormValid r = true ↔
      (recordByte r 32).toNat ≤ 3 ∧ (recordFlag r 6 = false ∧ recordFlag r 7 = false) ∧
      (recordByte r 34).toNat ≤ 10 ∧ (recordByte r 35).toNat ≤ 4 ∧
      ((recordByte r 100).toNat ≤ 3 ∧ (recordByte r 152).toNat ≤ 15 ∧ (recordByte r 168).toNat ≤ 16) ∧
      ((∀ k, 101 + (recordByte r 100).toNat ≤ k → k < 104 → (recordByte r k).toNat = 0) ∧
        (∀ k, 153 + (recordByte r 152).toNat ≤ k → k < 168 → (recordByte r k).toNat = 0)) := by
  have hzero : ∀ start len n, len ≤ n → start + n ≤ 168 →
      ((recordField r (start + len) (n - len)).all (· == 0) = true ↔
        ∀ k, start + len ≤ k → k < start + n → (recordByte r k).toNat = 0) := by
    intro start len n hlen hn
    rw [recordField_zero r _ _ (by omega), show start + len + (n - len) = start + n by omega]
    rfl
  simp only [recordFormValid, hr, beq_self_eq_true, Bool.true_and, Bool.and_eq_true, decide_eq_true_eq,
    Bool.not_eq_true', and_assoc]
  constructor
  · rintro ⟨hkeyLen, h6, h7, hphase, hstatus, hwlen, hhlen, hkpos, hwbuf, hhbuf⟩
    exact ⟨hkeyLen, h6, h7, hphase, hstatus, hwlen, hhlen, hkpos, (hzero 101 _ 3 hwlen (by omega)).mp hwbuf,
      (hzero 153 _ 15 hhlen (by omega)).mp hhbuf⟩
  · rintro ⟨hkeyLen, h6, h7, hphase, hstatus, hwlen, hhlen, hkpos, hwbuf, hhbuf⟩
    exact ⟨hkeyLen, h6, h7, hphase, hstatus, hwlen, hhlen, hkpos, (hzero 101 _ 3 hwlen (by omega)).mpr hwbuf,
      (hzero 153 _ 15 hhlen (by omega)).mpr hhbuf⟩

/-- The words of an array past the first `m` are 0 exactly when their bytes are. -/
theorem recordWords_drop_eq_zero {r : List Byte} {n offset m : Nat} (hlen : offset + 4 * n ≤ r.length) :
    (∀ w ∈ (recordWords r n offset).toList.drop m, w = 0) ↔
      ∀ k, offset + 4 * m ≤ k → k < offset + 4 * n → (recordByte r k).toNat = 0 := by
  have hword : ∀ j, j < n → (wordOf (recordField r (offset + 4 * j) 4) = 0 ↔
      ∀ k, offset + 4 * j ≤ k → k < offset + 4 * j + 4 → (recordByte r k).toNat = 0) := by
    intro j hj
    rw [wordOf_eq_zero _ (recordField_length r _ 4 (by omega)),
      ← List.all_eq_true.trans (forall₂_congr fun _ _ => beq_iff_eq),
      recordField_zero r _ 4 (by omega)]
    rfl
  have hwords := drop_all_zero (recordWords r n offset) m
  simp only [List.all_eq_true, beq_iff_eq, recordWords_getElem] at hwords
  rw [hwords]
  constructor
  · intro h k hk hkn
    exact (hword ((k - offset) / 4) (by omega)).mp (h _ (by omega) (by omega)) k (by omega) (by omega)
  · intro h j hj hm
    exact (hword j hj).mpr fun k hk hk4 => h k (by omega) (by omega)

/-- Conditions 7 to 12 of R350, on the bytes of a record that meets the first six. -/
theorem recordFieldsValid_recordEngine {r : List Byte} (hr : r.length = 169) (hkeyLen : (recordByte r 32).toNat ≤ 3)
    (hphase : (recordByte r 34).toNat ≤ 10) (hwlen : (recordByte r 100).toNat ≤ 3) :
    recordFieldsValid (recordEngine r) = true ↔
      (recordFlag r 1 = true → recordFlag r 0 = false) ∧
      (recordFlag r 0 = true → (recordByte r 32).toNat ≠ 0) ∧
      (recordFlag r 0 = true →
        ∀ k, 36 + 4 * (2 * ((recordByte r 32).toNat + 1)) ≤ k → k < 68 → (recordByte r k).toNat = 0) ∧
      (recordFlag r 5 = true → recordFlag r 0 = true) ∧
      (recordFlag r 2 = true → (recordByte r 34).toNat < 7) ∧
      ((recordByte r 34).toNat = 0 → (recordByte r 100).toNat = 0) := by
  have hunset : (recordEngine r).keyLen = .unset ↔ (recordByte r 32).toNat = 0 := ofCode_unset _ hkeyLen
  have htag : (recordEngine r).phase.isTag = false ↔ (recordByte r 34).toNat < 7 := ofCode_isTag _ hphase
  have hidle : (recordEngine r).phase = .idle ↔ (recordByte r 34).toNat = 0 := ofCode_idle _ hphase
  have hwbuf : (recordEngine r).wbuf = [] ↔ (recordByte r 100).toNat = 0 := by
    have hlength : (recordEngine r).wbuf.length = (recordByte r 100).toNat :=
      recordField_length r 101 (recordByte r 100).toNat (by omega)
    rw [← List.length_eq_zero_iff, hlength]
  have hrest : (recordByte r 32).toNat ≠ 0 →
      ((∀ w ∈ (recordEngine r).activeKey.toList.drop (recordEngine r).keyLen.nk, w = 0) ↔
        ∀ k, 36 + 4 * (2 * ((recordByte r 32).toNat + 1)) ≤ k → k < 68 → (recordByte r k).toNat = 0) := fun h0 => by
    have hnk : (recordEngine r).keyLen.nk = _ := ofCode_nk _ hkeyLen h0
    rw [hnk]
    exact recordWords_drop_eq_zero (by omega)
  rw [recordFieldsValid_iff, ne_eq, hunset, htag, hidle, hwbuf]
  exact and_congr_right fun _ => and_congr_right fun hlen =>
    and_congr_left' (forall_congr' fun hloaded => hrest (hlen hloaded))

/-- Settles O41: conditions 1 to 6, and under them conditions 7 to 12. -/
theorem recordValidity : Obligations.RecordValidity := by
  intro r hr byte flag
  rw [recordValid, Bool.and_eq_true, recordFormValid_iff hr]
  refine (and_congr_right fun ⟨hkeyLen, _, hphase, _, ⟨hwlen, _, _⟩, _⟩ =>
    recordFieldsValid_recordEngine hr hkeyLen hphase hwlen).trans ?_
  simp only [and_assoc]
  rfl

/-! ## The record of a state, restored -/

/-- The array of words whose bytes stand in the record. -/
theorem recordWords_eq {n offset : Nat} {r : List Byte} {v : Vector Word n}
    (h : ∀ j (hj : j < n), recordField r (offset + 4 * j) 4 = be32 v[j]) : recordWords r n offset = v := by
  ext1 j hj
  rw [recordWords_getElem, h j hj, wordOf_be32]

/-- The used bytes of a buffer field. -/
theorem recordField_of_zeroFill {r bs : List Byte} {offset n : Nat} (h : recordField r offset n = zeroFill n bs)
    (hn : bs.length ≤ n) : recordField r offset bs.length = bs := by
  have htake : recordField r offset bs.length = (recordField r offset n).take bs.length := by
    rw [recordField, recordField, List.take_take, Nat.min_eq_left hn]
  rw [htake, h, zeroFill, List.take_left]

/-- The unused bytes of a buffer field are 0. -/
theorem recordByte_of_zeroFill {r bs : List Byte} {offset n k : Nat} (h : recordField r offset n = zeroFill n bs)
    (hk : offset + bs.length ≤ k) (hkn : k < offset + n) : (recordByte r k).toNat = 0 := by
  rw [recordByte, getD_recordField r offset n k (by omega) hkn, h, zeroFill, List.getD_append_right _ _ _ _ (by omega)]
  simp

theorem KeyLen.ofCode_code (len : KeyLen) : KeyLen.ofCode (len.code.setWidth 8).toNat = some len := by
  cases len <;> rfl

theorem Phase.ofCode_code (ph : Phase) : Phase.ofCode (ph.code.setWidth 8).toNat = some ph := by
  cases ph with
  | idle | aad | payload => rfl
  | iv k | tag k => fin_cases k <;> rfl

section

variable {st : Engine} (hw : st.wbuf.length ≤ 3) (hh : st.hbuf.length ≤ 15)

include hw hh

/-- The record read back. -/
theorem recordEngine_snapshotRecord : recordEngine (snapshotRecord st) =
    { st with rk := padWords 60 [], h := 0, j0 := 0, ej0 := 0, ks := 0, lastStatus := .ok } := by
  obtain ⟨hkeyLoaded, hkeyZeroed, hencrypt, htagOk, hdone, hvalid, _, _⟩ := recordFlags_bits st
  have hwbuf := recordField_of_zeroFill (snapshotRecord_wbuf hw hh) hw
  have hhbuf := recordField_of_zeroFill (snapshotRecord_hbuf hw hh) hh
  simp only [recordEngine, recordFlag, recordByte, recordWords_eq (snapshotRecord_key hw hh),
    recordWords_eq (snapshotRecord_activeKey hw hh), recordWords_eq (snapshotRecord_iv hw hh),
    recordWords_eq (snapshotRecord_tag hw hh), snapshotRecord_keyLen hw hh, KeyLen.ofCode_code,
    snapshotRecord_flags hw hh, hkeyLoaded, hkeyZeroed, hencrypt, htagOk, hdone, hvalid, snapshotRecord_phase hw hh,
    Phase.ofCode_code, snapshotRecord_y hw hh, snapshotRecord_x hw hh, blockOf_be128, snapshotRecord_aadLen hw hh,
    snapshotRecord_ctLen hw hh, be64_value, snapshotRecord_wbuf_length hw hh, hwbuf, snapshotRecord_hbuf_length hw hh,
    hhbuf, snapshotRecord_kpos hw hh, Option.getD_some, Fin.ofNat_val_eq_self]

theorem recordFormValid_snapshotRecord : recordFormValid (snapshotRecord st) = true := by
  obtain ⟨_, _, _, _, _, _, h6, h7⟩ := recordFlags_bits st
  rw [recordFormValid_iff (snapshotRecord_length hw hh)]
  simp only [recordFlag, recordByte, snapshotRecord_keyLen hw hh, snapshotRecord_flags hw hh, snapshotRecord_phase hw hh,
    snapshotRecord_lastStatus hw hh, snapshotRecord_wbuf_length hw hh, snapshotRecord_hbuf_length hw hh,
    snapshotRecord_kpos hw hh]
  refine ⟨?_, ⟨h6, h7⟩, ?_, ?_, ⟨hw, hh, Nat.le_of_lt_succ st.kpos.isLt⟩,
    fun k hk hkn => recordByte_of_zeroFill (snapshotRecord_wbuf hw hh) hk hkn,
    fun k hk hkn => recordByte_of_zeroFill (snapshotRecord_hbuf hw hh) hk hkn⟩
  · cases st.keyLen <;> decide
  · cases st.phase with
    | idle | aad | payload => decide
    | iv k | tag k => fin_cases k <;> decide
  · cases st.lastStatus <;> decide

end

theorem recordValid_snapshotRecord {st : Engine} (h : st.Inv) : recordValid (snapshotRecord st) = true := by
  rw [recordValid, recordFormValid_snapshotRecord h.wbuf_length h.hbuf_length,
    recordEngine_snapshotRecord h.wbuf_length h.hbuf_length, Bool.true_and, recordFieldsValid_iff]
  exact ⟨h.zeroed_unloaded, h.loaded_len, h.loaded_rest, h.valid_loaded, h.encrypt_not_tag, h.idle_wbuf⟩

theorem encryptE_congr {a b : Engine} (hrk : a.rk = b.rk) (hlen : a.keyLen = b.keyLen) : encryptE a = encryptE b := by
  funext block
  rw [encryptE, encryptE, hrk, hlen]

/-- Where both records hold exact derived values, agreement in the persisted fields and the schedule is enough. -/
theorem Engine.resumes_of_derivedExact {a b : Engine}
    (hpersisted : { a with rk := b.rk, h := b.h, j0 := b.j0, ej0 := b.ej0, ks := b.ks, lastStatus := b.lastStatus } = b)
    (hrk : a.keyLoaded = true → a.rk = b.rk) (hloaded : a.msgKeyValid = true → a.keyLoaded = true)
    (ha : a.msgKeyValid = true → a.phase.isIv = false → a.DerivedExact) (hb : a.msgKeyValid = true → b.DerivedExact) :
    a.Resumes b := by
  have hcipher : a.msgKeyValid = true → encryptE a = encryptE b := fun hv =>
    encryptE_congr (hrk (hloaded hv)) (by rw [← hpersisted])
  have hivWords : a.iv = b.iv := by rw [← hpersisted]
  have hy : a.y = b.y := by rw [← hpersisted]
  have hkpos : a.kpos = b.kpos := by rw [← hpersisted]
  refine ⟨hpersisted, hrk, fun hv hiv => ?_, fun hv hiv => ?_, fun hv hiv => ?_, fun hv hiv hk => ?_⟩
  · rw [(ha hv hiv).h_eq, (hb hv).h_eq, hcipher hv]
  · rw [(ha hv hiv).j0_eq, (hb hv).j0_eq, hivWords]
  · rw [(ha hv hiv).ej0_eq, (hb hv).ej0_eq, hcipher hv, hivWords]
  · rw [(ha hv hiv).ks_eq hk, (hb hv).ks_eq (hkpos ▸ hk), hcipher hv, hy]

/-- What is derived again from the persisted fields is what a state that meets the invariant holds. -/
theorem Engine.Inv.resumes_rederive {st e : Engine} (h : st.Inv)
    (he : { st with rk := e.rk, h := e.h, j0 := e.j0, ej0 := e.ej0, ks := e.ks, lastStatus := e.lastStatus } = e) :
    st.Resumes (rederive e) := by
  have hlast : (rederive e).lastStatus = e.lastStatus := by rw [rederive_frame]
  have hloaded : e.keyLoaded = st.keyLoaded := by rw [← he]
  have hvalid : e.msgKeyValid = st.msgKeyValid := by rw [← he]
  have hschedule : expandKey e.activeKey e.keyLen = expandKey st.activeKey st.keyLen := by rw [← he]
  refine Engine.resumes_of_derivedExact ?_ (fun hl => ?_) h.valid_loaded h.derived_exact fun hv =>
    rederive_derivedExact (hvalid.trans hv)
  · rw [hlast]
    exact (congrArg (fun x : Engine => { x with
      rk := (rederive e).rk, h := (rederive e).h, j0 := (rederive e).j0, ej0 := (rederive e).ej0
      ks := (rederive e).ks }) he).trans (rederive_frame e).symm
  · rw [h.loaded_schedule hl, rederive_rk (hloaded.trans hl), hschedule]

/-- Settles O43: the record is valid, it is read back as the persisted fields, and the rest is derived again to what the
invariant says the state holds. -/
theorem restoreUndoesSnapshot : Obligations.RestoreUndoesSnapshot := by
  intro s s' h
  have hvalid := recordValid_snapshotRecord h
  refine ⟨hvalid, _, exec_restore_valid hvalid s', rfl, rfl, ?_⟩
  have hresumes : s.st.Resumes (rederive (recordEngine (snapshotRecord s.st))) := by
    rw [recordEngine_snapshotRecord h.wbuf_length h.hbuf_length]
    exact Engine.Inv.resumes_rederive h rfl
  exact hresumes.withLastStatus s.st.lastStatus .ok

/-! ## A valid record, restored -/

theorem recordField_append (r : List Byte) (offset m n : Nat) :
    recordField r offset m ++ recordField r (offset + m) n = recordField r offset (m + n) := by
  rw [recordField, recordField, recordField, List.take_add, List.drop_drop]

theorem recordField_one {r : List Byte} {k : Nat} (h : k < r.length) : recordField r k 1 = [recordByte r k] := by
  rw [recordField, List.take_one_drop_eq_of_lt_length h, recordByte, List.getD_eq_getElem _ _ h]
  rfl

/-- A record cut into its fields. -/
theorem splitLengths_recordWidths (r : List Byte) : recordWidths.splitLengths r =
    [recordField r 0 32, recordField r 32 1, recordField r 33 1, recordField r 34 1, recordField r 35 1,
     recordField r 36 32, recordField r 68 16, recordField r 84 16, recordField r 100 1, recordField r 101 3,
     recordField r 104 16, recordField r 120 16, recordField r 136 8, recordField r 144 8, recordField r 152 1,
     recordField r 153 15, recordField r 168 1] := by
  simp [recordWidths, recordField]

theorem recordWords_toList (r : List Byte) (n offset : Nat) :
    (recordWords r n offset).toList = (List.range n).map fun j => wordOf (recordField r (offset + 4 * j) 4) := by
  apply List.ext_getElem (by simp)
  intro j hj _
  rw [Vector.getElem_toList, recordWords_getElem]
  simp

/-- The bytes of an array of words read from the record. -/
theorem flatMap_be32_recordWords {r : List Byte} {n offset : Nat} (h : offset + 4 * n ≤ r.length) :
    (recordWords r n offset).toList.flatMap be32 = recordField r offset (4 * n) := by
  rw [recordWords_toList]
  induction n with
  | zero => rfl
  | succ n ih =>
    rw [List.range_succ, List.map_append, List.flatMap_append, ih (by omega), Nat.mul_succ, ← recordField_append]
    simp [be32_wordOf _ (recordField_length r (offset + 4 * n) 4 (by omega))]

theorem KeyLen.code_ofCode {b : Byte} (h : b.toNat ≤ 3) : ((KeyLen.ofCode b.toNat).getD .unset).code.setWidth 8 = b := by
  obtain ⟨n, hn, rfl⟩ : ∃ n ≤ 3, BitVec.ofNat 8 n = b := ⟨b.toNat, h, by simp⟩
  interval_cases n <;> rfl

theorem Phase.code_ofCode {b : Byte} (h : b.toNat ≤ 10) : ((Phase.ofCode b.toNat).getD .idle).code.setWidth 8 = b := by
  obtain ⟨n, hn, rfl⟩ : ∃ n ≤ 10, BitVec.ofNat 8 n = b := ⟨b.toNat, h, by simp⟩
  interval_cases n <;> rfl

/-- A status code that occurs in a valid record is the code of a status. -/
theorem Status.exists_code {b : Byte} (h : b.toNat ≤ 4) : ∃ c : Status, c.code.setWidth 8 = b := by
  obtain ⟨n, hn, rfl⟩ : ∃ n ≤ 4, BitVec.ofNat 8 n = b := ⟨b.toNat, h, by simp⟩
  interval_cases n
  exacts [⟨.ok, rfl⟩, ⟨.invalidKeyLength, rfl⟩, ⟨.keyNotLoaded, rfl⟩, ⟨.authenticationFailed, rfl⟩,
    ⟨.protocolViolation, rfl⟩]

/-- The flags byte of a record with the two unused flags 0. -/
theorem recordFlags_recordEngine {r : List Byte} (h6 : recordFlag r 6 = false) (h7 : recordFlag r 7 = false) :
    recordFlags (recordEngine r) = recordByte r 33 := by
  obtain ⟨b0, b1, b2, b3, b4, b5, b6, b7⟩ := recordFlags_bits (recordEngine r)
  apply BitVec.eq_of_getLsbD_eq
  intro i hi
  interval_cases i
  exacts [b0, b1, b2, b3, b4, b5, b6.trans h6.symm, b7.trans h7.symm]

theorem length_of_recordFormValid {r : List Byte} (h : recordFormValid r = true) : r.length = 169 := by
  by_contra hne
  simp [recordFormValid, hne] at h

/-- The fields of a well-formed record come back from the state they make, row by row. -/
theorem recordParts_recordEngine {r : List Byte} (hform : recordFormValid r = true) {c : Status}
    (hc : c.code.setWidth 8 = recordByte r 35) :
    recordParts { recordEngine r with lastStatus := c } = recordWidths.splitLengths r := by
  have hr := length_of_recordFormValid hform
  obtain ⟨hkeyLen, ⟨h6, h7⟩, hphase, _, ⟨hwlen, hhlen, hkpos⟩, hwbuf, hhbuf⟩ := (recordFormValid_iff hr).mp hform
  have hwlength := recordField_length r 101 (recordByte r 100).toNat (by omega)
  have hhlength := recordField_length r 153 (recordByte r 152).toNat (by omega)
  simp only [splitLengths_recordWidths, recordParts, List.cons.injEq]
  refine ⟨flatMap_be32_recordWords (n := 8) (by omega), ?_, ?_, ?_, ?_, flatMap_be32_recordWords (n := 8) (by omega),
    flatMap_be32_recordWords (n := 4) (by omega), flatMap_be32_recordWords (n := 4) (by omega), ?_,
    (zeroFill_recordField r 101 _ 3 hwlen (by omega) hwbuf).symm, be128_blockOf _ (recordField_length r _ _ (by omega)),
    be128_blockOf _ (recordField_length r _ _ (by omega)), be64_beNat _ (recordField_length r _ _ (by omega)),
    be64_beNat _ (recordField_length r _ _ (by omega)), ?_,
    (zeroFill_recordField r 153 _ 15 hhlen (by omega) hhbuf).symm, ?_, trivial⟩
  all_goals rw [recordField_one (by omega)]
  · exact congrArg ([·]) (KeyLen.code_ofCode hkeyLen)
  · exact congrArg ([·]) (recordFlags_recordEngine h6 h7)
  · exact congrArg ([·]) (Phase.code_ofCode hphase)
  · exact congrArg ([·]) hc
  · simp [recordEngine, hwlength]
  · simp [recordEngine, hhlength]
  · simp [recordEngine, Nat.mod_eq_of_lt (Nat.lt_succ_of_le hkpos)]

/-- A valid record is the record of the state its fields make, with its own LAST_STATUS. -/
theorem snapshotRecord_recordEngine {r : List Byte} (h : recordValid r = true) :
    ∃ c : Status, snapshotRecord { recordEngine r with lastStatus := c } = r := by
  obtain ⟨hform, _⟩ := Bool.and_eq_true_iff.mp h
  have hr := length_of_recordFormValid hform
  obtain ⟨_, _, _, hstatus, _⟩ := (recordFormValid_iff hr).mp hform
  obtain ⟨c, hc⟩ := Status.exists_code hstatus
  refine ⟨c, ?_⟩
  rw [snapshotRecord_eq_flatten, recordParts_recordEngine hform hc]
  exact List.flatten_splitLengths _ _ hr.le

/-- LAST_STATUS is byte 35 of the record. -/
theorem snapshotRecord_withLastStatus (st : Engine) (c : Status) :
    snapshotRecord { st with lastStatus := c } = (snapshotRecord st).set 35 (c.code.setWidth 8) := by
  have hcut : ∀ d, snapshotRecord { st with lastStatus := d } =
      ((recordParts st).take 4).flatten ++ d.code.setWidth 8 :: ((recordParts st).drop 5).flatten := fun d => by
    have hflags : recordFlags { st with lastStatus := d } = recordFlags st := rfl
    rw [snapshotRecord_eq_flatten]
    simp [recordParts, hflags]
  have hlen : ((recordParts st).take 4).flatten.length = 35 := by
    simp [recordParts, flatMap_be32_length, -List.length_flatMap]
  have hst : snapshotRecord st = _ := hcut st.lastStatus
  rw [hcut c, hst, ← hlen, List.set_append_right _ _ le_rfl, Nat.sub_self, List.set_cons_zero]

/-! ## What is derived again -/

theorem rederive_rk_eq (st : Engine) :
    (rederive st).rk = if st.keyLoaded then expandKey st.activeKey st.keyLen else Vector.replicate 60 0 := by
  rw [← padWords_nil]
  unfold rederive rederiveMessage
  split <;> rfl

theorem rederive_msgKeyValid (st : Engine) : (rederive st).msgKeyValid = st.msgKeyValid := by rw [rederive_frame]

/-- The derived values of a valid message key (46_control.md R351). -/
theorem rederive_valid {st : Engine} (h : st.msgKeyValid = true) :
    (rederive st).h = encryptE (rederive st) 0 ∧ (rederive st).j0 = counterBlock0 (rederive st).iv ∧
    (rederive st).ej0 = encryptE (rederive st) (counterBlock0 (rederive st).iv) ∧
    (rederive st).ks = if (rederive st).kpos.val < 16 then encryptE (rederive st) (rederive st).y else 0 := by
  have hvalid : (rederiveSchedule st).msgKeyValid = true := h
  unfold rederive rederiveMessage
  rw [if_pos hvalid]
  exact ⟨rfl, rfl, rfl, rfl⟩

theorem rederive_invalid {st : Engine} (h : st.msgKeyValid = false) :
    (rederive st).h = 0 ∧ (rederive st).j0 = 0 ∧ (rederive st).ej0 = 0 ∧ (rederive st).ks = 0 := by
  have hinvalid : ¬(rederiveSchedule st).msgKeyValid = true := by simp [h]
  unfold rederive rederiveMessage
  rw [if_neg hinvalid]
  exact ⟨rfl, rfl, rfl, rfl⟩

theorem snapshotRecord_rederive (st : Engine) (c : Status) :
    snapshotRecord { rederive st with lastStatus := c } = snapshotRecord { st with lastStatus := c } := by
  rw [rederive_frame]
  rfl

/-- Settles O42: an invalid record fails; a valid one is the record of the state its fields make
(`snapshotRecord_recordEngine`), and what it leaves out is derived again. -/
theorem restoreResult : Obligations.RestoreResult := by
  refine ⟨⟨rfl, rfl, fun _ _ _ => rfl⟩, fun r s => ⟨fun h => exec_restore_invalid h s, fun h => ?_⟩⟩
  have hmsg := rederive_msgKeyValid (recordEngine r)
  refine ⟨{ rederive (recordEngine r) with lastStatus := .ok }, exec_restore_valid h s, rfl, ?_, ?_,
    fun hv => rederive_valid (hmsg.symm.trans hv), fun hv => rederive_invalid (hmsg.symm.trans hv)⟩
  · obtain ⟨c, hc⟩ := snapshotRecord_recordEngine h
    have hset := snapshotRecord_withLastStatus { recordEngine r with lastStatus := c } .ok
    rw [hc] at hset
    exact (snapshotRecord_rederive _ _).trans hset
  · have hrk := rederive_rk_eq (recordEngine r)
    rw [rederive_frame] at hrk ⊢
    exact hrk

end Sys2Proof.Machine


/-! PROOFS. How an operation fails (60_exceptions.md), and the step with no command issued. -/

namespace Sys2Proof.Machine

open Sys2Proof

/-! ## Fatal statuses -/

/-- A fatal status comes from one of two ends: a failed check, which ends in `fail`, or a LOAD_KEY of an invalid length,
which ends in `unloadedKey` (60_exceptions.md R376). What the operations do otherwise never answers one. -/
theorem exec_fatal_cases {i : Instr} {s t : State} (h : exec i s = .next t)
    (hfatal : t.response.status.fatal = true) :
    (∃ e, (e = .protocolViolation ∨ e = .keyNotLoaded) ∧ fail s e = .next t) ∨
    finish s (unloadedKey s.st) (statusResponse .invalidKeyLength) = .next t := by
  rcases exec_cases i s t h with ⟨e, he, rfl, _⟩ | heffect
  · exact .inl ⟨e, he, rfl⟩
  · cases i with
    | reset | zeroKey | startMessage | readStatus | snapshot => obtain rfl : t = _ := heffect; cases hfatal
    | writeKey => obtain ⟨_, _, rfl⟩ := heffect; cases hfatal
    | loadKey =>
      obtain ⟨rfl, _⟩ | ⟨_, _, _, rfl⟩ := heffect
      · exact .inr rfl
      · cases hfatal
    | pushData =>
      obtain ⟨q, hq, rfl⟩ := heffect
      have hstatus : q.status.fatal = true := hfatal
      rcases push_status hq with e | e <;> rw [e] at hstatus <;> cases hstatus
    | endAad | endPayload => obtain ⟨_, _, _, rfl⟩ := heffect; cases hfatal
    | readKey | readTag | readIv | restore => obtain ⟨_, rfl⟩ := heffect; cases hfatal

/-- Settles O10: the two ends of `exec_fatal_cases` are the two cases of R376, and every operation has a result in the
state they leave. -/
theorem fatalStatusWritesOnlyLastStatus : Obligations.FatalStatusWritesOnlyLastStatus := by
  intro i s t h hfatal
  rcases exec_fatal_cases h hfatal with ⟨e, he, hfail⟩ | hunload
  · obtain rfl := fail_next hfail
    have hother : e ≠ .invalidKeyLength := by rcases he with rfl | rfl <;> nofun
    exact ⟨fun _ => rfl, fun hinvalid => absurd hinvalid hother, fun j => everyOperationHasAResult j _⟩
  · obtain rfl := finish_next hunload
    exact ⟨fun hother => absurd rfl hother, fun _ => rfl, fun j => everyOperationHasAResult j _⟩

/-! ## No command -/

theorem step_of_noCommand {s : State} (h : decode s.input = .noCommand) : step s = .next s := by
  simp only [step, fetch, h]

/-- Settles O8: an empty stream decodes to no command. -/
theorem nothingHappensBetweenOperations : Obligations.NothingHappensBetweenOperations := by
  intro s hempty
  have hnone : decode s.input = .noCommand := congrArg decode hempty
  exact step_of_noCommand hnone

end Sys2Proof.Machine


/-! PROOFS. The state after reset (70_reset_and_hazards.md R410): the record RESET produces, and that it meets the invariant. -/

namespace Sys2Proof.Machine

open Sys2Proof

/-- R410: the machine starts with the record that RESET produces, the parameter at its default. -/
theorem State.reset_st : State.reset.st = Engine.reset State.reset.keyZeroedAtReset := rfl

/-- Settles O38: the initial record by definition, and the record that RESET leaves by `resetResult`, which writes out its
fields. -/
theorem initialStateIsTheResetState : Obligations.InitialStateIsTheResetState := by
  obtain ⟨_, hreset⟩ := resetResult
  exact ⟨State.reset_st, rfl, fun s => ⟨_, hreset s, rfl⟩⟩

/-- Settles O46: a reset record meets the invariant (`reset_inv`), and the machine starts with one. -/
theorem resetMeetsTheInvariant : Obligations.ResetMeetsTheInvariant := by
  have hstart : State.reset.st.Inv := State.reset_st ▸ reset_inv _
  exact ⟨hstart, reset_inv⟩

end Sys2Proof.Machine


/-! PROOFS. The round trips of the command encoding (30_encoding.md R111 to R115): what an accepted command says of its
bytes, header and operands apart, and the two obligations of the family. -/

namespace Sys2Proof

open Sys2Proof.Machine

/-! ## An accepted command -/

/-- All that an accepted command says of its bytes: a header that names a row with every reserved bit 0, then the operands
of the row's format. -/
theorem decode_eq_command {bs rest : List Byte} {i : Instr} (hdecode : decode bs = .command i rest) :
    ∃ op h value data operands, bs = be32 h ++ operands ∧ headerOp h = op.code ∧ reservedZero op h = true ∧
      takeOperands op.format operands = some (value, data, rest) ∧ i = op.instr h value data := by
  cases bs with
  | nil => cases hdecode
  | cons b bs =>
    cases hword : takeWord (b :: bs) with
    | none => simp [decode, hword] at hdecode
    | some front =>
      obtain ⟨h, operands⟩ := front
      rw [takeWord_eq_some hword, decode_be32] at hdecode
      cases hop : Op.ofCode (headerOp h) with
      | none => simp [hop] at hdecode
      | some op =>
        cases htake : takeOperands op.format operands with
        | none => simp [hop, htake] at hdecode
        | some parts =>
          obtain ⟨value, data, tail⟩ := parts
          cases hzero : reservedZero op h with
          | false => simp [hop, htake, hzero] at hdecode
          | true =>
            obtain ⟨rfl, rfl⟩ : op.instr h value data = i ∧ tail = rest := by simpa [hop, htake, hzero] using hdecode
            exact ⟨op, h, value, data, operands, takeWord_eq_some hword, (Op.code_of_ofCode hop).symm, hzero, htake, rfl⟩

/-! ## The header of an accepted command -/

/-- The ENC bit of START_MESSAGE is bit 0 of A (R112). -/
theorem getLsbD_eight_eq_headerA (h : Word) : h.getLsbD 8 = (headerA h).getLsbD 0 := by
  simp [headerA]

/-- The LW bits of PUSH_DATA are the low two bits of A (R112). -/
theorem extractLsb'_eight_two_eq_headerA (h : Word) : h.extractLsb' 8 2 = (headerA h).setWidth 2 := by
  ext k hk
  have hbyte : k < 8 := by omega
  simp [headerA, hbyte]

/-- A header field whose bits are all reserved is 0. -/
theorem field_eq_zero {n : Nat} {field mask : BitVec n} (hzero : field &&& mask = 0) (hmask : mask = BitVec.allOnes n) :
    field = 0 := by
  rwa [hmask, BitVec.and_allOnes] at hzero

/-- A byte whose upper seven bits are 0 is its bit 0. -/
theorem ofBool_bit_zero_setWidth : ∀ a : BitVec 8, a &&& 0xFE = 0 → (BitVec.ofBool (a.getLsbD 0)).setWidth 8 = a := by
  decide

/-- A byte whose upper six bits are 0 is its low two bits. -/
theorem setWidth_two_setWidth : ∀ a : BitVec 8, a &&& 0xFC = 0 → (a.setWidth 2).setWidth 8 = a := by
  decide

/-- A header that names the row, with every reserved bit 0, is the header of the instruction assembled from it: what the
operands do not hold of the header is OP and 0 (R112, R114). -/
theorem header_instr {op : Op} {h : Word} (hop : headerOp h = op.code) (hzero : reservedZero op h = true)
    (value : Word) (data : List Byte) : (op.instr h value data).header = h := by
  obtain ⟨ha, hb⟩ := (reservedZero_iff hop).mp hzero
  have hfields := header_fields h op hop
  cases op with
  | reset | zeroKey | endAad | endPayload | readStatus | snapshot | restore =>
    have ha0 : headerA h = 0 := field_eq_zero ha rfl
    have hb0 : headerB h = 0 := field_eq_zero hb rfl
    rwa [ha0, hb0] at hfields
  | writeKey | readKey | readTag | readIv =>
    have hb0 : headerB h = 0 := field_eq_zero hb rfl
    rwa [hb0] at hfields
  | loadKey =>
    have ha0 : headerA h = 0 := field_eq_zero ha rfl
    rwa [ha0] at hfields
  | startMessage =>
    have hb0 : headerB h = 0 := field_eq_zero hb rfl
    rw [Op.instr, Instr.header, getLsbD_eight_eq_headerA, ofBool_bit_zero_setWidth _ ha]
    rwa [hb0] at hfields
  | pushData =>
    have hb0 : headerB h = 0 := field_eq_zero hb rfl
    rw [Op.instr, Instr.header, extractLsb'_eight_two_eq_headerA, setWidth_two_setWidth _ ha]
    rwa [hb0] at hfields

/-! ## The operands of an accepted command -/

/-- Operands taken from the stream are the operand bytes of the instruction assembled from them, which is well-formed: LEN
is the number of data bytes, and a record has its 169 (R112, R114). -/
theorem operandBytes_instr {op : Op} {value : Word} {data operands rest : List Byte}
    (htake : takeOperands op.format operands = some (value, data, rest)) (h : Word) :
    (op.instr h value data).wellFormed = true ∧ operands = (op.instr h value data).operandBytes ++ rest := by
  cases op with
  | reset | loadKey | zeroKey | startMessage | endAad | endPayload | readStatus | readKey | readTag | readIv | snapshot =>
    cases htake
    exact ⟨rfl, rfl⟩
  | writeKey =>
    simp only [Op.format, takeOperands, Option.map_eq_some_iff] at htake
    obtain ⟨⟨word, tail⟩, hword, heq⟩ := htake
    cases heq
    exact ⟨rfl, takeWord_eq_some hword⟩
  | pushData =>
    simp only [Op.format, takeOperands, Option.bind_eq_some_iff, Option.map_eq_some_iff] at htake
    obtain ⟨⟨len, tail⟩, hword, ⟨bytes, tail'⟩, hbytes, heq⟩ := htake
    cases heq
    obtain ⟨rfl, hlen⟩ := takeBytes_eq_some hbytes
    constructor
    · exact decide_eq_true (hlen ▸ len.isLt)
    · rw [takeWord_eq_some hword, Op.instr, Instr.operandBytes, hlen, BitVec.ofNat_toNat, BitVec.setWidth_eq,
        List.append_assoc]
  | restore =>
    simp only [Op.format, takeOperands, Option.map_eq_some_iff] at htake
    obtain ⟨⟨record, tail⟩, hbytes, heq⟩ := htake
    cases heq
    obtain ⟨rfl, hlen⟩ := takeBytes_eq_some hbytes
    exact ⟨decide_eq_true hlen, rfl⟩

/-! ## The round trips -/

/-- Settles O1: `decode_encode`, which puts together the laws of the header and the operands of each instruction. -/
theorem decodeInvertsEncode : Obligations.DecodeInvertsEncode :=
  fun _ rest hwf => decode_encode hwf rest

/-- Settles O2: an accepted command is a header and operands (`decode_eq_command`), and the encoder writes both back
(`header_instr`, `operandBytes_instr`). -/
theorem encodeInvertsDecode : Obligations.EncodeInvertsDecode := by
  intro bs rest i hdecode
  obtain ⟨op, h, value, data, operands, rfl, hop, hzero, htake, rfl⟩ := decode_eq_command hdecode
  obtain ⟨hwf, hoperands⟩ := operandBytes_instr htake h
  refine ⟨hwf, ?_⟩
  calc be32 h ++ operands
      = be32 h ++ ((op.instr h value data).operandBytes ++ rest) := by rw [← hoperands]
    _ = encode (op.instr h value data) ++ rest := by rw [encode, header_instr hop hzero, List.append_assoc]

end Sys2Proof
